-- ==== Sys2Proof/Word.lean ====
section
/-! DEFINITION. The word types of LIO (00_scope.md R8: bits numbered from 0 at the least significant end,
everything unsigned). -/

namespace Sys2Proof

/-- One byte of the frame's byte view (20_memory.md R50). -/
abbrev Byte := BitVec 8

/-- One 32-bit entry of the frame's word view, and the width of `rsp_data` (10_state.md R27, R37). -/
abbrev Word := BitVec 32

/-- One command word of the command port (30_encoding.md R75). -/
abbrev CmdWord := BitVec 64

end Sys2Proof
end

