-- ==== Sys2Proof/Syntax.lean ====
section
/-! DEFINITION. The LIO command set (30_encoding.md R76): one constructor per row of spec/opcode_table.json. -/

namespace Sys2Proof

/-- The eight commands with their operands, in the order of the assembler syntax (30_encoding.md R85). Every operand
is an unsigned natural (R79); which naturals a command word can carry is `Instr.wf`. -/
inductive Instr where
  /-- NOP (43_system.md R170). -/
  | nop
  /-- POLL k (40_debounce.md R104). -/
  | poll (k : Nat)
  /-- PIX_WRITE i, r, g, b, br (41_frame.md R121). -/
  | pixWrite (i r g b br : Nat)
  /-- RD_WORD w (41_frame.md R123). -/
  | rdWord (w : Nat)
  /-- RD_BYTE a (41_frame.md R124). -/
  | rdByte (a : Nat)
  /-- SEND_BB dly (42_transmit.md R145). -/
  | sendBb (dly : Nat)
  /-- SEND_PER ign (42_transmit.md R152). -/
  | sendPer (ign : Nat)
  /-- RD_STATUS (43_system.md R171). -/
  | rdStatus
  deriving DecidableEq, Repr

end Sys2Proof
end

