-- ==== Sys2Proof/WellFormed.lean ====
section
/-! DEFINITION. Which instructions are commands at all: every operand fits its field (30_encoding.md R85: one that
does not "is an assembly error, not a command"). A brightness of 32..255 fits; its fault is the hardware's. -/

namespace Sys2Proof

/-- Every operand fits the field that carries it (30_encoding.md R75, R77, R85). -/
def Instr.wf : Instr → Bool
  | .nop => true
  | .poll k => decide (k < 16)
  | .pixWrite i r g b br =>
    decide (i < 2 ^ 20) && decide (r < 256) && decide (g < 256) && decide (b < 256) && decide (br < 256)
  | .rdWord w => decide (w < 2 ^ 20)
  | .rdByte a => decide (a < 2 ^ 20)
  | .sendBb dly => decide (dly < 65536)
  | .sendPer ign => decide (ign < 65536)
  | .rdStatus => true

end Sys2Proof
end

