-- ==== Sys2Proof/Decode.lean ====
section
/-! DEFINITION. The command word (30_encoding.md R75 to R79): its fields, the decoder, which is total and refuses
every illegal word by name, the encoder, and the opcode table as mask and match rows. -/

namespace Sys2Proof

/-! ### The five fields (R75) -/

/-- OP, bits [63:60]. -/
def CmdWord.op (c : CmdWord) : BitVec 4 := c.extractLsb' 60 4

/-- SEL, bits [59:56]. -/
def CmdWord.sel (c : CmdWord) : BitVec 4 := c.extractLsb' 56 4

/-- IDX, bits [55:36]. -/
def CmdWord.idx (c : CmdWord) : BitVec 20 := c.extractLsb' 36 20

/-- RSV, bits [35:32]. -/
def CmdWord.rsv (c : CmdWord) : BitVec 4 := c.extractLsb' 32 4

/-- DATA, bits [31:0]. -/
def CmdWord.data (c : CmdWord) : BitVec 32 := c.extractLsb' 0 32

/-- Byte `i` of a 32-bit value, byte 0 the least significant (R77, 20_memory.md R53). -/
def Word.byte (v : Word) (i : Nat) : Byte := v.extractLsb' (8 * i) 8

/-- Half-word `i` of a 32-bit value, the low one first (R77). -/
def Word.half (v : Word) (i : Nat) : BitVec 16 := v.extractLsb' (16 * i) 16

/-! ### Decoding -/

/-- Why a word is no command (R78). All of them raise ILLEGAL_CMD; the name says which "must be 0" failed. -/
inductive Reject where
  /-- OP is 0x8..0xF. -/
  | reservedOp
  /-- SEL is not 0 in a command other than POLL. -/
  | selNotZero
  /-- IDX is not 0 in a command that has no index. -/
  | idxNotZero
  /-- RSV is not 0. -/
  | rsvNotZero
  /-- DATA, or the part of it that carries no operand, is not 0. -/
  | dataNotZero
  deriving DecidableEq, Repr

/-- `i` where the check holds, the named refusal where it does not. -/
def requireField (ok : Bool) (why : Reject) (i : Except Reject Instr) : Except Reject Instr :=
  if ok then i else .error why

/-- The command a word stands for (R75 to R79), or why it is illegal (R78). -/
def decode (c : CmdWord) : Except Reject Instr :=
  let selZero := requireField (c.sel == 0) .selNotZero
  let idxZero := requireField (c.idx == 0) .idxNotZero
  let rsvZero := requireField (c.rsv == 0) .rsvNotZero
  let dataZero := requireField (c.data == 0) .dataNotZero
  let highZero := requireField (Word.half c.data 1 == 0) .dataNotZero
  match c.op.toNat with
  | 0 => selZero <| idxZero <| rsvZero <| dataZero <| .ok .nop
  | 1 => idxZero <| rsvZero <| dataZero <| .ok (.poll c.sel.toNat)
  | 2 => selZero <| rsvZero <| .ok <|
      .pixWrite c.idx.toNat (Word.byte c.data 2).toNat (Word.byte c.data 1).toNat (Word.byte c.data 0).toNat (Word.byte c.data 3).toNat
  | 3 => selZero <| rsvZero <| dataZero <| .ok (.rdWord c.idx.toNat)
  | 4 => selZero <| rsvZero <| dataZero <| .ok (.rdByte c.idx.toNat)
  | 5 => selZero <| idxZero <| rsvZero <| highZero <| .ok (.sendBb (Word.half c.data 0).toNat)
  | 6 => selZero <| idxZero <| rsvZero <| highZero <| .ok (.sendPer (Word.half c.data 0).toNat)
  | 7 => selZero <| idxZero <| rsvZero <| dataZero <| .ok .rdStatus
  | _ => .error .reservedOp

/-! ### Encoding -/

/-- The five fields laid out as one word (R75): `(OP<<60)|(SEL<<56)|(IDX<<36)|(RSV<<32)|DATA`, with RSV 0. -/
def CmdWord.pack (op sel idx : Nat) (data : BitVec 32) : CmdWord :=
  BitVec.ofNat 4 op ++ BitVec.ofNat 4 sel ++ BitVec.ofNat 20 idx ++ (0 : BitVec 4) ++ data

/-- DATA from its four bytes, the most significant first (R77). -/
def Word.ofBytes (b3 b2 b1 b0 : Byte) : Word := b3 ++ b2 ++ b1 ++ b0

/-- The command word of an instruction (R75 to R77). -/
def encode : Instr → CmdWord
  | .nop => CmdWord.pack 0 0 0 0
  | .poll k => CmdWord.pack 1 k 0 0
  | .pixWrite i r g b br =>
    CmdWord.pack 2 0 i (Word.ofBytes (BitVec.ofNat 8 br) (BitVec.ofNat 8 r) (BitVec.ofNat 8 g) (BitVec.ofNat 8 b))
  | .rdWord w => CmdWord.pack 3 0 w 0
  | .rdByte a => CmdWord.pack 4 0 a 0
  | .sendBb dly => CmdWord.pack 5 0 0 ((0 : BitVec 16) ++ BitVec.ofNat 16 dly)
  | .sendPer ign => CmdWord.pack 6 0 0 ((0 : BitVec 16) ++ BitVec.ofNat 16 ign)
  | .rdStatus => CmdWord.pack 7 0 0 0

/-! ### The opcode table -/

/-- A row of spec/opcode_table.json: a word is the row's command when its bits under `mask` are `pattern`. -/
structure OpcodeRow where
  mnemonic : String
  pattern  : CmdWord
  mask     : CmdWord
  deriving DecidableEq, Repr

/-- The rows of spec/opcode_table.json, in its order. -/
def opcodeTable : List OpcodeRow :=
  [ ⟨"NOP",       0x0000000000000000, 0xFFFFFFFFFFFFFFFF⟩,
    ⟨"POLL",      0x1000000000000000, 0xF0FFFFFFFFFFFFFF⟩,
    ⟨"PIX_WRITE", 0x2000000000000000, 0xFF00000F00000000⟩,
    ⟨"RD_WORD",   0x3000000000000000, 0xFF00000FFFFFFFFF⟩,
    ⟨"RD_BYTE",   0x4000000000000000, 0xFF00000FFFFFFFFF⟩,
    ⟨"SEND_BB",   0x5000000000000000, 0xFFFFFFFFFFFF0000⟩,
    ⟨"SEND_PER",  0x6000000000000000, 0xFFFFFFFFFFFF0000⟩,
    ⟨"RD_STATUS", 0x7000000000000000, 0xFFFFFFFFFFFFFFFF⟩ ]

/-- The word is of this row. -/
def OpcodeRow.covers (row : OpcodeRow) (c : CmdWord) : Bool := c &&& row.mask == row.pattern

/-- The mnemonic of an instruction, as the table and the assembler spell it (R76, R85). -/
def Instr.mnemonic : Instr → String
  | .nop => "NOP"
  | .poll _ => "POLL"
  | .pixWrite .. => "PIX_WRITE"
  | .rdWord _ => "RD_WORD"
  | .rdByte _ => "RD_BYTE"
  | .sendBb _ => "SEND_BB"
  | .sendPer _ => "SEND_PER"
  | .rdStatus => "RD_STATUS"

/-- What the decoder reads from a word of `nbits` bits, every bit above them 0; none where it refuses, and none for a
word that does not fit the one 64-bit format (R87). -/
def decodeTableWord (nbits w : Nat) : Option Instr :=
  if w % 2 ^ nbits < 2 ^ 64 then (decode (BitVec.ofNat 64 (w % 2 ^ nbits))).toOption else none

end Sys2Proof
end

