-- ==== Sys2Proof/Config.lean ====
section
/-! DEFINITION. The parameters of LIO (00_scope.md R5), the sizes derived from them (R6), and what the
environment gives LIO in one cycle (10_state.md R21). -/

namespace Sys2Proof

/-- The two parameters of debounce channel `k` (00_scope.md R5): SETTLE[k], in ticks, and INIT_LEVEL[k]. -/
structure ChannelConfig where
  settle    : Nat
  initLevel : Bool
  deriving DecidableEq, Repr, Inhabited

/-- The parameters of LIO (00_scope.md R5). Every one is OPEN in the spec, so a claim holds for every valid
configuration. NUM_INPUTS is the number of entries of `channels`; SYNC_STAGES is the fixed 2 of the
synchronizer's two flip-flops. -/
structure Config where
  /-- N, the strip length: the size of the active window. -/
  n            : Nat
  /-- SETTLE[k] and INIT_LEVEL[k], k = 0 first. -/
  channels     : List ChannelConfig
  /-- CYCLES_PER_US. -/
  cyclesPerUs  : Nat
  /-- PER_TIMEOUT, in cycles. -/
  perTimeout   : Nat
  /-- PER_BIT_PERIOD of the external peripheral, in cycles. -/
  perBitPeriod : Nat
  /-- PER_WORD_WIDTH of the external peripheral, internal to it. -/
  perWordWidth : Nat
  deriving DecidableEq, Repr, Inhabited

/-- NUM_INPUTS (00_scope.md R5). -/
def Config.numInputs (c : Config) : Nat := c.channels.length

/-- E = N + 2, the number of frame entries (00_scope.md R6). -/
def Config.entries (c : Config) : Nat := c.n + 2

/-- B = 4(N + 2), the number of frame bytes (00_scope.md R6). -/
def Config.frameBytes (c : Config) : Nat := 4 * (c.n + 2)

/-- 32(N + 2), the number of bits of one transmission (00_scope.md R6). -/
def Config.wireLength (c : Config) : Nat := 32 * (c.n + 2)

/-- The ranges of the parameters (00_scope.md R5). PER_WORD_WIDTH has none (log 19). -/
def Config.valid (c : Config) : Bool :=
  decide (1 ≤ c.n) && decide (c.n ≤ 262141) &&
  decide (1 ≤ c.numInputs) && decide (c.numInputs ≤ 16) &&
  c.channels.all (fun ch => decide (ch.settle ≤ 65535)) &&
  decide (1 ≤ c.cyclesPerUs) && decide (1 ≤ c.perTimeout) && decide (2 ≤ c.perBitPeriod)

/-- The configuration of `State.reset`: the parameter values of the spec's own encoding vectors
(95_test_vectors.md section 2). DESIGN CHOICE, unsafe, log 4: the spec leaves every one of them open. -/
def Config.standard : Config where
  n            := 2
  channels     := [{ settle := 10, initLevel := false }]
  cyclesPerUs  := 1
  perTimeout   := 100
  perBitPeriod := 2
  perWordWidth := 8

/-- The values of LIO's input ports in one cycle (10_state.md R21), and the free value a pin write that fails in
that cycle leaves on its pin. -/
structure Input where
  /-- `rst`. -/
  rst      : Bool
  /-- `raw_in`: bit k is `raw_in[k]`. Bits from NUM_INPUTS up are read by nothing (log 8). -/
  rawIn    : BitVec 16
  /-- `tick`. -/
  tick     : Bool
  /-- `cmd_valid`. -/
  cmdValid : Bool
  /-- `cmd`. -/
  cmd      : CmdWord
  /-- `pin_fault`. -/
  pinFault : Bool
  /-- `per_ready`. -/
  perReady : Bool
  /-- `per_err`. -/
  perErr   : Bool
  /-- `draw()` of this cycle (00_scope.md R10, 42_transmit.md R143): the level a failing pin write leaves. It is a
  free value, not a port (log 3). -/
  draw     : Bool
  deriving DecidableEq, Repr, Inhabited

/-- A cycle in which nothing happens at any port. -/
def Input.quiet : Input where
  rst := false
  rawIn := 0
  tick := false
  cmdValid := false
  cmd := 0
  pinFault := false
  perReady := false
  perErr := false
  draw := false

/-- What the environment gives in cycle `n` when the state lists no inputs for it: any value at all
(70_reset_and_hazards.md R222, 92_eei_decisions.md D36). A free value, log 2. -/
opaque Config.freeInput : Nat → Input

end Sys2Proof
end

