-- ==== Sys2Proof/Machine/State.lean ====
section
/-! DEFINITION. The state of LIO as plain data (10_state.md), its reset value (70_reset_and_hazards.md R200), and the
reasons a step can stop. -/

namespace Sys2Proof.Machine

/-- Debounce channel `k` (10_state.md R22 to R25). -/
structure Channel where
  /-- `deb[k].stable`, the last accepted stable level (R23). -/
  stable  : Bool
  /-- `deb[k].sync1`, the first synchronizer flop (R24). -/
  sync1   : Bool
  /-- `deb[k].sync2`, the second one, the raw level a POLL reads (R24). -/
  sync2   : Bool
  /-- `deb[k].elapsed`, ticks since the last accepted change, saturated at SETTLE[k]+1 (R25). -/
  elapsed : Nat
  deriving DecidableEq, Repr

/-- `tx.state` (10_state.md R30). -/
inductive TxState where
  | idle | bbClkLo | bbDat | bbWait1 | bbClkHi | bbWait2 | bbEndClk | bbEndDat | perXfer
  deriving DecidableEq, Repr

/-- The transmitter's registers (10_state.md R30). -/
structure Transmitter where
  /-- `tx.state`. -/
  state : TxState
  /-- `tx.j`, byte cursor into the byte view. -/
  j     : Nat
  /-- `tx.b`, bit cursor within byte `tx.j`, 7 the most significant. -/
  b     : Fin 8
  /-- `tx.d`, the delay in cycles latched by SEND_BB. -/
  d     : Nat
  /-- `tx.w`, remaining cycles of the current wait step. -/
  w     : Nat
  /-- `tx.t`, cycles spent in the current SEND_PER. -/
  t     : Nat
  deriving DecidableEq, Repr

/-- The registered output pins `pin.clk` and `pin.dat` (10_state.md R31). -/
structure Pins where
  clk : Bool
  dat : Bool
  deriving DecidableEq, Repr

/-- The results a SEND can complete with (10_state.md R32, 30_encoding.md R83). -/
inductive SendResult where
  | ok | pinIoErr | perIoErr | perTimeout
  deriving DecidableEq, Repr

/-- The two transmitter variants (10_state.md R34, 42_transmit.md R140). -/
inductive Variant where
  /-- SEND_BB. -/
  | bitBanged
  /-- SEND_PER. -/
  | clockedPeripheral
  deriving DecidableEq, Repr

/-- The send status (10_state.md R32 to R34). -/
structure Status where
  /-- `stat.last_result`; `none` is the value 7, NONE: no SEND has completed since reset (R32). -/
  lastResult  : Option SendResult
  /-- `stat.strip_undef` (R33). -/
  stripUndef  : Bool
  /-- `stat.last_variant` (R34). -/
  lastVariant : Variant
  deriving DecidableEq, Repr

/-- The fatal causes (60_exceptions.md R180, R181). -/
inductive FatalCause where
  | illegalCmd | brightnessRange | indexRange
  deriving DecidableEq, Repr

/-- The fatal state (10_state.md R36). -/
structure FatalState where
  /-- `ftl.fatal`. -/
  fatal : Bool
  /-- `ftl.cause`; `none` is the value 0 (60_exceptions.md R181). -/
  cause : Option FatalCause
  deriving DecidableEq, Repr

/-- The response codes LIO produces (30_encoding.md R83). The reserved codes 4, 5, 6 have no constructor. -/
inductive RspCode where
  | ok | pinIoErr | perIoErr | perTimeout | fatal
  deriving DecidableEq, Repr

/-- The response registers (10_state.md R37). -/
structure Response where
  valid : Bool
  code  : RspCode
  data  : Word
  deriving DecidableEq, Repr

/-- The stored bytes of the frame's active window, by byte-view index (20_memory.md R50), in one canonical form:
indices strictly rising, no byte listed that equals its reset content. An unlisted byte reads as its reset content. The
markers are constants and are stored nowhere (10_state.md R27). Log 13. -/
abbrev Memory := List Host.Cell

/-- The whole state of LIO (10_state.md R22 to R37), and the model's own three fields. -/
structure State where
  /-- The parameters (00_scope.md R5); no step changes them. The model's own field, log 4. -/
  cfg    : Config
  /-- The debounce channels, k = 0 first (R22). -/
  deb    : List Channel
  /-- The active window of the frame (R27). -/
  frame  : Memory
  /-- The transmitter (R30). -/
  tx     : Transmitter
  /-- The output pins (R31). -/
  pin    : Pins
  /-- The send status (R32 to R34). -/
  stat   : Status
  /-- The fatal state (R36). -/
  ftl    : FatalState
  /-- The response registers (R37). -/
  rsp    : Response
  /-- What the input ports take in this cycle and the following ones, this cycle first (R21, R222). The model's own
  field, log 1. -/
  inputs : List Input
  /-- Edges so far; it names the free inputs of a cycle that `inputs` does not list. The model's own field, log 17. -/
  cycle  : Nat
  deriving DecidableEq, Repr

/-- Why a step stops. LIO itself never stops; both constructors arise only in states that no run reaches (log 7). -/
inductive Fault where
  /-- Raised by the transmitter when `tx.j` is outside the byte view (20_memory.md R50). Safe: no reachable state. -/
  | noSuchFrameByte (a : Nat)
  /-- Raised by POLL when the state holds no channel `k` although k < NUM_INPUTS (10_state.md R22). Safe: no reachable
  state. -/
  | noSuchChannel (k : Nat)
  deriving DecidableEq, Repr

/-- Why a step has no meaning. -/
inductive Refusal where
  /-- Raised by `exec` for an instruction that has no meaning yet. Safe. No arm raises it. -/
  | notModelled (mnemonic : String)
  deriving DecidableEq, Repr

/-- A channel at reset: reset counts as an accepted change (10_state.md R23 to R25). -/
def Channel.reset (c : ChannelConfig) : Channel where
  stable  := c.initLevel
  sync1   := c.initLevel
  sync2   := c.initLevel
  elapsed := 0

/-- The transmitter at reset and between sends (10_state.md R30, 42_transmit.md R148). -/
def Transmitter.reset : Transmitter where
  state := .idle
  j := 0
  b := 7
  d := 0
  w := 0
  t := 0

/-- Every element of LIO at its reset value (70_reset_and_hazards.md R200), for the configuration `c`; no inputs are
listed and the cycle count is 0 (logs 1, 17). -/
def State.resetOf (c : Config) : State where
  cfg    := c
  deb    := c.channels.map Channel.reset
  frame  := []
  tx     := Transmitter.reset
  pin    := { clk := true, dat := true }
  stat   := { lastResult := none, stripUndef := true, lastVariant := .bitBanged }
  ftl    := { fatal := false, cause := none }
  rsp    := { valid := false, code := .ok, data := 0 }
  inputs := []
  cycle  := 0

/-- The machine right after reset (R200), in the configuration of log 4 (DESIGN CHOICE). -/
def State.reset : State := State.resetOf Config.standard

end Sys2Proof.Machine
end

