-- ==== Sys2Proof/Machine/Ops.lean ====
section
/-! DEFINITION. The operations every command and every clock edge is made of: the inputs of the cycle, the background
of an edge, the frame's reads and its one write, responding, entering the fatal state, and reset, which leaves it.

All writes of one edge take effect together and every read sees the value before the edge (00_scope.md R9). So an edge
is written as: read from the state `s` before the edge, write into `background s`. -/

namespace Sys2Proof.Machine

/-- The outcome of one edge of LIO. -/
abbrev Edge := Host.Outcome State Fault Refusal

/-! ### The inputs of the cycle (00_scope.md R9) -/

/-- `in`: what the ports take in this cycle: the first listed record, or a free value when none is listed (logs 1, 2). -/
def State.input (s : State) : Input :=
  match s.inputs with
  | [] => Config.freeInput s.cycle
  | i :: _ => i

/-! ### Debounce channels in the background (40_debounce.md R101, R103) -/

/-- SETTLE[k] (00_scope.md R5); no rule reads it for k >= NUM_INPUTS. -/
def settleOf (c : Config) (k : Nat) : Nat :=
  match c.channels[k]? with
  | some ch => ch.settle
  | none => 0

/-- The elapsed counter at an edge that accepts no change: `min(elapsed + in.tick, SETTLE + 1)` (R103). -/
def elapsedNext (settle : Nat) (tick : Bool) (elapsed : Nat) : Nat :=
  min (elapsed + tick.toNat) (settle + 1)

/-- One channel at an edge that does not accept a change on it: the synchronizer shifts, the counter counts
(R101, R103). -/
def channelEdge (settle : Nat) (raw tick : Bool) (ch : Channel) : Channel where
  stable  := ch.stable
  sync1   := raw
  sync2   := ch.sync1
  elapsed := elapsedNext settle tick ch.elapsed

/-- Every channel at an edge that accepts no change. -/
def channelsEdge (c : Config) (inp : Input) (deb : List Channel) : List Channel :=
  deb.mapIdx fun k ch => channelEdge (settleOf c k) (inp.rawIn.getLsbD k) inp.tick ch

/-- What every non-reset edge does whatever else it does: the channels run (R101, R103), `rsp.valid` falls
(10_state.md R37), and the model goes on to the next cycle's inputs. -/
def background (s : State) : State :=
  { s with
    deb    := channelsEdge s.cfg s.input s.deb
    rsp    := { s.rsp with valid := false }
    inputs := s.inputs.tail
    cycle  := s.cycle + 1 }

/-! ### The frame (20_memory.md) -/

/-- What a byte of the active window that nothing has written reads as: the reset content 0xFF (10_state.md R29). The
start marker's bytes are 0x00 and the end marker's 0xFF (R27). -/
def unlistedByte (a : Nat) : Byte := if a < 4 then 0x00 else 0xFF

/-- The stored byte at `a`, or what it reads as when none is listed. -/
def Memory.get : Memory → Nat → Byte
  | [], a => unlistedByte a
  | cell :: m, a => if cell.1 = a then cell.2 else Memory.get m a

/-- Store `v` at `a`, keeping the canonical form: a byte equal to what an unlisted one reads as is not listed. -/
def Memory.set : Memory → Nat → Byte → Memory
  | [], a, v => if v = unlistedByte a then [] else [(a, v)]
  | cell :: m, a, v =>
    if a < cell.1 then (if v = unlistedByte a then cell :: m else (a, v) :: cell :: m)
    else if a = cell.1 then (if v = unlistedByte a then m else (a, v) :: m)
    else cell :: Memory.set m a v

/-- The canonical form: indices strictly rising, and no byte listed that equals its unlisted value. -/
def Memory.wf : Memory → Bool
  | [] => true
  | cell :: m => decide (cell.2 ≠ unlistedByte cell.1) && m.all (fun c => decide (cell.1 < c.1)) && Memory.wf m

/-- `MemRead(a, 1)` (00_scope.md R10): byte `a` of the byte view (20_memory.md R50, R53). The markers are hardwired
(10_state.md R27); there is no byte from 4(N+2) on. -/
def frameByte (c : Config) (m : Memory) (a : Nat) : Option Byte :=
  if a < 4 then some 0x00
  else if a < 4 * (c.n + 1) then some (Memory.get m a)
  else if a < c.frameBytes then some 0xFF
  else none

/-- `MemRead(4w, 4)`: entry `w` of the word view, the little-endian assembly of its four bytes (20_memory.md R53). -/
def frameWord (c : Config) (m : Memory) (w : Nat) : Option Word :=
  match frameByte c m (4 * w), frameByte c m (4 * w + 1), frameByte c m (4 * w + 2), frameByte c m (4 * w + 3) with
  | some b0, some b1, some b2, some b3 => some (Word.ofBytes b3 b2 b1 b0)
  | _, _, _, _ => none

/-- The byte-view index a PIX_WRITE of active-window index `i` stores to: entry i + 1 (20_memory.md R50, R55). -/
def activeAddress (i : Nat) : Nat := 4 * (i + 1)

/-- `MemWrite(a, 4, v)` (00_scope.md R10): all four bytes of one entry, byte i getting `v[8i+7:8i]` (R55). -/
def Memory.store (m : Memory) (a : Nat) (v : Word) : Memory :=
  Memory.set (Memory.set (Memory.set (Memory.set m a (Word.byte v 0)) (a + 1) (Word.byte v 1)) (a + 2) (Word.byte v 2))
    (a + 3) (Word.byte v 3)

/-! ### Responding (30_encoding.md R82) -/

/-- `respond(code, data)` at this edge. -/
def State.respond (code : RspCode) (data : Word) (t : State) : State :=
  { t with rsp := { valid := true, code := code, data := data } }

/-! ### The fatal state (60_exceptions.md R181, R182) and reset (70_reset_and_hazards.md R200) -/

/-- `ftl.cause` as its 2-bit code (R181). -/
def causeCode : Option FatalCause → BitVec 2
  | none => 0
  | some .illegalCmd => 1
  | some .brightnessRange => 2
  | some .indexRange => 3

/-- The edge that accepts a command and raises Fatal(cause): exactly the three writes of R182, and nothing else of the
command. -/
def raiseFatal (cause : FatalCause) (s : State) : State :=
  { background s with ftl := { fatal := true, cause := some cause } }.respond .fatal ((causeCode (some cause)).zeroExtend 32)

/-- An edge that ends a reset cycle: every element takes its reset value (R200). The parameters stay, and the model goes
on to the next cycle's inputs. It is the only way out of the fatal state (R185). -/
def resetEdge (s : State) : State :=
  { State.resetOf s.cfg with inputs := s.inputs.tail, cycle := s.cycle + 1 }

/-! ### The command port (30_encoding.md R80) -/

/-- `cmd_ready`, combinational: not in reset, not fatal, transmitter idle (R80). -/
def cmdReady (s : State) : Bool :=
  !s.input.rst && !s.ftl.fatal && decide (s.tx.state = .idle)

/-- A command is accepted at the edge that ends this cycle (R80). -/
def accepts (s : State) : Bool := s.input.cmdValid && cmdReady s

end Sys2Proof.Machine
end

