-- ==== Sys2Proof/Machine/Flags.lean ====
section
/-! DEFINITION. The result bits and codes LIO shows: the POLL response (40_debounce.md R104), the STATUS register
(10_state.md R35), the response and result codes (30_encoding.md R83). -/

namespace Sys2Proof.Machine

/-- `rsp_code` as its 3-bit code (30_encoding.md R83). -/
def RspCode.bits : RspCode → BitVec 3
  | .ok => 0
  | .pinIoErr => 1
  | .perIoErr => 2
  | .perTimeout => 3
  | .fatal => 7

/-- The response code a SEND completes with (42_transmit.md R148). -/
def SendResult.code : SendResult → RspCode
  | .ok => .ok
  | .pinIoErr => .pinIoErr
  | .perIoErr => .perIoErr
  | .perTimeout => .perTimeout

/-- `stat.last_result` as its 3-bit code, 7 for NONE (10_state.md R32). -/
def lastResultBits : Option SendResult → BitVec 3
  | none => 7
  | some r => r.code.bits

/-- `stat.last_variant` as its bit (10_state.md R34). -/
def Variant.bit : Variant → Bool
  | .bitBanged => false
  | .clockedPeripheral => true

/-- The STATUS register: `{27'b0, last_variant, strip_undef, last_result}` (10_state.md R35, 43_system.md R171). -/
def statusWord (st : Status) : Word :=
  (0 : BitVec 27) ++ BitVec.ofBool st.lastVariant.bit ++ BitVec.ofBool st.stripUndef ++ lastResultBits st.lastResult

/-- `rise = changed & level` (40_debounce.md R104). -/
def riseBit (changed level : Bool) : Bool := changed && level

/-- `fall = changed & ~level` (40_debounce.md R104). -/
def fallBit (changed level : Bool) : Bool := changed && !level

/-- The POLL response data `{28'b0, fall, rise, changed, level}` (40_debounce.md R104). -/
def pollWord (changed level : Bool) : Word :=
  (0 : BitVec 28) ++ BitVec.ofBool (fallBit changed level) ++ BitVec.ofBool (riseBit changed level) ++
    BitVec.ofBool changed ++ BitVec.ofBool level

end Sys2Proof.Machine
end

