-- ==== Sys2Proof/Machine/Operands.lean ====
section
/-! DEFINITION. The operands of the commands: the index spaces and their ranges (20_memory.md R50, 30_encoding.md R79),
the pixel record (30_encoding.md R70, R71), and the delay (42_transmit.md R145). -/

namespace Sys2Proof.Machine

/-! ### Ranges (30_encoding.md R79) -/

/-- k < NUM_INPUTS. -/
def channelInRange (c : Config) (k : Nat) : Bool := decide (k < c.numInputs)

/-- i < N: the active window. -/
def activeInRange (c : Config) (i : Nat) : Bool := decide (i < c.n)

/-- w < N+2: the word view. -/
def wordInRange (c : Config) (w : Nat) : Bool := decide (w < c.entries)

/-- a < 4(N+2): the byte view. -/
def byteInRange (c : Config) (a : Nat) : Bool := decide (a < c.frameBytes)

/-- br < 32. -/
def brightnessInRange (br : Nat) : Bool := decide (br < 32)

/-! ### The pixel record (30_encoding.md R70, R71) -/

/-- The intensity byte `0b111_00000 | brightness` (R70). -/
def intensityByte (br : Nat) : Byte := 0xE0 ||| BitVec.ofNat 8 br

/-- `encode(r, g, b, br)`: the record's bytes [intensity][red][green][blue] from the lowest byte up (R70). -/
def encodePixel (r g b br : Nat) : Word :=
  Word.ofBytes (BitVec.ofNat 8 b) (BitVec.ofNat 8 g) (BitVec.ofNat 8 r) (intensityByte br)

/-- What the host reads out of an entry (R71). -/
structure Pixel where
  red        : Nat
  green      : Nat
  blue       : Nat
  brightness : Nat
  deriving DecidableEq, Repr

/-- `decode` of a 32-bit entry value (R71). LIO has no such command; the host does it to a word it has read. -/
def decodePixel (v : Word) : Pixel where
  red        := (v.extractLsb' 8 8).toNat
  green      := (v.extractLsb' 16 8).toNat
  blue       := (v.extractLsb' 24 8).toNat
  brightness := (v.extractLsb' 0 5).toNat

/-- The header bits of an entry, `v[7:5]` (R71). -/
def pixelHeader (v : Word) : BitVec 3 := v.extractLsb' 5 3

/-! ### The delay (42_transmit.md R145) -/

/-- `dly * CYCLES_PER_US`, the wait length in cycles. -/
def delayCycles (c : Config) (dly : Nat) : Nat := dly * c.cyclesPerUs

end Sys2Proof.Machine
end

