-- ==== Sys2Proof/Machine/Debounce.lean ====
section
/-! DEFINITION. POLL (40_debounce.md R104). -/

namespace Sys2Proof.Machine

/-- The channel is in lockout: a POLL is suppressed (40_debounce.md R104 step 1, R105). -/
def inLockout (settle : Nat) (ch : Channel) : Bool := decide (ch.elapsed ≤ settle)

/-- A POLL of the channel accepts a change: outside lockout, and the synchronized level differs from the stable one
(R104 step 2). It is the value of `changed`. -/
def pollChanged (settle : Nat) (ch : Channel) : Bool :=
  !inLockout settle ch && (ch.sync2 != ch.stable)

/-- The value of `level`: the stable level after the update (R104). -/
def pollLevel (settle : Nat) (ch : Channel) : Bool :=
  if pollChanged settle ch then ch.sync2 else ch.stable

/-- The channel after a POLL's edge: the synchronizer shifts as at every edge (R101); an accepted change moves the
stable level and restarts the counter at `in.tick`, otherwise the counter counts (R103, R104). -/
def channelPolled (settle : Nat) (raw tick : Bool) (ch : Channel) : Channel where
  stable  := pollLevel settle ch
  sync1   := raw
  sync2   := ch.sync1
  elapsed := if pollChanged settle ch then tick.toNat else elapsedNext settle tick ch.elapsed

/-- POLL k (R104): INDEX_RANGE for k >= NUM_INPUTS, else one update pass of channel k and its four result bits. Every
read is of the state before the edge (00_scope.md R9). -/
def execPoll (k : Nat) (s : State) : Edge :=
  if channelInRange s.cfg k then
    match s.deb[k]? with
    | none => .fault (.noSuchChannel k)
    | some ch =>
      let settle := settleOf s.cfg k
      let polled := channelPolled settle (s.input.rawIn.getLsbD k) s.input.tick ch
      let t := background s
      .next (({ t with deb := t.deb.set k polled } : State).respond .ok
        (pollWord (pollChanged settle ch) (pollLevel settle ch)))
  else .next (raiseFatal .indexRange s)

end Sys2Proof.Machine
end

