-- ==== Sys2Proof/Machine/Frame.lean ====
section
/-! DEFINITION. The frame commands PIX_WRITE, RD_WORD and RD_BYTE (41_frame.md). -/

namespace Sys2Proof.Machine

/-- PIX_WRITE i, r, g, b, br (41_frame.md R121): brightness first, then index (30_encoding.md R81); then the whole entry
is written and the response is OK, 0. -/
def execPixWrite (i r g b br : Nat) (s : State) : Edge :=
  if !brightnessInRange br then .next (raiseFatal .brightnessRange s)
  else if !activeInRange s.cfg i then .next (raiseFatal .indexRange s)
  else
    let t := background s
    .next (({ t with frame := Memory.store s.frame (activeAddress i) (encodePixel r g b br) } : State).respond .ok 0)

/-- RD_WORD w (41_frame.md R123). -/
def execRdWord (w : Nat) (s : State) : Edge :=
  if wordInRange s.cfg w then
    match frameWord s.cfg s.frame w with
    | some v => .next ((background s).respond .ok v)
    | none => .fault (.noSuchFrameByte (4 * w))
  else .next (raiseFatal .indexRange s)

/-- RD_BYTE a (41_frame.md R124). -/
def execRdByte (a : Nat) (s : State) : Edge :=
  if byteInRange s.cfg a then
    match frameByte s.cfg s.frame a with
    | some v => .next ((background s).respond .ok (v.zeroExtend 32))
    | none => .fault (.noSuchFrameByte a)
  else .next (raiseFatal .indexRange s)

end Sys2Proof.Machine
end

