-- ==== Sys2Proof/Machine/System.lean ====
section
/-! DEFINITION. The system commands NOP and RD_STATUS (43_system.md). Legality is checked before, by the decoder. -/

namespace Sys2Proof.Machine

/-- NOP (43_system.md R170): responds OK, 0, and does nothing else. -/
def execNop (s : State) : Edge :=
  .next ((background s).respond .ok 0)

/-- RD_STATUS (43_system.md R171): responds the STATUS register, which reading does not clear. -/
def execRdStatus (s : State) : Edge :=
  .next ((background s).respond .ok (statusWord s.stat))

end Sys2Proof.Machine
end

