-- ==== Sys2Proof/Machine/Transmit.lean ====
section
/-! DEFINITION. The transmitter (42_transmit.md): the acceptance edges of SEND_BB and SEND_PER, and the edges of a send
in progress.

At an edge of a send, `s` is the state before the edge and `t` the state being built from `background s`, which leaves
the transmitter, the pins, the status and the frame as they were. -/

namespace Sys2Proof.Machine

/-! ### The acceptance edges -/

/-- SEND_BB dly (42_transmit.md R145): the delay in cycles is latched and the cursor set to the first bit; no pin changes
and no response at this edge. -/
def execSendBb (dly : Nat) (s : State) : Edge :=
  let t := background s
  .next { t with tx := { t.tx with state := .bbClkLo, j := 0, b := 7, d := delayCycles s.cfg dly, w := 0 } }

/-- SEND_PER ign (42_transmit.md R152): `ign` is not read; no response at this edge. -/
def execSendPer (_ign : Nat) (s : State) : Edge :=
  let t := background s
  .next { t with tx := { t.tx with state := .perXfer, j := 0, t := 0 } }

/-! ### Completion (R148) -/

/-- `finish(result, variant)`: the transmitter goes idle, the status records the result, and the send responds (R148). -/
def finish (result : SendResult) (variant : Variant) (t : State) : State :=
  { t with
    tx   := Transmitter.reset
    stat := { lastResult := some result, stripUndef := decide (result ≠ SendResult.ok), lastVariant := variant }
  }.respond result.code 0

/-! ### The bit-banged machine (R143, R144, R146) -/

/-- The two output pins (10_state.md R31). -/
inductive Pin where
  | clk | dat
  deriving DecidableEq, Repr

/-- Drive one pin; the other keeps its value. -/
def setPin (p : Pin) (v : Bool) (t : State) : State :=
  match p with
  | .clk => { t with pin := { t.pin with clk := v } }
  | .dat => { t with pin := { t.pin with dat := v } }

/-- `pinwrite(p, v)` followed by `onOk` when it succeeds. When the platform reports a failure the pin takes the drawn
value, the next state is not taken, and the send finishes with PIN_IO_ERR (R143, R146). -/
def pinWrite (inp : Input) (p : Pin) (v : Bool) (onOk : State → State) (t : State) : State :=
  if inp.pinFault then finish .pinIoErr .bitBanged (setPin p inp.draw t) else onOk (setPin p v t)

/-- Go to a state of the machine; the other transmitter registers keep their values. -/
def goTo (next : TxState) (t : State) : State := { t with tx := { t.tx with state := next } }

/-- `advance()`: the next bit of the byte, the next byte, or the end steps (R144). -/
def advance (t : State) : State :=
  if 0 < t.tx.b.val then
    { t with tx := { t.tx with b := ⟨t.tx.b.val - 1, Nat.lt_of_le_of_lt (Nat.sub_le _ _) t.tx.b.isLt⟩, state := .bbClkLo } }
  else if t.tx.j < t.cfg.frameBytes - 1 then
    { t with tx := { t.tx with j := t.tx.j + 1, b := 7, state := .bbClkLo } }
  else goTo .bbEndClk t

/-- After a step that a delay may follow: wait `tx.d` cycles in `wait` when `tx.d > 0`, else go on (R146). -/
def waitOr (wait : TxState) (goOn : State → State) (t : State) : State :=
  if 0 < t.tx.d then { t with tx := { t.tx with w := t.tx.d, state := wait } } else goOn t

/-- One cycle of a wait step: the last one goes on, any other counts down (R146). -/
def waitCycle (goOn : State → State) (t : State) : State :=
  if t.tx.w = 1 then goOn { t with tx := { t.tx with w := 0 } } else { t with tx := { t.tx with w := t.tx.w - 1 } }

/-- The byte under the transmitter's read port (R142), `MemRead(st.tx.j, 1)`. -/
def txByte (s : State) : Option Byte := frameByte s.cfg s.frame s.tx.j

/-- BB_CLK_LO (R146). -/
def edgeClkLo (s : State) : Edge :=
  .next (pinWrite s.input .clk false (goTo .bbDat) (background s))

/-- BB_DAT (R146). -/
def edgeDat (s : State) : Edge :=
  match txByte s with
  | none => .fault (.noSuchFrameByte s.tx.j)
  | some v =>
    .next (pinWrite s.input .dat (v.getLsbD s.tx.b.val) (waitOr .bbWait1 (goTo .bbClkHi)) (background s))

/-- BB_WAIT1 (R146). -/
def edgeWait1 (s : State) : Edge :=
  .next (waitCycle (goTo .bbClkHi) (background s))

/-- BB_CLK_HI (R146). -/
def edgeClkHi (s : State) : Edge :=
  .next (pinWrite s.input .clk true (waitOr .bbWait2 advance) (background s))

/-- BB_WAIT2 (R146). -/
def edgeWait2 (s : State) : Edge :=
  .next (waitCycle advance (background s))

/-- BB_END_CLK (R146, R147). -/
def edgeEndClk (s : State) : Edge :=
  .next (pinWrite s.input .clk true (goTo .bbEndDat) (background s))

/-- BB_END_DAT (R146, R147). -/
def edgeEndDat (s : State) : Edge :=
  .next (pinWrite s.input .dat true (finish .ok .bitBanged) (background s))

/-! ### The clocked-peripheral transfer (R151, R153) -/

/-- `per_valid`, combinational (R151). -/
def perValid (s : State) : Bool := decide (s.tx.state = .perXfer)

/-- `per_data`, combinational (R151): the byte offered, 0x00 when none is. -/
def perData (s : State) : Byte := if perValid s then (txByte s).getD 0x00 else 0x00

/-- The byte the peripheral takes at the edge that ends this cycle, if any: a handshake (R151). -/
def byteTaken (s : State) : Option Byte := if perValid s && s.input.perReady then some (perData s) else none

/-- PER_XFER (R153): a reported failure, then completion, then the timeout, then the next byte or a wait. -/
def edgePerXfer (s : State) : Edge :=
  match txByte s with
  | none => .fault (.noSuchFrameByte s.tx.j)
  | some _ =>
    let hs := s.input.perReady
    let t := background s
    .next (
      if hs && s.input.perErr then finish .perIoErr .clockedPeripheral t
      else if hs && decide (s.tx.j = s.cfg.frameBytes - 1) then finish .ok .clockedPeripheral t
      else if s.cfg.perTimeout ≤ s.tx.t + 1 then finish .perTimeout .clockedPeripheral t
      else { t with tx := { t.tx with j := if hs then s.tx.j + 1 else s.tx.j, t := s.tx.t + 1 } })

/-- One edge while the transmitter is in `tx.state` (R146, R153). An idle transmitter does nothing. -/
def txEdge (s : State) : Edge :=
  match s.tx.state with
  | .idle => .next (background s)
  | .bbClkLo => edgeClkLo s
  | .bbDat => edgeDat s
  | .bbWait1 => edgeWait1 s
  | .bbClkHi => edgeClkHi s
  | .bbWait2 => edgeWait2 s
  | .bbEndClk => edgeEndClk s
  | .bbEndDat => edgeEndDat s
  | .perXfer => edgePerXfer s

end Sys2Proof.Machine
end

