-- ==== Sys2Proof/Machine/Dispatch.lean ====
section
/-! DEFINITION. One arm per constructor of Instr: what the edge that accepts the command does (30_encoding.md R80 to
R82). -/

namespace Sys2Proof.Machine

def exec (i : Instr) (s : State) : Host.Outcome State Fault Refusal :=
  match i with
  | .nop => Sys2Proof.Machine.execNop s
  | .poll k => Sys2Proof.Machine.execPoll k s
  | .pixWrite n r g b br => Sys2Proof.Machine.execPixWrite n r g b br s
  | .rdWord w => Sys2Proof.Machine.execRdWord w s
  | .rdByte a => Sys2Proof.Machine.execRdByte a s
  | .sendBb dly => Sys2Proof.Machine.execSendBb dly s
  | .sendPer ign => Sys2Proof.Machine.execSendPer ign s
  | .rdStatus => Sys2Proof.Machine.execRdStatus s

end Sys2Proof.Machine
end

