-- ==== Sys2Proof/Machine/Cycle.lean ====
section
/-! DEFINITION. One clock edge of LIO (00_scope.md R7, R9): reset first, then the acceptance of a command, then the
transmitter (60_exceptions.md R190). -/

namespace Sys2Proof.Machine

/-- The command word on the port in this cycle (30_encoding.md R75). -/
def commandWord (s : State) : CmdWord := s.input.cmd

/-- The edge that accepts the command on the port: an illegal word raises ILLEGAL_CMD (30_encoding.md R78, R81), a legal
one does what its instruction does. -/
def commandEdge (s : State) : Edge :=
  match decode (commandWord s) with
  | .ok i => exec i s
  | .error _ => .next (raiseFatal .illegalCmd s)

/-- One edge: a reset cycle resets whatever else holds (70_reset_and_hazards.md R200); otherwise the command on the port
if it is accepted (30_encoding.md R80), or the transmitter's edge, which for an idle transmitter is the background
alone. In the fatal state no command is accepted and the transmitter is idle (60_exceptions.md R182). -/
def clockEdge (s : State) : Edge :=
  if s.input.rst then .next (resetEdge s)
  else if accepts s then commandEdge s
  else txEdge s

end Sys2Proof.Machine
end

