-- ==== Sys2Proof/Machine/Step.lean ====
section
/-! DEFINITION. The step of the machine, one rising edge of `clk`, and how a command is put on the port. -/

namespace Sys2Proof.Machine

/-- One step: one rising edge of `clk` (00_scope.md R7). -/
def step (s : State) : Host.Outcome State Fault Refusal := clockEdge s

/-- `s` with the command word `w` (its bits from `nbits` up zero) presented on the command port in this cycle, such that
this cycle accepts it: `rst = 0`, `cmd_valid = 1`, not fatal, transmitter idle (30_encoding.md R80). Where `s` lists
inputs for this cycle, its other ports keep their values; where it lists none, they are quiet. It stands for the host
issuing a command (log 6). -/
def State.withFetchWord (s : State) (nbits w : Nat) : State :=
  let port : Input := (s.inputs.head?).getD Input.quiet
  { s with
    inputs := { port with rst := false, cmdValid := true, cmd := BitVec.ofNat 64 (w % 2 ^ nbits) } :: s.inputs.tail
    tx     := if s.tx.state = .idle then s.tx else Transmitter.reset
    ftl    := { fatal := false, cause := none } }

end Sys2Proof.Machine
end

