-- ==== Sys2Proof/Machine/Assembler.lean ====
section
/-! DEFINITION. The assembler syntax (30_encoding.md R85): one command a line, the mnemonic, then operands between
commas, numbers in decimal or after `0x`, `;` starting a comment. What R85 leaves open (white space, the case of
hexadecimal digits) is DESIGN CHOICE, log 20. -/

namespace Sys2Proof.Machine

/-- Why a line is no command. -/
inductive AsmError where
  | unknownMnemonic
  | badNumber
  | operandCount
  /-- An operand does not fit its field: "an assembly error, not a command" (R85). -/
  | operandTooLarge
  deriving DecidableEq, Repr

/-- A space or a tab. -/
def isBlank (c : Char) : Bool := c == ' ' || c == '\t'

/-- The line up to its comment. -/
def stripComment : List Char → List Char
  | [] => []
  | c :: cs => if c == ';' then [] else c :: stripComment cs

/-- Without the blanks at both ends. -/
def trimBlanks (cs : List Char) : List Char :=
  ((cs.dropWhile isBlank).reverse.dropWhile isBlank).reverse

/-- The pieces between commas. -/
def splitCommas : List Char → List (List Char)
  | [] => [[]]
  | c :: cs =>
    if c == ',' then [] :: splitCommas cs
    else match splitCommas cs with
      | [] => [[c]]
      | p :: ps => (c :: p) :: ps

/-- The value of a digit in `base` 10 or 16. -/
def digitValue (base : Nat) (c : Char) : Option Nat :=
  let n := c.toNat
  let v :=
    if 48 ≤ n ∧ n ≤ 57 then some (n - 48)
    else if 97 ≤ n ∧ n ≤ 102 then some (n - 87)
    else if 65 ≤ n ∧ n ≤ 70 then some (n - 55)
    else none
  v.filter (fun d => decide (d < base))

/-- A digit string in `base`, after the value read so far. -/
def readDigits (base : Nat) : Nat → List Char → Option Nat
  | acc, [] => some acc
  | acc, c :: cs =>
    match digitValue base c with
    | some d => readDigits base (acc * base + d) cs
    | none => none

/-- A number: decimal, or hexadecimal after `0x` (R85). -/
def readNumber : List Char → Option Nat
  | [] => none
  | '0' :: 'x' :: c :: cs => readDigits 16 0 (c :: cs)
  | c :: cs => readDigits 10 0 (c :: cs)

/-- The operands after a mnemonic: none, or numbers between commas. -/
def readOperands (cs : List Char) : Option (List Nat) :=
  if trimBlanks cs = [] then some []
  else (splitCommas cs).mapM fun p => readNumber (trimBlanks p)

/-- The command of a mnemonic and its operands, in the order of R85; SEND_PER's operand defaults to 0. -/
def commandOf (mnemonic : List Char) (ops : List Nat) : Except AsmError Instr :=
  if mnemonic = ['N', 'O', 'P'] then
    match ops with
    | [] => .ok .nop
    | _ => .error .operandCount
  else if mnemonic = ['P', 'O', 'L', 'L'] then
    match ops with
    | [k] => .ok (.poll k)
    | _ => .error .operandCount
  else if mnemonic = ['P', 'I', 'X', '_', 'W', 'R', 'I', 'T', 'E'] then
    match ops with
    | [i, r, g, b, br] => .ok (.pixWrite i r g b br)
    | _ => .error .operandCount
  else if mnemonic = ['R', 'D', '_', 'W', 'O', 'R', 'D'] then
    match ops with
    | [w] => .ok (.rdWord w)
    | _ => .error .operandCount
  else if mnemonic = ['R', 'D', '_', 'B', 'Y', 'T', 'E'] then
    match ops with
    | [a] => .ok (.rdByte a)
    | _ => .error .operandCount
  else if mnemonic = ['S', 'E', 'N', 'D', '_', 'B', 'B'] then
    match ops with
    | [dly] => .ok (.sendBb dly)
    | _ => .error .operandCount
  else if mnemonic = ['S', 'E', 'N', 'D', '_', 'P', 'E', 'R'] then
    match ops with
    | [] => .ok (.sendPer 0)
    | [ign] => .ok (.sendPer ign)
    | _ => .error .operandCount
  else if mnemonic = ['R', 'D', '_', 'S', 'T', 'A', 'T', 'U', 'S'] then
    match ops with
    | [] => .ok .rdStatus
    | _ => .error .operandCount
  else .error .unknownMnemonic

/-- The command word of an instruction whose operands fit their fields (R85). -/
def assemble (i : Instr) : Except AsmError CmdWord :=
  if i.wf then .ok (encode i) else .error .operandTooLarge

/-- One line of assembler text: no command on a blank or comment line, a command word, or an assembly error (R85). -/
def assembleLine (line : List Char) : Except AsmError (Option CmdWord) :=
  let text := trimBlanks (stripComment line)
  if text = [] then .ok none
  else
    match readOperands (text.dropWhile fun c => !isBlank c) with
    | none => .error .badNumber
    | some ops =>
      match commandOf (text.takeWhile fun c => !isBlank c) ops with
      | .error e => .error e
      | .ok i =>
        match assemble i with
        | .error e => .error e
        | .ok word => .ok (some word)

end Sys2Proof.Machine
end

