-- ==== Sys2Proof/Machine/Pseudo.lean ====
section
/-! DEFINITION. The pseudo-commands (30_encoding.md R86): host-side sequences of commands, with the result the host reads
out of the response. They are no encodings and LIO does not know them. -/

namespace Sys2Proof.Machine

/-- What a host does at the ports. -/
inductive HostAction where
  /-- Present a command and wait for its response. -/
  | command (i : Instr)
  /-- Hold `rst` for one cycle (70_reset_and_hazards.md R200). -/
  | reset
  deriving DecidableEq, Repr

/-- The pseudo-commands (R86). -/
inductive Pseudo where
  | rising (k : Nat)
  | falling (k : Nat)
  | isHigh (k : Nat)
  | isLow (k : Nat)
  | rdPix (i : Nat)
  | fill (fc br : Nat)
  | send (v : Variant) (dly : Nat)
  | new
  deriving DecidableEq, Repr

/-- The host's pattern generator: pixel index, frame counter, global brightness (41_frame.md R127). It is outside LIO. -/
abbrev Generator := Nat → Nat → Nat → Pixel

/-- `fill_with`: one PIX_WRITE per active-window index, in increasing order (41_frame.md R127). -/
def fillCommands (n : Nat) (gen : Generator) (fc br : Nat) : List Instr :=
  (List.range n).map fun i =>
    .pixWrite i (gen i fc br).red (gen i fc br).green (gen i fc br).blue (gen i fc br).brightness

/-- The SEND of the selected variant (42_transmit.md R140). -/
def sendCommand : Variant → Nat → Instr
  | .bitBanged, dly => .sendBb dly
  | .clockedPeripheral, dly => .sendPer dly

/-- The expansion of each pseudo-command (R86), for a strip of length `n`. -/
def Pseudo.expand (n : Nat) (gen : Generator) : Pseudo → List HostAction
  | .rising k => [.command (.poll k)]
  | .falling k => [.command (.poll k)]
  | .isHigh k => [.command (.poll k)]
  | .isLow k => [.command (.poll k)]
  | .rdPix i => [.command (.rdWord (i + 1))]
  | .fill fc br => (fillCommands n gen fc br).map .command
  | .send v dly => [.command (sendCommand v dly)]
  | .new => [.reset]

/-- The result bit of the four debounce queries, from `rsp_data` (R86). -/
def Pseudo.level (data : Word) : Pseudo → Option Bool
  | .rising _ => some (data.getLsbD 2)
  | .falling _ => some (data.getLsbD 3)
  | .isHigh _ => some (data.getLsbD 0)
  | .isLow _ => some (!data.getLsbD 0)
  | .rdPix _ => none
  | .fill _ _ => none
  | .send _ _ => none
  | .new => none

/-- The pixel RD_PIX reads, from `rsp_data` (R86, 30_encoding.md R71). -/
def Pseudo.pixel (data : Word) : Pseudo → Option Pixel
  | .rdPix _ => some (decodePixel data)
  | .rising _ => none
  | .falling _ => none
  | .isHigh _ => none
  | .isLow _ => none
  | .fill _ _ => none
  | .send _ _ => none
  | .new => none

/-- One iteration of a host that keeps the source's order: debouncing, then frame generation, then one transmission
(43_system.md R174). -/
def hostIteration (polls : List Nat) (n : Nat) (gen : Generator) (fc br : Nat) (v : Variant) (dly : Nat) : List Instr :=
  polls.map .poll ++ fillCommands n gen fc br ++ [sendCommand v dly]

end Sys2Proof.Machine
end

