-- ==== Sys2Proof/Machine/Ports.lean ====
section
/-! DEFINITION. LIO's output ports (10_state.md R21) as functions of the state and the inputs of the cycle. -/

namespace Sys2Proof.Machine

/-- The values of the output ports in one cycle (10_state.md R21). -/
structure Output where
  cmdReady   : Bool
  rspValid   : Bool
  rspCode    : BitVec 3
  rspData    : Word
  ledClk     : Bool
  ledDat     : Bool
  perValid   : Bool
  perData    : Byte
  fatal      : Bool
  fatalCause : BitVec 2
  deriving DecidableEq, Repr

/-- Registered ports show the element they name; `cmd_ready`, `per_valid` and `per_data` are combinational
(R21, 30_encoding.md R80, 42_transmit.md R151). -/
def outputs (s : State) : Output where
  cmdReady   := cmdReady s
  rspValid   := s.rsp.valid
  rspCode    := s.rsp.code.bits
  rspData    := s.rsp.data
  ledClk     := s.pin.clk
  ledDat     := s.pin.dat
  perValid   := perValid s
  perData    := perData s
  fatal      := s.ftl.fatal
  fatalCause := causeCode s.ftl.cause

end Sys2Proof.Machine
end

