-- ==== Sys2Proof/Machine/Wire.lean ====
section
/-! DEFINITION. What goes over the wire: the frame's byte and bit sequences (30_encoding.md R73, R74), how a receiver
reads two lines (42_transmit.md R141), and the contract of the external peripheral (R160). -/

namespace Sys2Proof.Machine

/-- The bits of a byte, the most significant first (30_encoding.md R74). -/
def msbFirst (v : Byte) : List Bool :=
  [v.getLsbD 7, v.getLsbD 6, v.getLsbD 5, v.getLsbD 4, v.getLsbD 3, v.getLsbD 2, v.getLsbD 1, v.getLsbD 0]

/-- The byte view of the frame, in order (30_encoding.md R73). -/
def frameByteList (c : Config) (m : Memory) : List Byte :=
  (List.range c.frameBytes).filterMap (frameByte c m)

/-- The bit stream of the frame (30_encoding.md R74). -/
def frameBits (c : Config) (m : Memory) : List Bool :=
  (frameByteList c m).flatMap msbFirst

/-- The levels of a clock line and a data line in one cycle. -/
abbrev Lines := Bool × Bool

/-- What a receiver reads: the data line at each low-to-high transition of the clock line (42_transmit.md R141). -/
def risingSamples : List Lines → List Bool
  | l0 :: l1 :: rest => (if !l0.1 && l1.1 then [l1.2] else []) ++ risingSamples (l1 :: rest)
  | _ => []

/-- The cycle numbers of the rising edges, counted from `at`. -/
def risingCycles : Nat → List Lines → List Nat
  | n, l0 :: l1 :: rest => (if !l0.1 && l1.1 then [n + 1] else []) ++ risingCycles (n + 1) (l1 :: rest)
  | _, _ => []

/-- The data line shows a new value only in a cycle in which the clock line is low, so it is stable at each rising edge
(42_transmit.md R160 item 3). Whether it may change in the very cycle in which the clock falls is open; it may here
(DESIGN CHOICE, log 11: at the smallest PER_BIT_PERIOD, 2, no other cycle is left). -/
def dataStable : List Lines → Bool
  | l0 :: l1 :: rest => (l0.2 == l1.2 || !l1.1) && dataStable (l1 :: rest)
  | _ => true

/-- Consecutive bits of one byte are `period` cycles apart, and a byte's first bit at least `period` cycles after the bit
before it; `bit` is the position within its byte of the first listed edge. The reading of "fixed-rate" is
DESIGN CHOICE, log 11. -/
def fixedRate (period : Nat) : Nat → List Nat → Bool
  | bit, r0 :: r1 :: rest =>
    (if bit = 7 then decide (r0 + period ≤ r1) else decide (r0 + period = r1)) &&
      fixedRate period ((bit + 1) % 8) (r1 :: rest)
  | _, _ => true

/-- Item 6 of the contract, as far as the ports show it (42_transmit.md R160): `per_err` only in a handshake cycle.
Whether the peripheral "can take a byte" is its own matter (00_scope.md R4); what shows of it is that every byte it takes
goes out. -/
def perErrHonest (s : State) : Bool := !s.input.perErr || (perValid s && s.input.perReady)

/-- How many bits the peripheral has taken at the edges that end the cycles before cycle `c`; `taken` holds the byte of
each cycle that ends in a handshake. -/
def bitsTakenBefore (taken : List (Option Byte)) (c : Nat) : Nat := 8 * ((taken.take c).filterMap id).length

/-- How many rising edges the clock line has made in the cycles before cycle `c`. -/
def edgesBefore (lines : List Lines) (c : Nat) : Nat := (risingSamples (lines.take c)).length

/-- The peripheral has no bit to send in cycle `c`: every bit taken before it made its rising edge `period - 1` cycles ago
or more. A bit's period has at least one cycle with the clock low before the edge, so by then it is over (DESIGN CHOICE,
log 11). -/
def noBitToSend (period : Nat) (taken : List (Option Byte)) (lines : List Lines) (c : Nat) : Bool :=
  decide (bitsTakenBefore taken c ≤ edgesBefore lines (c + 2 - period))

/-- No bit makes its rising edge before the cycle after the one in which its byte was taken. -/
def edgesFollowBytes (taken : List (Option Byte)) (lines : List Lines) : Bool :=
  (List.range lines.length).all fun c => decide (edgesBefore lines (c + 1) ≤ bitsTakenBefore taken c)

/-- Both lines are high in every cycle in which the peripheral has no bit to send: before the first bit, in a gap between
two bytes, and after the last bit. -/
def idleLinesHigh (period : Nat) (taken : List (Option Byte)) (lines : List Lines) : Bool :=
  (List.range lines.length).all fun c => !noBitToSend period taken lines c || lines[c]? == some (true, true)

/-- The contract of the external peripheral (42_transmit.md R160). `run` are the states of consecutive cycles, and `lines`
what the peripheral drives from the first of them on, up to a cycle in which it has sent all it took; it takes nothing
after `run`. LIO does not check it. -/
structure PeripheralConforms (period : Nat) (run : List State) (lines : List Lines) : Prop where
  /-- Items 1 and 2: the bytes in the order taken, each most significant bit first, one rising edge per bit. -/
  bits     : risingSamples lines = (run.filterMap byteTaken).flatMap msbFirst
  /-- Item 1: what goes out has been taken. -/
  order    : edgesFollowBytes (run.map byteTaken) lines = true
  /-- Item 3. -/
  stable   : dataStable lines = true
  /-- Item 4. -/
  rate     : fixedRate period 0 (risingCycles 0 lines) = true
  /-- Item 5. -/
  idleHigh : idleLinesHigh period (run.map byteTaken) lines = true
  /-- Item 6. -/
  honest   : run.all perErrHonest = true
  /-- The last listed cycle has nothing left to send. -/
  drained  : lines ≠ [] ∧ noBitToSend period (run.map byteTaken) lines (lines.length - 1) = true

end Sys2Proof.Machine
end

