-- ==== Sys2Proof/Safety.lean ====
section
/-! DEFINITION. What a run shows (70_reset_and_hazards.md R223), when it is over, when it is a faulted run
(60_exceptions.md R182), and the invariant of the reachable states. -/

namespace Sys2Proof.Machine

/-! ### Runs (70_reset_and_hazards.md R223) -/

/-- The states of the next `k` cycles, each before the edge that ends the cycle; the list is shorter when a step
stops. -/
def cycles : Nat → State → List State
  | 0, _ => []
  | k + 1, s =>
    s :: (match step s with
          | .next t => cycles k t
          | .fault _ => []
          | .refused _ => [])

/-- The states of the next `k` cycles and the state after the last edge; the list is shorter when a step stops. -/
def trace : Nat → State → List State
  | 0, s => [s]
  | k + 1, s =>
    s :: (match step s with
          | .next t => trace k t
          | .fault _ => []
          | .refused _ => [])

/-- The responses of a run, in order: one for each cycle with `rsp_valid = 1`. -/
def responses (run : List State) : List (RspCode × Word) :=
  run.filterMap fun s => if s.rsp.valid then some (s.rsp.code, s.rsp.data) else none

/-- The values of (`led_clk`, `led_dat`), cycle by cycle. -/
def ledLines (run : List State) : List Lines := run.map fun s => (s.pin.clk, s.pin.dat)

/-- The bytes the peripheral takes, in order (42_transmit.md R151). -/
def takenBytes (run : List State) : List Byte := run.filterMap byteTaken

/-- How many commands a run accepts. -/
def acceptedCount (run : List State) : Nat := (run.filter accepts).length

/-- The block is in the fatal state: the run is a faulted run, never a good end (60_exceptions.md R182). -/
def faulted (s : State) : Bool := s.ftl.fatal

/-- The next `k` edges finish `commands` commands: every one accepted and answered, and the transmitter idle; or the
block is faulted (R223). -/
def runOver (commands k : Nat) (s : State) : Bool :=
  match (trace k s).getLast? with
  | none => false
  | some t =>
    faulted t ||
      (decide (acceptedCount (cycles k s) = commands) && decide ((responses ((trace k s).tail)).length = commands) &&
        decide (t.tx.state = .idle))

/-- The run of `commands` commands is over after exactly `k` edges: the first cycle in which it is (R223). -/
def runEnds (commands k : Nat) (s : State) : Bool :=
  runOver commands k s && (List.range k).all fun n => !runOver commands n s

/-! ### The invariant -/

/-- The ranges of the transmitter's registers in each state (10_state.md R30, 42_transmit.md R144, R146, R148, R153). -/
def TxRanges (c : Config) (tx : Transmitter) : Prop :=
  let bb := tx.j < c.frameBytes ∧ tx.d ≤ 65535 * c.cyclesPerUs ∧ tx.t = 0
  match tx.state with
  | .idle => tx = Transmitter.reset
  | .bbClkLo => bb ∧ tx.w = 0
  | .bbDat => bb ∧ tx.w = 0
  | .bbWait1 => bb ∧ 1 ≤ tx.w ∧ tx.w ≤ tx.d
  | .bbClkHi => bb ∧ tx.w = 0
  | .bbWait2 => bb ∧ 1 ≤ tx.w ∧ tx.w ≤ tx.d
  | .bbEndClk => bb ∧ tx.w = 0 ∧ tx.j = c.frameBytes - 1 ∧ tx.b = 0
  | .bbEndDat => bb ∧ tx.w = 0 ∧ tx.j = c.frameBytes - 1 ∧ tx.b = 0
  | .perXfer => tx.j < c.frameBytes ∧ tx.j ≤ tx.t ∧ tx.t < c.perTimeout ∧ tx.b = 7 ∧ tx.d = 0 ∧ tx.w = 0

/-- The bit under the transmitter's read port, `MemRead(st.tx.j, 1)[st.tx.b]` (42_transmit.md R142). -/
def txBit (s : State) : Option Bool := (txByte s).map fun v => v.getLsbD s.tx.b.val

/-- Where the two lines are while a bit-banged send is in progress (42_transmit.md R141, R147). -/
def WireLevels (s : State) : Prop :=
  match s.tx.state with
  | .idle => True
  | .bbClkLo => (s.tx.j = 0 ∧ s.tx.b = 7) ∨ s.pin.clk = true
  | .bbDat => s.pin.clk = false
  | .bbWait1 => s.pin.clk = false ∧ txBit s = some s.pin.dat
  | .bbClkHi => s.pin.clk = false ∧ txBit s = some s.pin.dat
  | .bbWait2 => s.pin.clk = true ∧ txBit s = some s.pin.dat
  | .bbEndClk => s.pin.clk = true ∧ s.pin.dat = true
  | .bbEndDat => s.pin.clk = true ∧ s.pin.dat = true
  | .perXfer => True

/-- Which variant a result can come from (10_state.md R32 to R34, 60_exceptions.md R187). -/
def variantFits (st : Status) : Bool :=
  match st.lastResult with
  | none => decide (st.lastVariant = .bitBanged)
  | some .ok => true
  | some .pinIoErr => decide (st.lastVariant = .bitBanged)
  | some .perIoErr => decide (st.lastVariant = .clockedPeripheral)
  | some .perTimeout => decide (st.lastVariant = .clockedPeripheral)

/-- The invariant of the states a run reaches. -/
structure LioInv (s : State) : Prop where
  /-- The parameters are in range (00_scope.md R5). -/
  config      : s.cfg.valid = true
  /-- There is one channel per input (10_state.md R22). -/
  channels    : s.deb.length = s.cfg.numInputs
  /-- The elapsed counters are saturated (10_state.md R25). -/
  elapsed     : ∀ k ch, s.deb[k]? = some ch → ch.elapsed ≤ settleOf s.cfg k + 1
  /-- The stored bytes are in canonical form. -/
  frameForm   : Memory.wf s.frame = true
  /-- Only active-window bytes are stored (41_frame.md R121, R122). -/
  frameWindow : ∀ cell ∈ s.frame, 4 ≤ cell.1 ∧ cell.1 < 4 * (s.cfg.n + 1)
  /-- Every active entry has the header bits 0b111 (42_transmit.md R162). -/
  header      : ∀ i v, i < s.cfg.n → frameWord s.cfg s.frame (i + 1) = some v → pixelHeader v = 7
  /-- The transmitter's registers are in range. -/
  txRanges    : TxRanges s.cfg s.tx
  /-- The lines are where the machine's state says. -/
  wire        : WireLevels s
  /-- `ftl.fatal` and `ftl.cause` agree, and the transmitter is idle in the fatal state (60_exceptions.md R181, R182). -/
  fatalCause  : s.ftl.fatal = s.ftl.cause.isSome
  fatalIdle   : s.ftl.fatal = true → s.tx.state = .idle
  /-- The response registers hold the FATAL response exactly in the fatal state (60_exceptions.md R181, R182). -/
  fatalRsp    : s.ftl.fatal = true → s.rsp.data = (causeCode s.ftl.cause).zeroExtend 32
  fatalCode   : s.rsp.code = .fatal ↔ s.ftl.fatal = true
  /-- `stat.strip_undef` is 0 only after a send that completed OK (10_state.md R33). -/
  stripUndef  : s.stat.stripUndef = decide (s.stat.lastResult ≠ some .ok)
  /-- The variant fits the result. -/
  variant     : variantFits s.stat = true
  /-- No response is visible while a send is in progress (30_encoding.md R82). -/
  quietSend   : s.tx.state ≠ .idle → s.rsp.valid = false

end Sys2Proof.Machine
end

