-- ==== Sys2Proof/Certificates/Slice0/Obligations.lean ====
section
/-! DEFINITION. The statements about LIO, from the numbered rules of spec/. First the vocabulary they are written in,
which spells effects out field by field and calls no meaning of an instruction; then the statements. -/

namespace Sys2Proof.Claims

open Sys2Proof.Machine

/-! ### Vocabulary -/

/-- Channel `k` of `t` is channel `k` of `s` after an edge that accepts no change on it (40_debounce.md R101, R103). -/
def ChannelRan (s t : State) (k : Nat) : Prop :=
  ∀ ch cc, s.deb[k]? = some ch → s.cfg.channels[k]? = some cc →
    t.deb[k]? = some {
      stable := ch.stable
      sync1 := s.input.rawIn.getLsbD k
      sync2 := ch.sync1
      elapsed := min (ch.elapsed + s.input.tick.toNat) (cc.settle + 1) }

/-- Every channel ran its background, and no channel came or went. -/
def ChannelsRan (s t : State) : Prop :=
  t.deb.length = s.deb.length ∧ ∀ k, ChannelRan s t k

/-- Every byte of the byte view reads in `t` as it does in `s`. -/
def SameBytes (s t : State) : Prop :=
  ∀ a, frameByte t.cfg t.frame a = frameByte s.cfg s.frame a

/-- The frame of an edge that writes the response registers only: everything else is as it was or ran its background. -/
structure OnlyResponds (s t : State) : Prop where
  cfg      : t.cfg = s.cfg
  bytes    : SameBytes s t
  tx       : t.tx = s.tx
  pin      : t.pin = s.pin
  stat     : t.stat = s.stat
  ftl      : t.ftl = s.ftl
  channels : ChannelsRan s t

/-- The cause codes (60_exceptions.md R181). -/
def causeNumber : FatalCause → Nat
  | .illegalCmd => 1
  | .brightnessRange => 2
  | .indexRange => 3

/-- The edge `s` to `t` enters the fatal state for `cause` and does nothing else (60_exceptions.md R182). -/
structure FatalTaken (cause : FatalCause) (s t : State) : Prop where
  cfg      : t.cfg = s.cfg
  bytes    : SameBytes s t
  tx       : t.tx = s.tx
  pin      : t.pin = s.pin
  stat     : t.stat = s.stat
  ftl      : t.ftl = { fatal := true, cause := some cause }
  rsp      : t.rsp = { valid := true, code := .fatal, data := BitVec.ofNat 32 (causeNumber cause) }
  channels : ChannelsRan s t

/-- Every word with opcode `op` whose other fields are `ok` stands for the instruction `means` (30_encoding.md R75 to
R79). -/
def WordMeans (op : Nat) (ok : CmdWord → Prop) (means : CmdWord → Instr) : Prop :=
  ∀ c : CmdWord, c.op.toNat = op → ok c → decode c = .ok (means c)

/-- The word is illegal: a reserved opcode, or a bit that must be 0 (30_encoding.md R78). -/
def IllegalWord (c : CmdWord) : Prop :=
  8 ≤ c.op.toNat ∨ c.rsv ≠ 0 ∨
    (c.op.toNat ≠ 1 ∧ c.sel ≠ 0) ∨
    (c.op.toNat ∉ [2, 3, 4] ∧ c.idx ≠ 0) ∨
    (c.op.toNat ∈ [0, 1, 3, 4, 7] ∧ c.data ≠ 0) ∨
    (c.op.toNat ∈ [5, 6] ∧ c.data.extractLsb' 16 16 ≠ 0)

/-- A PIX_WRITE word whose brightness is 32 or more (30_encoding.md R79, R81). -/
def BrightnessTooHigh (c : CmdWord) : Prop := c.op.toNat = 2 ∧ 32 ≤ (c.data.extractLsb' 24 8).toNat

/-- A word whose index is outside its space (30_encoding.md R79, 60_exceptions.md R180). -/
def IndexTooHigh (cfg : Config) (c : CmdWord) : Prop :=
  (c.op.toNat = 1 ∧ cfg.numInputs ≤ c.sel.toNat) ∨ (c.op.toNat = 2 ∧ cfg.n ≤ c.idx.toNat) ∨
    (c.op.toNat = 3 ∧ cfg.n + 2 ≤ c.idx.toNat) ∨ (c.op.toNat = 4 ∧ 4 * (cfg.n + 2) ≤ c.idx.toNat)

/-- A word on the port that is accepted, has opcode `op` and is `bad` raises ILLEGAL_CMD (30_encoding.md R78). -/
def IllegalRaises (op : Nat) (bad : CmdWord → Prop) : Prop :=
  ∀ s, accepts s = true → s.input.cmd.op.toNat = op → bad s.input.cmd →
    ∃ t, step s = .next t ∧ FatalTaken .illegalCmd s t

/-- Only spaces and tabs (log 20). -/
def Blanks (cs : List Char) : Prop := ∀ c ∈ cs, c = ' ' ∨ c = '\t'

/-- The character `c` is the digit `d` in `base`; a letter may be of either case (log 20). -/
def IsDigit (base : Nat) (c : Char) (d : Nat) : Prop :=
  d < base ∧ (c = Nat.digitChar d ∨ c = (Nat.digitChar d).toUpper)

/-- `cs` writes the number `n`, in decimal or with the `0x` prefix, the first digit the highest (30_encoding.md R85). -/
def Numeral (cs : List Char) (n : Nat) : Prop :=
  ∃ (base : Nat) (chars : List Char) (digits : List Nat),
    (base = 10 ∧ cs = chars ∨ base = 16 ∧ cs = '0' :: 'x' :: chars) ∧
    digits ≠ [] ∧ List.Forall₂ (IsDigit base) chars digits ∧ n = digits.foldl (fun v d => v * base + d) 0

/-- `cs` writes the operand `n`, with blanks around it or none (log 20). -/
def OperandText (cs : List Char) (n : Nat) : Prop :=
  ∃ before numeral after, cs = before ++ numeral ++ after ∧ Blanks before ∧ Blanks after ∧ Numeral numeral n

/-- `line` is one command: the mnemonic, then the operands with commas between them, then nothing or a comment that `;`
starts (30_encoding.md R85). Where blanks may stand is log 20. -/
def CommandLine (line mnemonic : List Char) (operands : List Nat) : Prop :=
  ∃ (lead gap comment : List Char) (pieces : List (List Char)),
    line = lead ++ mnemonic ++ gap ++ List.intercalate [','] pieces ++ comment ∧
    Blanks lead ∧ Blanks gap ∧ (operands ≠ [] → gap ≠ []) ∧ List.Forall₂ OperandText pieces operands ∧
    (comment = [] ∨ ∃ text, comment = ';' :: text)

/-- The mnemonic and the operands, in their order, that stand for each instruction; SEND_PER's operand defaults to 0
(30_encoding.md R85). -/
def WrittenAs (mnemonic : List Char) (operands : List Nat) : Instr → Prop
  | .nop => mnemonic = "NOP".toList ∧ operands = []
  | .poll k => mnemonic = "POLL".toList ∧ operands = [k]
  | .pixWrite i r g b br => mnemonic = "PIX_WRITE".toList ∧ operands = [i, r, g, b, br]
  | .rdWord w => mnemonic = "RD_WORD".toList ∧ operands = [w]
  | .rdByte a => mnemonic = "RD_BYTE".toList ∧ operands = [a]
  | .sendBb dly => mnemonic = "SEND_BB".toList ∧ operands = [dly]
  | .sendPer ign => mnemonic = "SEND_PER".toList ∧ (operands = [ign] ∨ operands = [] ∧ ign = 0)
  | .rdStatus => mnemonic = "RD_STATUS".toList ∧ operands = []

/-- Every operand fits its field (30_encoding.md R85). -/
def Fits : Instr → Prop
  | .nop => True
  | .poll k => k ≤ 15
  | .pixWrite i r g b br => i < 2 ^ 20 ∧ r ≤ 255 ∧ g ≤ 255 ∧ b ≤ 255 ∧ br ≤ 255
  | .rdWord w => w < 2 ^ 20
  | .rdByte a => a < 2 ^ 20
  | .sendBb dly => dly ≤ 65535
  | .sendPer ign => ign ≤ 65535
  | .rdStatus => True

/-- The POLL response data `{28'b0, fall, rise, changed, level}` as a number (40_debounce.md R104). -/
def pollData (changed level : Bool) : Word :=
  BitVec.ofNat 32
    (level.toNat + 2 * changed.toNat + 4 * (changed && level).toNat + 8 * (changed && !level).toNat)

/-- The edge that ends this cycle accepts a change on channel `k` (40_debounce.md R104 step 2). -/
def AcceptsChange (s : State) (k : Nat) : Prop :=
  accepts s = true ∧ decode s.input.cmd = .ok (.poll k) ∧
    ∃ ch cc, s.deb[k]? = some ch ∧ s.cfg.channels[k]? = some cc ∧ cc.settle < ch.elapsed ∧ ch.sync2 ≠ ch.stable

/-- None of the next `m` cycles is a reset cycle. -/
def NoReset (m : Nat) (s : State) : Prop := ∀ v ∈ cycles m s, v.input.rst = false

/-- How many of the next `m` cycles are tick cycles. -/
def ticks (m : Nat) (s : State) : Nat := ((cycles m s).filter fun v => v.input.tick).length

/-- The state lists inputs for the next `m` cycles, and each of them satisfies `P`. -/
def InputsAre (m : Nat) (P : Input → Prop) (s : State) : Prop :=
  m ≤ s.inputs.length ∧ ∀ i ∈ s.inputs.take m, P i

/-- How many of the next `m` listed input records have `per_ready = 1`. -/
def readyCount (m : Nat) (s : State) : Nat := ((s.inputs.take m).filter fun i => i.perReady).length

/-- The host presents these commands back to back from this cycle on, with no reset. -/
def Presents (cmds : List Instr) (s : State) : Prop :=
  ∀ (q : Nat) (i : Instr), cmds[q]? = some i →
    ∃ inp : Input, s.inputs[q]? = some inp ∧ inp.rst = false ∧ inp.cmdValid = true ∧ inp.cmd = encode i

/-- No edge of the next `m` cycles is a reset or accepts a PIX_WRITE to active-window index `i`. -/
def NoWriteTo (i m : Nat) (s : State) : Prop :=
  ∀ v ∈ cycles m s, v.input.rst = false ∧
    ∀ r g b br, ¬ (accepts v = true ∧ decode v.input.cmd = .ok (.pixWrite i r g b br))

/-- The transmitter is in a state whose edge writes a pin, with the pin and the level it is to take (42_transmit.md R143,
R146). -/
def PinStep (s : State) (p : Pin) (v : Bool) : Prop :=
  match s.tx.state with
  | .idle => False
  | .bbClkLo => p = .clk ∧ v = false
  | .bbDat => p = .dat ∧ txBit s = some v
  | .bbWait1 => False
  | .bbClkHi => p = .clk ∧ v = true
  | .bbWait2 => False
  | .bbEndClk => p = .clk ∧ v = true
  | .bbEndDat => p = .dat ∧ v = true
  | .perXfer => False

/-- The pins with `p` at level `v` and the other pin as it was. -/
def pinsWith (pins : Pins) (p : Pin) (v : Bool) : Pins :=
  match p with
  | .clk => { clk := v, dat := pins.dat }
  | .dat => { clk := pins.clk, dat := v }

/-- A send has completed with `r` as variant `v` at the edge into `t` (42_transmit.md R148). -/
structure Finished (r : SendResult) (v : Variant) (t : State) : Prop where
  tx   : t.tx = { state := .idle, j := 0, b := 7, d := 0, w := 0, t := 0 }
  stat : t.stat = { lastResult := some r, stripUndef := decide (r ≠ .ok), lastVariant := v }
  rsp  : t.rsp.valid = true ∧ t.rsp.data = 0 ∧
           t.rsp.code = (match r with
             | .ok => .ok
             | .pinIoErr => .pinIoErr
             | .perIoErr => .perIoErr
             | .perTimeout => .perTimeout)

/-- The levels of the two lines, cycle by cycle, while `bits` are sent with a delay of `d` cycles, from the cycle in which
the lines are at `l` to the cycle of the response: per bit, clock low for d + 2 cycles, the data changing after the first
of them, and clock high for d + 1; then the two end steps (42_transmit.md R146, R150). -/
def sendWave (d : Nat) : Lines → List Bool → List Lines
  | l, [] => [l, (true, l.2), (true, true)]
  | l, v :: bits =>
    l :: (false, l.2) :: (List.replicate (d + 1) (false, v) ++ (List.replicate d (true, v) ++ sendWave d (true, v) bits))

/-- The cycles a bit-banged send with delay `d` takes, `32(N+2)(3+2d) + 2` (42_transmit.md R150). -/
def sendLength (c : Config) (d : Nat) : Nat := 32 * (c.n + 2) * (3 + 2 * d) + 2

end Sys2Proof.Claims

open Sys2Proof Sys2Proof.Machine Sys2Proof.Claims

/-! ### Encoding (30_encoding.md) -/

/-- Decoding the encoding of a well-formed instruction gives it back, whatever its operands. -/
def Obligations.DecodeOfEncode : Prop :=
  ∀ i : Instr, i.wf = true → decode (encode i) = .ok i

/-- A word that decodes is the encoding of the well-formed instruction it decodes to: no bit of it is dropped. -/
def Obligations.EncodeOfDecode : Prop :=
  ∀ (c : CmdWord) (i : Instr), decode c = .ok i → i.wf = true ∧ encode i = c

/-- The decoder agrees with the opcode table: a word decodes exactly when it is of one row, the rows never overlap on it,
and the instruction is the row's. -/
def Obligations.DecoderAgreesWithOpcodeTable : Prop :=
  ∀ c : CmdWord,
    (∀ i, decode c = .ok i →
      ∃ row ∈ opcodeTable, row.covers c = true ∧ row.mnemonic = i.mnemonic ∧
        ∀ other ∈ opcodeTable, other.covers c = true → other = row) ∧
    (∀ e, decode c = .error e → ∀ row ∈ opcodeTable, row.covers c = false)

/-- Words written out from the spec's field layout decode to the instructions they stand for, one per command. -/
def Obligations.SampleWordsDecode : Prop :=
  decode 0x0000000000000000#64 = .ok .nop ∧
  decode 0x1300000000000000#64 = .ok (.poll 3) ∧
  decode 0x200000000AFF0080#64 = .ok (.pixWrite 0 255 0 128 10) ∧
  decode 0x3000001000000000#64 = .ok (.rdWord 1) ∧
  decode 0x400000F000000000#64 = .ok (.rdByte 15) ∧
  decode 0x5000000000000001#64 = .ok (.sendBb 1) ∧
  decode 0x600000000000FFFF#64 = .ok (.sendPer 65535) ∧
  decode 0x7000000000000000#64 = .ok .rdStatus

/-- Decoding reads red, green, blue, brightness and the header off the entry's bits 15 to 8, 23 to 16, 31 to 24, 4 to 0
and 7 to 5; building a pixel and reading it back gives its parts, and the header bits are 0b111 (R71). -/
def Obligations.PixelReadsBack : Prop :=
  (∀ v : Word,
    decodePixel v = {
      red := v.toNat / 2 ^ 8 % 2 ^ 8, green := v.toNat / 2 ^ 16 % 2 ^ 8, blue := v.toNat / 2 ^ 24 % 2 ^ 8,
      brightness := v.toNat % 2 ^ 5 } ∧
    (pixelHeader v).toNat = v.toNat / 2 ^ 5 % 2 ^ 3) ∧
  (∀ r g b br : Nat, r < 256 → g < 256 → b < 256 → br < 32 →
    decodePixel (encodePixel r g b br) = { red := r, green := g, blue := b, brightness := br } ∧
    pixelHeader (encodePixel r g b br) = 0b111)

/-- Every accepted illegal word (a reserved opcode, or a must-be-0 bit set) raises ILLEGAL_CMD and does nothing else
(R78). -/
def Obligations.IllegalWordsRaiseIllegalCmd : Prop :=
  ∀ s, accepts s = true → IllegalWord s.input.cmd →
    ∃ t, step s = .next t ∧ FatalTaken .illegalCmd s t

/-- The checks at acceptance (R81) and their priority (60_exceptions.md R183): legality, then brightness, then the index;
the first that fails is the cause reported, and a word that passes them all performs its instruction. -/
def Obligations.ChecksFollowTheirOrder : Prop :=
  ∀ s, accepts s = true →
    (IllegalWord s.input.cmd → ∃ t, step s = .next t ∧ FatalTaken .illegalCmd s t) ∧
    (¬ IllegalWord s.input.cmd → BrightnessTooHigh s.input.cmd →
      ∃ t, step s = .next t ∧ FatalTaken .brightnessRange s t) ∧
    (¬ IllegalWord s.input.cmd → ¬ BrightnessTooHigh s.input.cmd → IndexTooHigh s.cfg s.input.cmd →
      ∃ t, step s = .next t ∧ FatalTaken .indexRange s t) ∧
    (¬ IllegalWord s.input.cmd → ¬ BrightnessTooHigh s.input.cmd → ¬ IndexTooHigh s.cfg s.input.cmd →
      ∃ i, decode s.input.cmd = .ok i ∧ step s = exec i s ∧
        (s.deb.length = s.cfg.numInputs → ∃ t, step s = .next t ∧ t.ftl = s.ftl))

/-- The assembler (R85): a line that writes an instruction, its mnemonic, its operands in their order, assembles to the
encoding of exactly that instruction, or is an assembly error where an operand does not fit its field; and no other line
assembles to a command. The word of such a line decodes to the instruction it writes. Where blanks may stand and the case
of hexadecimal digits are the model's choice (log 20). -/
def Obligations.AssembledLinesAreCommands : Prop :=
  (∀ (line mnemonic : List Char) (operands : List Nat) (i : Instr),
    CommandLine line mnemonic operands → WrittenAs mnemonic operands i →
    (Fits i → assembleLine line = .ok (some (encode i))) ∧
    (¬ Fits i → assembleLine line = .error .operandTooLarge)) ∧
  (∀ (line : List Char) (c : CmdWord), assembleLine line = .ok (some c) →
    ∃ (mnemonic : List Char) (operands : List Nat) (i : Instr),
      CommandLine line mnemonic operands ∧ WrittenAs mnemonic operands i ∧ Fits i ∧ i.wf = true ∧ c = encode i ∧
      decode c = .ok i)

/-! ### System commands (43_system.md) -/

/-- NOP (R170): it always completes with OK, 0, and changes no state but the response registers; with any other bit set
the word is illegal. -/
def Obligations.NopOnlyResponds : Prop :=
  WordMeans 0 (fun c => c.sel = 0 ∧ c.idx = 0 ∧ c.rsv = 0 ∧ c.data = 0) (fun _ => .nop) ∧
  (∀ s, ∃ t, exec .nop s = .next t ∧ t.rsp = { valid := true, code := .ok, data := 0 } ∧ OnlyResponds s t) ∧
  IllegalRaises 0 (fun c => c.sel ≠ 0 ∨ c.idx ≠ 0 ∨ c.rsv ≠ 0 ∨ c.data ≠ 0)

/-- RD_STATUS (R171): it always completes with the STATUS register, field by field (10_state.md R35), which reading does
not clear; right after reset it is 0x0000000F; it is never accepted during a send; with any other bit set the word is
illegal. -/
def Obligations.RdStatusReadsStatus : Prop :=
  WordMeans 7 (fun c => c.sel = 0 ∧ c.idx = 0 ∧ c.rsv = 0 ∧ c.data = 0) (fun _ => .rdStatus) ∧
  (∀ s, ∃ t, exec .rdStatus s = .next t ∧ t.rsp.valid = true ∧ t.rsp.code = .ok ∧
    (t.rsp.data.extractLsb' 0 3).toNat = (match s.stat.lastResult with
      | some .ok => 0
      | some .pinIoErr => 1
      | some .perIoErr => 2
      | some .perTimeout => 3
      | none => 7) ∧
    t.rsp.data.getLsbD 3 = s.stat.stripUndef ∧
    t.rsp.data.getLsbD 4 = decide (s.stat.lastVariant = .clockedPeripheral) ∧
    (∀ n, 5 ≤ n → t.rsp.data.getLsbD n = false) ∧
    OnlyResponds s t) ∧
  (∀ s r t, s.input.rst = true → step s = .next r → exec .rdStatus r = .next t → t.rsp.data = 0x0000000F) ∧
  (∀ s, s.tx.state ≠ .idle → accepts s = false) ∧
  IllegalRaises 7 (fun c => c.sel ≠ 0 ∨ c.idx ≠ 0 ∨ c.rsv ≠ 0 ∨ c.data ≠ 0)

/-! ### Debounce (40_debounce.md) -/

/-- POLL k (R104): suppressed in lockout, else an accepted change or an unchanged level, with the four result bits; every
other channel only runs, and nothing else changes; k >= NUM_INPUTS raises INDEX_RANGE; a must-be-0 bit makes the word
illegal. -/
def Obligations.PollUpdatesOneChannel : Prop :=
  WordMeans 1 (fun c => c.idx = 0 ∧ c.rsv = 0 ∧ c.data = 0) (fun c => .poll c.sel.toNat) ∧
  (∀ s k ch cc, s.deb[k]? = some ch → s.cfg.channels[k]? = some cc →
    ∃ t after changed level,
      exec (.poll k) s = .next t ∧
      t.rsp = { valid := true, code := .ok, data := pollData changed level } ∧
      t.deb[k]? = some after ∧
      after.stable = level ∧ after.sync1 = s.input.rawIn.getLsbD k ∧ after.sync2 = ch.sync1 ∧
      (ch.elapsed ≤ cc.settle → changed = false ∧ level = ch.stable) ∧
      (cc.settle < ch.elapsed → ch.sync2 ≠ ch.stable → changed = true ∧ level = ch.sync2) ∧
      (cc.settle < ch.elapsed → ch.sync2 = ch.stable → changed = false ∧ level = ch.stable) ∧
      after.elapsed =
        (if changed then s.input.tick.toNat else min (ch.elapsed + s.input.tick.toNat) (cc.settle + 1)) ∧
      t.deb.length = s.deb.length ∧ (∀ q, q ≠ k → ChannelRan s t q) ∧
      t.cfg = s.cfg ∧ SameBytes s t ∧ t.tx = s.tx ∧ t.pin = s.pin ∧ t.stat = s.stat ∧ t.ftl = s.ftl) ∧
  (∀ s k, s.cfg.numInputs ≤ k → ∃ t, exec (.poll k) s = .next t ∧ FatalTaken .indexRange s t) ∧
  IllegalRaises 1 (fun c => c.idx ≠ 0 ∨ c.rsv ≠ 0 ∨ c.data ≠ 0)

/-- The synchronizer (R101): at every edge that is not a reset, whatever command is in progress and in the fatal state too,
`sync1` takes the raw line and `sync2` takes `sync1`; so `sync2` is the raw level of two cycles before. -/
def Obligations.SynchronizerDelaysTwoCycles : Prop :=
  (∀ s t k ch, s.input.rst = false → step s = .next t → s.deb[k]? = some ch →
    ∃ ch', t.deb[k]? = some ch' ∧ ch'.sync1 = s.input.rawIn.getLsbD k ∧ ch'.sync2 = ch.sync1) ∧
  (∀ s t u k ch, s.input.rst = false → t.input.rst = false → step s = .next t → step t = .next u →
    s.deb[k]? = some ch →
    ∃ ch'', u.deb[k]? = some ch'' ∧ ch''.sync2 = s.input.rawIn.getLsbD k)

/-- At every edge that is not a reset and does not accept a POLL of channel k, whatever else it does, the channel only
runs its background; so its stable level is as it was, and a POLL of another channel does not touch it (R111). -/
def Obligations.ChannelMovesOnlyByItsOwnPoll : Prop :=
  ∀ s t k, s.input.rst = false → step s = .next t →
    ¬ (accepts s = true ∧ decode s.input.cmd = .ok (.poll k)) → ChannelRan s t k

/-- Over any run without a reset and without an accepted change on channel k, the elapsed counter counts the tick cycles,
saturating at SETTLE[k] + 1, and the stable level stays (R103). -/
def Obligations.ElapsedCountsTicks : Prop :=
  ∀ (m : Nat) (s t : State) (k : Nat) (ch : Channel) (cc : ChannelConfig), Sys2Proof.core.run m s = .next t → NoReset m s →
    (∀ v ∈ cycles m s, ¬ AcceptsChange v k) →
    s.deb[k]? = some ch → s.cfg.channels[k]? = some cc → ch.elapsed ≤ cc.settle + 1 →
    ∃ ch', t.deb[k]? = some ch' ∧ ch'.stable = ch.stable ∧
      ch'.elapsed = min (ch.elapsed + ticks m s) (cc.settle + 1)

/-- The lockout window (R105): while no more than SETTLE[k] ticks have been counted, no edge moves the stable level,
whatever the commands and the raw line. -/
def Obligations.SettleWindowHoldsStableLevel : Prop :=
  ∀ (m : Nat) (s t : State) (k : Nat) (ch : Channel) (cc : ChannelConfig), Sys2Proof.core.run (m + 1) s = .next t → NoReset (m + 1) s →
    s.deb[k]? = some ch → s.cfg.channels[k]? = some cc → ch.elapsed + ticks m s ≤ cc.settle →
    ∃ ch', t.deb[k]? = some ch' ∧ ch'.stable = ch.stable

/-- Two accepted changes of one channel are at least SETTLE[k] + 1 tick cycles apart, the first of them included
(R105). -/
def Obligations.AcceptedChangesAreSettleApart : Prop :=
  ∀ (m : Nat) (s t : State) (k : Nat) (cc : ChannelConfig), AcceptsChange s k → NoReset (m + 1) s → Sys2Proof.core.run (m + 1) s = .next t →
    AcceptsChange t k → s.cfg.channels[k]? = some cc → cc.settle + 1 ≤ ticks (m + 1) s

/-- The four debounce queries (30_encoding.md R86, 40_debounce.md R104): RISING and FALLING are true exactly when this
POLL accepts a change to high or to low, IS_HIGH and IS_LOW tell the stable level after the update. -/
def Obligations.DebounceQueriesReadThePoll : Prop :=
  ∀ (s t : State) (k : Nat) (ch after : Channel) (cc : ChannelConfig), s.deb[k]? = some ch →
    s.cfg.channels[k]? = some cc → exec (.poll k) s = .next t → t.deb[k]? = some after →
    Pseudo.level t.rsp.data (.rising k) =
      some (decide (cc.settle < ch.elapsed ∧ ch.stable = false ∧ ch.sync2 = true)) ∧
    Pseudo.level t.rsp.data (.falling k) =
      some (decide (cc.settle < ch.elapsed ∧ ch.stable = true ∧ ch.sync2 = false)) ∧
    Pseudo.level t.rsp.data (.isHigh k) = some after.stable ∧
    Pseudo.level t.rsp.data (.isLow k) = some (!after.stable)

/-- The raw lines reach nothing but the first flops (10_state.md R24): two steps that differ only in `raw_in` differ only
in `sync1`. -/
def Obligations.RawLinesReachOnlyTheFirstFlop : Prop :=
  ∀ (s t : State) (inp : Input) (rest : List Input) (raw : BitVec 16), s.inputs = inp :: rest → step s = .next t →
    ∃ t', step { s with inputs := { inp with rawIn := raw } :: rest } = .next t' ∧
      { t' with deb := t.deb } = t ∧ t'.deb.length = t.deb.length ∧
      ∀ (k : Nat) (ch ch' : Channel), t.deb[k]? = some ch → t'.deb[k]? = some ch' →
        { ch' with sync1 := ch.sync1 } = ch

/-! ### The frame (41_frame.md, 20_memory.md) -/

/-- PIX_WRITE (R121): in range, the whole entry i + 1 becomes the encoded pixel, visible at once, with OK, 0, and every
other entry and register is as it was; a
brightness of 32 or more raises BRIGHTNESS_RANGE whatever the index, an index of N or more INDEX_RANGE, with the frame
unchanged; a must-be-0 bit makes the word illegal. -/
def Obligations.PixWriteStoresThePixel : Prop :=
  WordMeans 2 (fun c => c.sel = 0 ∧ c.rsv = 0) (fun c =>
    .pixWrite c.idx.toNat (c.data.extractLsb' 16 8).toNat (c.data.extractLsb' 8 8).toNat (c.data.extractLsb' 0 8).toNat
      (c.data.extractLsb' 24 8).toNat) ∧
  (∀ s i r g b br, Memory.wf s.frame = true → r < 256 → g < 256 → b < 256 → br < 32 → i < s.cfg.n →
    ∃ t v, exec (.pixWrite i r g b br) s = .next t ∧
      t.rsp = { valid := true, code := .ok, data := 0 } ∧
      frameWord t.cfg t.frame (i + 1) = some v ∧
      v.toNat = 0xE0 + br + r * 2 ^ 8 + g * 2 ^ 16 + b * 2 ^ 24 ∧
      (∀ w, w ≠ i + 1 → frameWord t.cfg t.frame w = frameWord s.cfg s.frame w) ∧
      t.cfg = s.cfg ∧ t.tx = s.tx ∧ t.pin = s.pin ∧ t.stat = s.stat ∧ t.ftl = s.ftl ∧ ChannelsRan s t) ∧
  (∀ s i r g b br, 32 ≤ br → ∃ t, exec (.pixWrite i r g b br) s = .next t ∧ FatalTaken .brightnessRange s t) ∧
  (∀ s i r g b br, br < 32 → s.cfg.n ≤ i →
    ∃ t, exec (.pixWrite i r g b br) s = .next t ∧ FatalTaken .indexRange s t) ∧
  IllegalRaises 2 (fun c => c.sel ≠ 0 ∨ c.rsv ≠ 0)

/-- The frame of PIX_WRITE: whatever its operands and the state, every byte outside the four at the address the meaning
stores to reads as before, and nothing but the response registers and the fatal state changes beside. -/
def Obligations.PixWriteTouchesOneEntry : Prop :=
  ∀ s t i r g b br, exec (.pixWrite i r g b br) s = .next t →
    (∀ a a', activeAddress i = a → a' < a ∨ a + 4 ≤ a' →
      frameByte t.cfg t.frame a' = frameByte s.cfg s.frame a') ∧
    t.cfg = s.cfg ∧ t.tx = s.tx ∧ t.pin = s.pin ∧ t.stat = s.stat ∧ ChannelsRan s t ∧
    (br < 32 → i < s.cfg.n → t.ftl = s.ftl)

/-- RD_WORD (R123): in range, it completes with the little-endian assembly of the entry's four bytes, entry 0 reading
0x00000000 and entry N + 1 reading 0xFFFFFFFF, and writes only the response registers; right after reset the entries 1 to
N read 0xFFFFFFFF; an index of N + 2 or more raises INDEX_RANGE; a must-be-0 bit makes the word illegal. -/
def Obligations.RdWordReadsAnEntry : Prop :=
  WordMeans 3 (fun c => c.sel = 0 ∧ c.rsv = 0 ∧ c.data = 0) (fun c => .rdWord c.idx.toNat) ∧
  (∀ s w, w < s.cfg.n + 2 →
    ∃ t v, exec (.rdWord w) s = .next t ∧ t.rsp = { valid := true, code := .ok, data := v } ∧
      (∀ q, q < 4 → frameByte s.cfg s.frame (4 * w + q) = some (v.extractLsb' (8 * q) 8)) ∧
      (w = 0 → v = 0x00000000) ∧ (w = s.cfg.n + 1 → v = 0xFFFFFFFF) ∧ OnlyResponds s t) ∧
  (∀ s r t w, s.input.rst = true → step s = .next r → 1 ≤ w → w ≤ s.cfg.n → exec (.rdWord w) r = .next t →
    t.rsp.data = 0xFFFFFFFF) ∧
  (∀ s w, s.cfg.n + 2 ≤ w → ∃ t, exec (.rdWord w) s = .next t ∧ FatalTaken .indexRange s t) ∧
  IllegalRaises 3 (fun c => c.sel ≠ 0 ∨ c.rsv ≠ 0 ∨ c.data ≠ 0)

/-- RD_BYTE (R124): in range, it completes with the byte zero-extended, bytes 0 to 3 reading 0x00 and the last four
0xFF, and writes only the response registers; after a PIX_WRITE the four bytes of its entry are intensity, red, green and
blue; an index of 4(N + 2) or more raises INDEX_RANGE; a must-be-0 bit makes the word illegal. -/
def Obligations.RdByteReadsAByte : Prop :=
  WordMeans 4 (fun c => c.sel = 0 ∧ c.rsv = 0 ∧ c.data = 0) (fun c => .rdByte c.idx.toNat) ∧
  (∀ s a, a < 4 * (s.cfg.n + 2) →
    ∃ t v, exec (.rdByte a) s = .next t ∧ frameByte s.cfg s.frame a = some v ∧
      t.rsp.valid = true ∧ t.rsp.code = .ok ∧ t.rsp.data.toNat = v.toNat ∧
      (a < 4 → v = 0x00) ∧ (4 * (s.cfg.n + 1) ≤ a → v = 0xFF) ∧ OnlyResponds s t) ∧
  (∀ s t u i q r g b br, Memory.wf s.frame = true → r < 256 → g < 256 → b < 256 → br < 32 → i < s.cfg.n → q < 4 →
    exec (.pixWrite i r g b br) s = .next t → exec (.rdByte (4 * (i + 1) + q)) t = .next u →
    u.rsp.data.toNat = (if q = 0 then 0xE0 + br else if q = 1 then r else if q = 2 then g else b)) ∧
  (∀ s a, 4 * (s.cfg.n + 2) ≤ a → ∃ t, exec (.rdByte a) s = .next t ∧ FatalTaken .indexRange s t) ∧
  IllegalRaises 4 (fun c => c.sel ≠ 0 ∨ c.rsv ≠ 0 ∨ c.data ≠ 0)

/-- The views agree (R125): RD_WORD w answers the four RD_BYTE answers of its bytes, the first in the lowest place; and
the transmitter sends the same bytes: the byte offered to the peripheral, and the byte whose bit the data step drives, are
what RD_BYTE answers there. -/
def Obligations.WordViewAgreesWithByteView : Prop :=
  (∀ s w, w < s.cfg.n + 2 →
    ∃ t t0 t1 t2 t3, exec (.rdWord w) s = .next t ∧
      exec (.rdByte (4 * w)) s = .next t0 ∧ exec (.rdByte (4 * w + 1)) s = .next t1 ∧
      exec (.rdByte (4 * w + 2)) s = .next t2 ∧ exec (.rdByte (4 * w + 3)) s = .next t3 ∧
      t.rsp.data.toNat =
        t0.rsp.data.toNat + 2 ^ 8 * t1.rsp.data.toNat + 2 ^ 16 * t2.rsp.data.toNat + 2 ^ 24 * t3.rsp.data.toNat) ∧
  (∀ s t, s.tx.j < 4 * (s.cfg.n + 2) → exec (.rdByte s.tx.j) s = .next t →
    (s.tx.state = .perXfer → (outputs s).perData.toNat = t.rsp.data.toNat) ∧
    (s.tx.state = .bbDat → s.input.rst = false → s.input.pinFault = false →
      ∃ u, step s = .next u ∧ u.pin = { clk := s.pin.clk, dat := t.rsp.data.getLsbD s.tx.b.val }))

/-- A read returns the most recent write to its entry (20_memory.md R60, R65): after a PIX_WRITE, and any number of edges
that neither reset nor write the same index, RD_WORD answers the pixel. -/
def Obligations.ReadReturnsMostRecentWrite : Prop :=
  ∀ (s t u : State) (m i r g b br : Nat), Memory.wf s.frame = true → br < 32 → i < s.cfg.n →
    exec (.pixWrite i r g b br) s = .next t → Sys2Proof.core.run m t = .next u → NoWriteTo i m t →
    ∃ v, exec (.rdWord (i + 1)) u = .next v ∧ v.rsp.code = .ok ∧ v.rsp.data = encodePixel r g b br

/-- Nothing but an accepted PIX_WRITE in range, or a reset, writes the frame: at every other edge every byte reads as
before (20_memory.md R61, 41_frame.md R126). -/
def Obligations.OnlyPixWriteWritesTheFrame : Prop :=
  ∀ s t, step s = .next t → s.input.rst = false →
    (∀ i r g b br, accepts s = true → decode s.input.cmd = .ok (.pixWrite i r g b br) →
      ¬ (br < 32 ∧ i < s.cfg.n)) →
    t.frame = s.frame ∧ SameBytes s t

/-- The FILL pseudo-command (41_frame.md R127): N PIX_WRITEs presented back to back from a ready block leave every
active entry at its generated pixel. -/
def Obligations.FillWritesEveryActiveEntry : Prop :=
  ∀ (s : State) (gen : Generator) (fc br : Nat), LioInv s → cmdReady s = true →
    (∀ i, i < s.cfg.n → (gen i fc br).red < 256 ∧ (gen i fc br).green < 256 ∧ (gen i fc br).blue < 256 ∧
      (gen i fc br).brightness < 32) →
    Presents (fillCommands s.cfg.n gen fc br) s →
    ∃ t : State, Sys2Proof.core.run s.cfg.n s = .next t ∧ t.ftl.fatal = false ∧ t.tx = s.tx ∧ t.cfg = s.cfg ∧
      ∀ i, i < s.cfg.n → ∃ v, frameWord t.cfg t.frame (i + 1) = some v ∧ decodePixel v = gen i fc br

/-! ### The transmitter (42_transmit.md) -/

/-- SEND_BB's acceptance edge: it always completes, latching the delay in cycles and setting the cursor to the first bit;
no pin changes and no response. -/
def Obligations.SendBbStartsAtTheFirstBit : Prop :=
  WordMeans 5 (fun c => c.sel = 0 ∧ c.idx = 0 ∧ c.rsv = 0 ∧ c.data.extractLsb' 16 16 = 0)
    (fun c => .sendBb (c.data.extractLsb' 0 16).toNat) ∧
  (∀ s dly, ∃ t, exec (.sendBb dly) s = .next t ∧
    t.tx = { state := .bbClkLo, j := 0, b := 7, d := dly * s.cfg.cyclesPerUs, w := 0, t := s.tx.t } ∧
    t.rsp = { valid := false, code := s.rsp.code, data := s.rsp.data } ∧
    t.cfg = s.cfg ∧ SameBytes s t ∧ t.pin = s.pin ∧ t.stat = s.stat ∧ t.ftl = s.ftl ∧ ChannelsRan s t) ∧
  IllegalRaises 5 (fun c => c.sel ≠ 0 ∨ c.idx ≠ 0 ∨ c.rsv ≠ 0 ∨ c.data.extractLsb' 16 16 ≠ 0)

/-- SEND_PER's acceptance edge: it always completes, whatever its operand, setting the byte cursor and the cycle count to
0; no pin changes and no response. -/
def Obligations.SendPerStartsAtTheFirstByte : Prop :=
  WordMeans 6 (fun c => c.sel = 0 ∧ c.idx = 0 ∧ c.rsv = 0 ∧ c.data.extractLsb' 16 16 = 0)
    (fun c => .sendPer (c.data.extractLsb' 0 16).toNat) ∧
  (∀ s ign, ∃ t, exec (.sendPer ign) s = .next t ∧
    t.tx = { state := .perXfer, j := 0, b := s.tx.b, d := s.tx.d, w := s.tx.w, t := 0 } ∧
    t.rsp = { valid := false, code := s.rsp.code, data := s.rsp.data } ∧
    t.cfg = s.cfg ∧ SameBytes s t ∧ t.pin = s.pin ∧ t.stat = s.stat ∧ t.ftl = s.ftl ∧ ChannelsRan s t) ∧
  IllegalRaises 6 (fun c => c.sel ≠ 0 ∨ c.idx ≠ 0 ∨ c.rsv ≠ 0 ∨ c.data.extractLsb' 16 16 ≠ 0)

/-- The pin-write step (R143): the pin takes the level when the platform reports no fault, and the drawn level, any level,
when it does; the other pin keeps its value; and in every cycle that is not a pin-write cycle the fault report and the
draw change nothing. -/
def Obligations.PinWriteStepDrivesOnePin : Prop :=
  (∀ s p v, s.input.rst = false → PinStep s p v →
    ∃ t, step s = .next t ∧ t.pin = pinsWith s.pin p (if s.input.pinFault then s.input.draw else v)) ∧
  (∀ s inp rest fault drawn, s.inputs = inp :: rest → (∀ p v, ¬ PinStep s p v) →
    step { s with inputs := { inp with pinFault := fault, draw := drawn } :: rest } = step s)

/-- The cursor (R144): after the clock-high step of a bit and its wait, the next bit of the byte, else the first bit of
the next byte, else the end steps; the byte cursor never wraps. -/
def Obligations.CursorWalksTheFrame : Prop :=
  ∀ s, s.input.rst = false →
    (s.tx.state = .bbClkHi ∧ s.tx.d = 0 ∧ s.input.pinFault = false) ∨ (s.tx.state = .bbWait2 ∧ s.tx.w = 1) →
    ∃ t, step s = .next t ∧ s.tx.j ≤ t.tx.j ∧
      (0 < s.tx.b.val → t.tx.b.val = s.tx.b.val - 1 ∧ t.tx.j = s.tx.j ∧ t.tx.state = .bbClkLo) ∧
      (s.tx.b = 0 → s.tx.j < 4 * (s.cfg.n + 2) - 1 →
        t.tx.j = s.tx.j + 1 ∧ t.tx.b = 7 ∧ t.tx.state = .bbClkLo) ∧
      (s.tx.b = 0 → 4 * (s.cfg.n + 2) - 1 ≤ s.tx.j →
        t.tx.j = s.tx.j ∧ t.tx.b = 0 ∧ t.tx.state = .bbEndClk)

/-- The bit-banged machine, state by state (R146): what each step writes and which state follows when the pin write
succeeds, the end of the send when it fails, and that a wait lasts `tx.w` cycles. -/
def Obligations.BitBangedMachineFollowsItsTable : Prop :=
  (∀ s, s.input.rst = false → s.tx.state = .bbClkLo → s.input.pinFault = false →
    ∃ t, step s = .next t ∧ t.pin = { clk := false, dat := s.pin.dat } ∧ t.tx = { s.tx with state := .bbDat }) ∧
  (∀ s v, s.input.rst = false → s.tx.state = .bbDat → s.input.pinFault = false →
    frameByte s.cfg s.frame s.tx.j = some v →
    ∃ t, step s = .next t ∧ t.pin = { clk := s.pin.clk, dat := v.getLsbD s.tx.b.val } ∧
      (0 < s.tx.d → t.tx = { s.tx with state := .bbWait1, w := s.tx.d }) ∧
      (s.tx.d = 0 → t.tx = { s.tx with state := .bbClkHi })) ∧
  (∀ s, s.input.rst = false → s.tx.state = .bbClkHi → s.input.pinFault = false →
    ∃ t, step s = .next t ∧ t.pin = { clk := true, dat := s.pin.dat } ∧
      (0 < s.tx.d → t.tx = { s.tx with state := .bbWait2, w := s.tx.d })) ∧
  (∀ s, s.input.rst = false → s.tx.state = .bbWait1 ∨ s.tx.state = .bbWait2 → 1 < s.tx.w →
    ∃ t, step s = .next t ∧ t.pin = s.pin ∧ t.tx = { s.tx with w := s.tx.w - 1 }) ∧
  (∀ s, s.input.rst = false → s.tx.state = .bbWait1 → s.tx.w = 1 →
    ∃ t, step s = .next t ∧ t.pin = s.pin ∧ t.tx = { s.tx with state := .bbClkHi, w := 0 }) ∧
  (∀ s, s.input.rst = false → s.tx.state = .bbWait2 → s.tx.w = 1 →
    ∃ t, step s = .next t ∧ t.pin = s.pin ∧ t.tx.w = 0) ∧
  (∀ s, s.input.rst = false → s.tx.state = .bbEndClk → s.input.pinFault = false →
    ∃ t, step s = .next t ∧ t.pin = { clk := true, dat := s.pin.dat } ∧ t.tx = { s.tx with state := .bbEndDat }) ∧
  (∀ s, s.input.rst = false → s.tx.state = .bbEndDat → s.input.pinFault = false →
    ∃ t, step s = .next t ∧ t.pin = { clk := s.pin.clk, dat := true } ∧ Finished .ok .bitBanged t) ∧
  (∀ s p v, s.input.rst = false → PinStep s p v → s.input.pinFault = true →
    ∃ t, step s = .next t ∧ t.pin = pinsWith s.pin p s.input.draw ∧ Finished .pinIoErr .bitBanged t)

/-- A wait step lasts exactly `tx.w` cycles, `tx.d` when it starts (R146): it stays for one cycle less than that and is
left at the next. -/
def Obligations.WaitLastsTheDelay : Prop :=
  ∀ (m : Nat) (s : State), s.tx.state = .bbWait1 ∨ s.tx.state = .bbWait2 → 1 ≤ s.tx.w → NoReset s.tx.w s → m < s.tx.w →
    (∃ t : State, Sys2Proof.core.run m s = .next t ∧ t.tx = { s.tx with w := s.tx.w - m } ∧ t.pin = s.pin) ∧
    (∃ t : State, Sys2Proof.core.run s.tx.w s = .next t ∧ t.tx.state ≠ s.tx.state ∧ t.pin = s.pin)

/-- Completion (R148): a send leaves the transmitter's busy states only by `finish`, with the result's status and
response, the variant of the send that ran, and the port ready from the next cycle on unless in reset. -/
def Obligations.SendsCompleteOnlyThroughFinish : Prop :=
  ∀ s t, LioInv s → step s = .next t → s.input.rst = false → s.tx.state ≠ .idle → t.tx.state = .idle →
    ∃ r, Finished r (if s.tx.state = .perXfer then .clockedPeripheral else .bitBanged) t ∧
      (s.tx.state = .perXfer ∨ r = .ok ∨ r = .pinIoErr) ∧ (s.tx.state ≠ .perXfer ∨ r ≠ .pinIoErr) ∧
      cmdReady t = !t.input.rst

/-- SEND_PER's rule of each cycle (R153): in this order, a failed handshake, the last byte taken, the budget used up, and
else the cursor moves on a handshake and the cycle count grows; in a cycle that is no handshake, with `per_ready` low or
outside PER_XFER (R151), `per_err` changes nothing. -/
def Obligations.PeripheralTransferFollowsItsRule : Prop :=
  (∀ s, s.input.rst = false → s.tx.state = .perXfer → s.tx.j < 4 * (s.cfg.n + 2) →
    ∃ t, step s = .next t ∧
      (s.input.perReady = true → s.input.perErr = true → Finished .perIoErr .clockedPeripheral t) ∧
      (s.input.perReady = true → s.input.perErr = false → s.tx.j = 4 * (s.cfg.n + 2) - 1 →
        Finished .ok .clockedPeripheral t) ∧
      (¬ (s.input.perReady = true ∧ (s.input.perErr = true ∨ s.tx.j = 4 * (s.cfg.n + 2) - 1)) →
        s.cfg.perTimeout ≤ s.tx.t + 1 → Finished .perTimeout .clockedPeripheral t) ∧
      (¬ (s.input.perReady = true ∧ (s.input.perErr = true ∨ s.tx.j = 4 * (s.cfg.n + 2) - 1)) →
        s.tx.t + 1 < s.cfg.perTimeout →
        t.tx = { s.tx with j := s.tx.j + s.input.perReady.toNat, t := s.tx.t + 1 } ∧ t.stat = s.stat ∧
          t.rsp.valid = false) ∧
      t.pin = s.pin ∧ SameBytes s t) ∧
  (∀ s inp rest err, s.inputs = inp :: rest → inp.perReady = false ∨ perValid s = false →
    step { s with inputs := { inp with perErr := err } :: rest } = step s)

/-- The waveform of a successful SEND_BB, cycle by cycle (R150): the lines of every cycle from the one after the
acceptance to the one of the response, which comes after exactly `32(N+2)(3+2D) + 2` cycles, with the frame as it was and
the status of a successful bit-banged send. -/
def Obligations.SendBbDrivesTheWaveform : Prop :=
  ∀ (s : State) (dly : Nat) (u : State), LioInv s → cmdReady s = true → dly < 65536 → exec (.sendBb dly) s = .next u →
    InputsAre (sendLength s.cfg (dly * s.cfg.cyclesPerUs)) (fun i => i.rst = false ∧ i.pinFault = false) u →
    ∃ t : State, Sys2Proof.core.run (sendLength s.cfg (dly * s.cfg.cyclesPerUs)) u = .next t ∧
      ledLines (trace (sendLength s.cfg (dly * s.cfg.cyclesPerUs)) u) =
        sendWave (dly * s.cfg.cyclesPerUs) (s.pin.clk, s.pin.dat) (frameBits s.cfg s.frame) ∧
      Finished .ok .bitBanged t ∧ t.pin = { clk := true, dat := true } ∧ SameBytes s t ∧ t.ftl = s.ftl ∧
      cmdReady t = !t.input.rst

/-- What a receiver reads of a successful SEND_BB (R141, R161): exactly one rising clock edge per bit, carrying the bit
stream of the frame, 32(N+2) bits, whatever levels the lines had before and whatever the delay. -/
def Obligations.SendBbCarriesTheFrameBits : Prop :=
  ∀ (s : State) (dly : Nat) (u : State), LioInv s → cmdReady s = true → dly < 65536 → exec (.sendBb dly) s = .next u →
    InputsAre (sendLength s.cfg (dly * s.cfg.cyclesPerUs)) (fun i => i.rst = false ∧ i.pinFault = false) u →
    risingSamples (ledLines (trace (sendLength s.cfg (dly * s.cfg.cyclesPerUs)) u)) = frameBits s.cfg s.frame ∧
    (frameBits s.cfg s.frame).length = 32 * (s.cfg.n + 2)

/-- A SEND_PER whose handshakes do not fail and whose last byte is taken in its m-th cycle, within PER_TIMEOUT, completes
OK there having handed over exactly the byte view in order, however the peripheral stalls, and leaves the pins alone
(R153, R157, R161). -/
def Obligations.SendPerHandsOverTheFrame : Prop :=
  ∀ (s : State) (ign : Nat) (u : State) (m : Nat), LioInv s → cmdReady s = true → exec (.sendPer ign) s = .next u →
    InputsAre m (fun i => i.rst = false ∧ (i.perReady = true → i.perErr = false)) u →
    1 ≤ m → m ≤ s.cfg.perTimeout → readyCount m u = 4 * (s.cfg.n + 2) →
    readyCount (m - 1) u = 4 * (s.cfg.n + 2) - 1 →
    ∃ t : State, Sys2Proof.core.run m u = .next t ∧ takenBytes (trace m u) = frameByteList s.cfg s.frame ∧
      Finished .ok .clockedPeripheral t ∧ t.pin = s.pin ∧ SameBytes s t

/-- A SEND_PER whose peripheral does not take the frame in PER_TIMEOUT cycles, and reports no failure, completes with
PER_TIMEOUT after exactly that many, having handed over only a beginning of the byte view (R154). -/
def Obligations.SendPerTimesOut : Prop :=
  ∀ (s : State) (ign : Nat) (u : State), LioInv s → cmdReady s = true → exec (.sendPer ign) s = .next u →
    InputsAre s.cfg.perTimeout (fun i => i.rst = false ∧ (i.perReady = true → i.perErr = false)) u →
    readyCount s.cfg.perTimeout u < 4 * (s.cfg.n + 2) →
    ∃ t : State, Sys2Proof.core.run s.cfg.perTimeout u = .next t ∧ Finished .perTimeout .clockedPeripheral t ∧
      takenBytes (trace s.cfg.perTimeout u) = (frameByteList s.cfg s.frame).take (readyCount s.cfg.perTimeout u)

/-- Every send ends (70_reset_and_hazards.md R223): with no reset, the transmitter is idle again within the length of a
bit-banged send or within PER_TIMEOUT cycles, whatever the pins and the peripheral do. -/
def Obligations.EverySendEnds : Prop :=
  ∀ s, LioInv s → s.tx.state ≠ .idle →
    NoReset (if s.tx.state = .perXfer then s.cfg.perTimeout else sendLength s.cfg s.tx.d) s →
    ∃ (m : Nat) (t : State), 1 ≤ m ∧ m ≤ (if s.tx.state = .perXfer then s.cfg.perTimeout else sendLength s.cfg s.tx.d) ∧
      Sys2Proof.core.run m s = .next t ∧ t.tx.state = .idle ∧ t.rsp.valid = true

/-- What a send does not do (R162): at every edge of a send that is no reset, no command is accepted, and the frame, the
parameters and the fatal state keep their values while the channels only run. -/
def Obligations.SendLeavesTheRestAlone : Prop :=
  ∀ s t, step s = .next t → s.input.rst = false → s.tx.state ≠ .idle →
    accepts s = false ∧ cmdReady s = false ∧ SameBytes s t ∧ t.frame = s.frame ∧ t.cfg = s.cfg ∧ t.ftl = s.ftl ∧
      ChannelsRan s t

/-- The two variants carry the same payload (R161): what a receiver reads of a successful SEND_BB is what a conforming
peripheral's lines carry for a successful SEND_PER from the same state. -/
def Obligations.VariantsCarryTheSamePayload : Prop :=
  ∀ (s u v : State) (dly ign m : Nat) (other : List Input) (lines : List Lines),
    LioInv s → cmdReady s = true → dly < 65536 →
    exec (.sendBb dly) s = .next u →
    InputsAre (sendLength s.cfg (dly * s.cfg.cyclesPerUs)) (fun i => i.rst = false ∧ i.pinFault = false) u →
    exec (.sendPer ign) { s with inputs := other } = .next v →
    InputsAre m (fun i => i.rst = false ∧ (i.perReady = true → i.perErr = false)) v →
    1 ≤ m → m ≤ s.cfg.perTimeout → readyCount m v = 4 * (s.cfg.n + 2) →
    readyCount (m - 1) v = 4 * (s.cfg.n + 2) - 1 →
    PeripheralConforms s.cfg.perBitPeriod (trace m v) lines →
    risingSamples lines =
      risingSamples (ledLines (trace (sendLength s.cfg (dly * s.cfg.cyclesPerUs)) u))

/-- The data line changes only while the clock is low, at every edge that is no reset and whose pin write does not fail
(R141). -/
def Obligations.DataChangesOnlyWhileClockLow : Prop :=
  ∀ s t, LioInv s → step s = .next t → s.input.rst = false → s.input.pinFault = false → t.pin.dat ≠ s.pin.dat →
    s.pin.clk = false ∧ t.pin.clk = false

/-- The pins move only at the pin-write steps of a bit-banged send and at a reset (10_state.md R31). -/
def Obligations.PinsMoveOnlyInPinWriteSteps : Prop :=
  ∀ s t, step s = .next t → t.pin ≠ s.pin → s.input.rst = true ∨ ∃ p v, PinStep s p v

/-- The send status changes only where a send completes, and at a reset (10_state.md R32). -/
def Obligations.StatusMovesOnlyAtCompletion : Prop :=
  ∀ s t, step s = .next t → t.stat ≠ s.stat →
    s.input.rst = true ∨ (s.tx.state ≠ .idle ∧ t.tx.state = .idle ∧ t.rsp.valid = true)

/-! ### The command port (30_encoding.md R80 to R82) -/

/-- A step runs the decoded command: when the port accepts a word that decodes, the step is the instruction's meaning at
that state, with nothing added; and with a word that does not decode it enters the fatal state. -/
def Obligations.StepRunsTheAcceptedCommand : Prop :=
  (∀ s i, s.input.rst = false → s.ftl.fatal = false → s.tx.state = .idle → s.input.cmdValid = true →
    decode s.input.cmd = .ok i → step s = exec i s) ∧
  (∀ s e, s.input.rst = false → s.ftl.fatal = false → s.tx.state = .idle → s.input.cmdValid = true →
    decode s.input.cmd = .error e → ∃ t, step s = .next t ∧ FatalTaken .illegalCmd s t)

/-- Presenting the encoding of a well-formed instruction makes the very next step run it. -/
def Obligations.PresentedCommandRunsNext : Prop :=
  ∀ (s : State) (i : Instr), i.wf = true →
    step (s.withFetchWord 64 (encode i).toNat) = exec i (s.withFetchWord 64 (encode i).toNat) ∧
    decodeTableWord 64 (encode i).toNat = some i

/-- A command that is not accepted has no effect (R80): while the port is not ready, what the host presents changes
nothing. -/
def Obligations.UnacceptedCommandHasNoEffect : Prop :=
  ∀ s inp rest valid word, s.inputs = inp :: rest → cmdReady s = false →
    step { s with inputs := { inp with cmdValid := valid, cmd := word } :: rest } = step s

/-- One response per command (R82): a one-cycle command responds at its acceptance edge and leaves the port ready; an
accepted SEND does not respond yet and makes the port busy; a busy transmitter responds exactly when it goes idle; an idle
cycle without a command responds nothing; and without a response the code and data hold (10_state.md R37). -/
def Obligations.OneResponsePerCommand : Prop :=
  ∀ s t, LioInv s → step s = .next t → s.input.rst = false →
    (accepts s = true →
      (∀ dly, decode s.input.cmd ≠ .ok (.sendBb dly)) → (∀ ign, decode s.input.cmd ≠ .ok (.sendPer ign)) →
      t.rsp.valid = true ∧ t.tx.state = .idle) ∧
    (accepts s = true →
      (∃ dly, decode s.input.cmd = .ok (.sendBb dly)) ∨ (∃ ign, decode s.input.cmd = .ok (.sendPer ign)) →
      t.rsp.valid = false ∧ t.tx.state ≠ .idle) ∧
    (s.tx.state ≠ .idle → (t.rsp.valid = true ↔ t.tx.state = .idle)) ∧
    (accepts s = false → s.tx.state = .idle → t.rsp.valid = false ∧ t.tx.state = .idle) ∧
    (t.rsp.valid = false → t.rsp.code = s.rsp.code ∧ t.rsp.data = s.rsp.data)

/-! ### Fatal and reset (60_exceptions.md, 70_reset_and_hazards.md) -/

/-- Fatal entry and the fatal state (60_exceptions.md R182): the only edges into it are acceptance edges that do exactly
the three writes, visible at the ports from the next cycle on, and make the run a faulted one; in it, every edge that is
no reset accepts nothing, keeps the frame, the stable levels, the status, the pins, the transmitter and the cause, responds
nothing, and lets the channels run. -/
def Obligations.FatalStateIsEnteredWholeAndHeld : Prop :=
  (∀ s t, step s = .next t → s.ftl.fatal = false → t.ftl.fatal = true →
    accepts s = true ∧ faulted t = true ∧ ∃ cause, FatalTaken cause s t ∧ cmdReady t = false ∧
      (outputs t).fatal = true ∧ (outputs t).fatalCause.toNat = causeNumber cause) ∧
  (∀ s t, LioInv s → s.ftl.fatal = true → s.input.rst = false → step s = .next t →
    accepts s = false ∧ cmdReady s = false ∧ t.ftl = s.ftl ∧ SameBytes s t ∧ t.stat = s.stat ∧ t.pin = s.pin ∧
      t.tx = s.tx ∧ t.tx.state = .idle ∧ t.rsp.valid = false ∧ ChannelsRan s t)

/-- Only a reset leaves the fatal state (60_exceptions.md R185): over any run without one, the fatal state and its first
cause stay, and the port is never ready. -/
def Obligations.FatalStaysUntilReset : Prop :=
  ∀ (m : Nat) (s t : State), LioInv s → s.ftl.fatal = true → NoReset m s → Sys2Proof.core.run m s = .next t →
    t.ftl = s.ftl ∧ cmdReady t = false

/-- The cause codes at the ports (60_exceptions.md R181): 0 when not fatal, 1, 2 or 3 otherwise, and the response of the
faulting command carries code 7 and the cause as its data. -/
def Obligations.FatalCauseIsShownAtThePorts : Prop :=
  (∀ s, LioInv s → ((outputs s).fatal = false ↔ (outputs s).fatalCause = 0)) ∧
  (∀ s t, step s = .next t → s.ftl.fatal = false → t.ftl.fatal = true →
    (outputs t).fatal = true ∧ (outputs t).rspValid = true ∧ (outputs t).rspCode = 7 ∧
    (outputs t).rspData = (outputs t).fatalCause.zeroExtend 32 ∧
    ((t.ftl.cause = some .illegalCmd ∧ (outputs t).fatalCause = 1) ∨
     (t.ftl.cause = some .brightnessRange ∧ (outputs t).fatalCause = 2) ∨
     (t.ftl.cause = some .indexRange ∧ (outputs t).fatalCause = 3)))

/-- Reset (70_reset_and_hazards.md R200): in a reset cycle the port is not ready, and the edge puts every element at its
reset value whatever the other inputs are; and it is the only way out of the fatal state. -/
def Obligations.ResetInstallsEveryValue : Prop :=
  (∀ s, s.input.rst = true →
    cmdReady s = false ∧
    ∃ t, step s = .next t ∧ t.cfg = s.cfg ∧
      t.deb.length = s.cfg.numInputs ∧
      (∀ (k : Nat) (cc : ChannelConfig), s.cfg.channels[k]? = some cc →
        t.deb[k]? =
          some { stable := cc.initLevel, sync1 := cc.initLevel, sync2 := cc.initLevel, elapsed := 0 }) ∧
      frameWord t.cfg t.frame 0 = some 0x00000000 ∧
      (∀ w, 1 ≤ w → w ≤ s.cfg.n → frameWord t.cfg t.frame w = some 0xFFFFFFFF) ∧
      frameWord t.cfg t.frame (s.cfg.n + 1) = some 0xFFFFFFFF ∧
      t.tx = { state := .idle, j := 0, b := 7, d := 0, w := 0, t := 0 } ∧
      t.pin = { clk := true, dat := true } ∧
      t.stat = { lastResult := none, stripUndef := true, lastVariant := .bitBanged } ∧
      t.ftl = { fatal := false, cause := none } ∧
      t.rsp = { valid := false, code := .ok, data := 0 }) ∧
  (∀ s t, step s = .next t → s.ftl.fatal = true → t.ftl.fatal = false → s.input.rst = true)

/-! ### The invariant -/

/-- The reset state of every valid configuration satisfies the invariant; `State.reset` is one of them. -/
def Obligations.ResetStateSatisfiesInv : Prop :=
  (∀ c : Config, c.valid = true → LioInv (State.resetOf c)) ∧ LioInv State.reset

/-- Every step keeps the invariant: the ranges of every register, the canonical frame with its header bits, the lines'
levels during a send, and the agreement of the fatal, status and response registers. -/
def Obligations.StepKeepsInv : Prop :=
  ∀ s t, LioInv s → step s = .next t → LioInv t

/-- From a state that satisfies the invariant LIO never stops: every step answers a next state, so the model's faults and
its refusal are never reached. -/
def Obligations.StepAlwaysAnswersNext : Prop :=
  ∀ s, LioInv s → ∃ t, step s = .next t

/-- No step changes the parameters (10_state.md R38), and every step takes one cycle's inputs and counts one edge (the
model's own fields, logs 1 and 17). -/
def Obligations.ParametersNeverChange : Prop :=
  (∀ s t, step s = .next t → t.cfg = s.cfg ∧ t.inputs = s.inputs.tail ∧ t.cycle = s.cycle + 1) ∧
  (∀ i s t, exec i s = .next t → t.cfg = s.cfg ∧ t.inputs = s.inputs.tail ∧ t.cycle = s.cycle + 1)
end

