-- ==== Sys2Proof/Laws/Assembler.lean ====
section
/-! SUPPORT. The laws of the assembler: comments and blanks come off, commas cut a text into its pieces, and the numbers
it reads are the numerals of the statements' vocabulary. -/

namespace Sys2Proof.Machine

open Sys2Proof.Claims

/-! ### Blanks -/

theorem isBlank_iff {c : Char} : isBlank c = true ↔ c = ' ' ∨ c = '\t' := by
  simp [isBlank]

theorem blanks_iff {cs : List Char} : Blanks cs ↔ ∀ c ∈ cs, isBlank c = true := by
  simp [Blanks, isBlank_iff]

theorem blanks_append {a b : List Char} (ha : Blanks a) (hb : Blanks b) : Blanks (a ++ b) := by
  intro c hc
  rcases List.mem_append.1 hc with h | h
  · exact ha c h
  · exact hb c h

theorem dropWhile_blanks {b : List Char} (hb : Blanks b) (x : List Char) :
    (b ++ x).dropWhile isBlank = x.dropWhile isBlank := by
  induction b with
  | nil => rfl
  | cons c b ih =>
    have hc : isBlank c = true := blanks_iff.1 hb c (by simp)
    simp only [List.cons_append, List.dropWhile_cons, hc, if_true]
    exact ih fun d hd => hb d (by simp [hd])

theorem trimBlanks_left {b : List Char} (hb : Blanks b) (x : List Char) : trimBlanks (b ++ x) = trimBlanks x := by
  simp [trimBlanks, dropWhile_blanks hb]

theorem dropWhile_append_of_exists {x : List Char} (y : List Char) (h : ∃ c ∈ x, isBlank c = false) :
    (x ++ y).dropWhile isBlank = x.dropWhile isBlank ++ y := by
  induction x with
  | nil => simp at h
  | cons c x ih =>
    cases hc : isBlank c with
    | false => simp [hc]
    | true =>
      simp only [List.cons_append, List.dropWhile_cons, hc, if_true]
      obtain ⟨d, hd, hf⟩ := h
      rcases List.mem_cons.1 hd with rfl | hd
      · rw [hc] at hf; cases hf
      · exact ih ⟨d, hd, hf⟩

theorem dropWhile_eq_nil_of_blanks {x : List Char} (h : Blanks x) : x.dropWhile isBlank = [] := by
  simpa using dropWhile_blanks h []

theorem blanks_or_exists (x : List Char) : Blanks x ∨ ∃ c ∈ x, isBlank c = false := by
  by_cases h : ∃ c ∈ x, isBlank c = false
  · exact .inr h
  · exact .inl (blanks_iff.2 fun c hc => by
      cases hb : isBlank c
      · exact absurd ⟨c, hc, hb⟩ h
      · rfl)

theorem trimBlanks_right {b : List Char} (hb : Blanks b) (x : List Char) : trimBlanks (x ++ b) = trimBlanks x := by
  rcases blanks_or_exists x with hx | hx
  · simp [trimBlanks, dropWhile_eq_nil_of_blanks hx, dropWhile_eq_nil_of_blanks (blanks_append hx hb)]
  · have hr : Blanks b.reverse := fun c hc => hb c (by simpa using hc)
    simp [trimBlanks, dropWhile_append_of_exists b hx, dropWhile_blanks hr]

/-- A text that neither begins nor ends with a blank. -/
def Trimmed (x : List Char) : Prop :=
  (∀ c, x.head? = some c → isBlank c = false) ∧ (∀ c, x.getLast? = some c → isBlank c = false)

theorem trimBlanks_of_trimmed {x : List Char} (h : Trimmed x) : trimBlanks x = x := by
  cases x with
  | nil => rfl
  | cons c x =>
    have h1 : (c :: x).dropWhile isBlank = c :: x := by
      simp [h.1 c rfl]
    have h2 : (c :: x).reverse.dropWhile isBlank = (c :: x).reverse := by
      cases hr : (c :: x).reverse with
      | nil => rfl
      | cons d y =>
        have : (c :: x).getLast? = some d := by
          rw [← List.head?_reverse, hr]; rfl
        simp [h.2 d this]
    rw [trimBlanks, h1, h2, List.reverse_reverse]

theorem trimBlanks_surrounded {a x b : List Char} (ha : Blanks a) (hb : Blanks b) (hx : Trimmed x) :
    trimBlanks (a ++ x ++ b) = x := by
  rw [trimBlanks_right hb, trimBlanks_left ha, trimBlanks_of_trimmed hx]

theorem split_dropWhile (x : List Char) : ∃ b, Blanks b ∧ x = b ++ x.dropWhile isBlank :=
  ⟨x.takeWhile isBlank, blanks_iff.2 fun c hc => by
    have := List.all_takeWhile (l := x) (p := isBlank)
    exact List.all_eq_true.1 this c hc, (List.takeWhile_append_dropWhile).symm⟩

theorem split_trimBlanks (x : List Char) : ∃ a b, Blanks a ∧ Blanks b ∧ x = a ++ trimBlanks x ++ b := by
  obtain ⟨a, ha, h1⟩ := split_dropWhile x
  obtain ⟨b, hb, h2⟩ := split_dropWhile (x.dropWhile isBlank).reverse
  refine ⟨a, b.reverse, ha, fun c hc => hb c (by simpa using hc), ?_⟩
  have h3 : x.dropWhile isBlank = trimBlanks x ++ b.reverse := by
    rw [trimBlanks, ← List.reverse_append, ← h2, List.reverse_reverse]
  rw [List.append_assoc, ← h3]
  exact h1

theorem head_trimBlanks {x : List Char} {c : Char} (h : (trimBlanks x).head? = some c) : isBlank c = false := by
  have hd : ∀ {y : List Char} {d : Char}, (y.dropWhile isBlank).head? = some d → isBlank d = false := by
    intro y d hy
    have := List.head?_dropWhile_not (p := isBlank) y
    rw [hy] at this
    simpa using this
  obtain ⟨b, -, h2⟩ := split_dropWhile (x.dropWhile isBlank).reverse
  have h3 : x.dropWhile isBlank = trimBlanks x ++ b.reverse := by
    rw [trimBlanks, ← List.reverse_append, ← h2, List.reverse_reverse]
  apply hd (y := x)
  rw [h3]
  cases ht : trimBlanks x with
  | nil => rw [ht] at h; cases h
  | cons d y => rw [ht] at h; simpa using h

/-! ### Comments -/

theorem stripComment_append {a comment : List Char} (ha : ∀ c ∈ a, c ≠ ';')
    (hc : comment = [] ∨ ∃ text, comment = ';' :: text) : stripComment (a ++ comment) = a := by
  induction a with
  | nil => rcases hc with rfl | ⟨t, rfl⟩ <;> simp [stripComment]
  | cons d a ih =>
    have hd : d ≠ ';' := ha d (by simp)
    simp [stripComment, hd, ih fun c h => ha c (by simp [h])]

theorem split_stripComment (x : List Char) :
    ∃ comment, x = stripComment x ++ comment ∧ (comment = [] ∨ ∃ text, comment = ';' :: text) := by
  induction x with
  | nil => exact ⟨[], rfl, .inl rfl⟩
  | cons c x ih =>
    by_cases hc : c = ';'
    · exact ⟨c :: x, by simp [stripComment, hc], .inr ⟨x, by rw [hc]⟩⟩
    · obtain ⟨d, h1, h2⟩ := ih
      refine ⟨d, ?_, h2⟩
      simp only [stripComment, beq_iff_eq, hc, if_false, List.cons_append]
      rw [← h1]

/-! ### Commas -/

theorem splitCommas_ne_nil (x : List Char) : splitCommas x ≠ [] := by
  cases x with
  | nil => simp [splitCommas]
  | cons c x =>
    unfold splitCommas
    split
    · simp
    · split <;> simp

theorem splitCommas_cons {c : Char} (hc : c ≠ ',') {x p : List Char} {ps : List (List Char)}
    (h : splitCommas x = p :: ps) : splitCommas (c :: x) = (c :: p) :: ps := by
  simp [splitCommas, hc, h]

/-- Without a comma there is one piece; a piece before a comma comes off. -/
theorem splitCommas_piece {p : List Char} (hp : ∀ c ∈ p, c ≠ ',') :
    splitCommas p = [p] ∧ ∀ x, splitCommas (p ++ ',' :: x) = p :: splitCommas x := by
  induction p with
  | nil => simp [splitCommas]
  | cons c p ih =>
    obtain ⟨h1, h2⟩ := ih fun d hd => hp d (by simp [hd])
    have hc := hp c (by simp)
    exact ⟨splitCommas_cons hc h1, fun x => splitCommas_cons hc (h2 x)⟩

theorem splitCommas_intercalate {ps : List (List Char)} (hne : ps ≠ []) (hp : ∀ p ∈ ps, ∀ c ∈ p, c ≠ ',') :
    splitCommas (List.intercalate [','] ps) = ps := by
  induction ps with
  | nil => exact absurd rfl hne
  | cons p ps ih =>
    cases ps with
    | nil => simpa [List.intercalate] using (splitCommas_piece (hp p (by simp))).1
    | cons q ps =>
      have : List.intercalate [','] (p :: q :: ps) = p ++ ',' :: List.intercalate [','] (q :: ps) := by
        simp [List.intercalate, List.intersperse]
      rw [this, (splitCommas_piece (hp p (by simp))).2, ih (by simp) fun r hr => hp r (by simp [List.mem_cons.1 hr])]

theorem intercalate_splitCommas (x : List Char) : List.intercalate [','] (splitCommas x) = x := by
  induction x with
  | nil => simp [splitCommas, List.intercalate]
  | cons c x ih =>
    cases h : splitCommas x with
    | nil => exact absurd h (splitCommas_ne_nil x)
    | cons p ps =>
      rw [h] at ih
      by_cases hc : c = ','
      · have : splitCommas (c :: x) = [] :: p :: ps := by simp [splitCommas, hc, h]
        rw [this, hc]
        simp only [List.intercalate, List.intersperse, List.flatten_cons] at ih ⊢
        simpa using ih
      · rw [splitCommas_cons hc h]
        conv => rhs; rw [← ih]
        cases ps <;> simp [List.intercalate, List.intersperse]

theorem mem_intercalate {ps : List (List Char)} {c : Char} (h : c ∈ List.intercalate [','] ps) :
    c = ',' ∨ ∃ p ∈ ps, c ∈ p := by
  induction ps with
  | nil => simp [List.intercalate] at h
  | cons p ps ih =>
    cases ps with
    | nil => exact .inr ⟨p, by simp, by simpa [List.intercalate] using h⟩
    | cons q ps =>
      have e : List.intercalate [','] (p :: q :: ps) = p ++ ',' :: List.intercalate [','] (q :: ps) := by
        simp [List.intercalate, List.intersperse]
      rw [e, List.mem_append, List.mem_cons] at h
      rcases h with h | h | h
      · exact .inr ⟨p, by simp, h⟩
      · exact .inl h
      · exact (ih h).imp id fun ⟨r, hr, hc⟩ => ⟨r, by simp [List.mem_cons.1 hr], hc⟩

/-- Blanks before and after a text change its pieces only by blanks. -/
theorem trim_splitCommas_left {b : List Char} (hb : Blanks b) (x : List Char) :
    (splitCommas (b ++ x)).map trimBlanks = (splitCommas x).map trimBlanks := by
  induction b with
  | nil => rfl
  | cons c b ih =>
    have hc := hb c (by simp)
    have hn : c ≠ ',' := by rcases hc with rfl | rfl <;> decide
    rw [← ih fun d hd => hb d (by simp [hd])]
    cases h : splitCommas (b ++ x) with
    | nil => exact absurd h (splitCommas_ne_nil _)
    | cons p ps =>
      rw [List.cons_append, splitCommas_cons hn h]
      have : trimBlanks (c :: p) = trimBlanks p := trimBlanks_left (b := [c]) (by simpa [Blanks] using hc) p
      simp [this]

/-- A text without commas after another extends its last piece. -/
theorem splitCommas_append {b : List Char} (hb : ∀ c ∈ b, c ≠ ',') (x : List Char) :
    ∃ init last, splitCommas x = init ++ [last] ∧ splitCommas (x ++ b) = init ++ [last ++ b] := by
  induction x with
  | nil => exact ⟨[], [], rfl, (splitCommas_piece hb).1⟩
  | cons c x ih =>
    obtain ⟨init, last, h1, h2⟩ := ih
    by_cases hc : c = ','
    · exact ⟨[] :: init, last, by simp [splitCommas, hc, h1], by simp [splitCommas, hc, h2]⟩
    · cases init with
      | nil => exact ⟨[], c :: last, splitCommas_cons hc h1, splitCommas_cons hc h2⟩
      | cons p ps => exact ⟨(c :: p) :: ps, last, splitCommas_cons hc h1, splitCommas_cons hc h2⟩

theorem trim_splitCommas_right {b : List Char} (hb : Blanks b) (x : List Char) :
    (splitCommas (x ++ b)).map trimBlanks = (splitCommas x).map trimBlanks := by
  obtain ⟨init, last, h1, h2⟩ :=
    splitCommas_append (b := b) (fun c hc => by rcases hb c hc with rfl | rfl <;> decide) x
  rw [h1, h2]
  simp [trimBlanks_right hb]

/-! ### Numbers -/

theorem digitValue_iff {base : Nat} (hb : base = 10 ∨ base = 16) {c : Char} {d : Nat} :
    digitValue base c = some d ↔ IsDigit base c d := by
  constructor
  · intro h
    have hc : c = Char.ofNat c.toNat := (Char.ofNat_toNat c).symm
    simp only [digitValue, Option.filter_eq_some_iff, decide_eq_true_eq] at h
    obtain ⟨h1, h2⟩ := h
    refine ⟨h2, ?_⟩
    rw [hc]
    generalize c.toNat = n at h1
    split at h1
    · rename_i hn
      obtain ⟨l, u⟩ := hn
      simp only [Option.some.injEq] at h1
      subst h1
      interval_cases n <;> decide
    split at h1
    · rename_i hn
      obtain ⟨l, u⟩ := hn
      simp only [Option.some.injEq] at h1
      subst h1
      interval_cases n <;> decide
    split at h1
    · rename_i hn
      obtain ⟨l, u⟩ := hn
      simp only [Option.some.injEq] at h1
      subst h1
      interval_cases n <;> decide
    · cases h1
  · rintro ⟨h1, h2⟩
    rcases hb with rfl | rfl <;> interval_cases d <;> rcases h2 with rfl | rfl <;> decide

theorem readDigits_iff {base : Nat} (hb : base = 10 ∨ base = 16) {cs : List Char} {acc n : Nat} :
    readDigits base acc cs = some n ↔
      ∃ ds, List.Forall₂ (IsDigit base) cs ds ∧ n = ds.foldl (fun v d => v * base + d) acc := by
  induction cs generalizing acc with
  | nil =>
    constructor
    · intro h; exact ⟨[], .nil, by simpa [readDigits] using h.symm⟩
    · rintro ⟨ds, h, rfl⟩; cases h; rfl
  | cons c cs ih =>
    constructor
    · intro h
      unfold readDigits at h
      split at h
      · rename_i d hd
        obtain ⟨ds, h1, h2⟩ := ih.1 h
        exact ⟨d :: ds, .cons ((digitValue_iff hb).1 hd) h1, h2⟩
      · cases h
    · rintro ⟨ds, h, rfl⟩
      cases h with
      | cons hd ht =>
        simp only [readDigits, (digitValue_iff hb).2 hd]
        exact ih.2 ⟨_, ht, rfl⟩

/-- `readNumber` reads exactly the numerals. -/
theorem readNumber_iff {cs : List Char} {n : Nat} : readNumber cs = some n ↔ Numeral cs n := by
  constructor
  · intro h
    unfold readNumber at h
    split at h
    · cases h
    · obtain ⟨ds, h1, h2⟩ := (readDigits_iff (.inr rfl)).1 h
      exact ⟨16, _, ds, .inr ⟨rfl, rfl⟩, fun h => by (subst h; cases h1), h1, h2⟩
    · obtain ⟨ds, h1, h2⟩ := (readDigits_iff (.inl rfl)).1 h
      exact ⟨10, _, ds, .inl ⟨rfl, rfl⟩, fun h => by (subst h; cases h1), h1, h2⟩
  · rintro ⟨base, chars, ds, hb, hne, hd, rfl⟩
    cases hd with
    | nil => exact absurd rfl hne
    | cons h1 h2 =>
      rename_i c d cs ds
      rcases hb with ⟨rfl, rfl⟩ | ⟨rfl, rfl⟩
      · unfold readNumber
        split
        · rename_i heq; cases heq
        · rename_i heq
          cases heq
          cases h2 with
          | cons hx _ => exact absurd ((digitValue_iff (.inl rfl)).2 hx) (by simp [digitValue])
        · rename_i heq
          cases heq
          exact (readDigits_iff (.inl rfl)).2 ⟨_, .cons h1 h2, rfl⟩
      · simp only [readNumber]
        exact (readDigits_iff (.inr rfl)).2 ⟨_, .cons h1 h2, rfl⟩

/-- No digit, and no numeral, has a blank, a comma or a semicolon in it. -/
theorem numeral_chars {cs : List Char} {n : Nat} (h : Numeral cs n) :
    cs ≠ [] ∧ ∀ c ∈ cs, isBlank c = false ∧ c ≠ ',' ∧ c ≠ ';' := by
  obtain ⟨base, chars, ds, hb, hne, hd, -⟩ := h
  have hbase : base = 10 ∨ base = 16 := hb.imp And.left And.left
  have key : ∀ {xs : List Char} {ys : List Nat}, List.Forall₂ (IsDigit base) xs ys →
      ∀ c ∈ xs, isBlank c = false ∧ c ≠ ',' ∧ c ≠ ';' := by
    intro xs ys hxy
    induction hxy with
    | nil => simp
    | @cons x d _ _ h1 _ ih =>
      intro c hc
      rcases List.mem_cons.1 hc with rfl | hc
      · obtain ⟨h1, h2⟩ := h1
        have hd : d < 16 := by omega
        interval_cases d <;> rcases h2 with rfl | rfl <;> decide
      · exact ih c hc
  have hcs := key hd
  rcases hb with ⟨-, rfl⟩ | ⟨-, rfl⟩
  · refine ⟨?_, hcs⟩
    rintro rfl
    cases hd
    exact hne rfl
  · refine ⟨by simp, fun c hc => ?_⟩
    rcases List.mem_cons.1 hc with rfl | hc
    · decide
    rcases List.mem_cons.1 hc with rfl | hc
    · decide
    exact hcs c hc

theorem numeral_trimmed {cs : List Char} {n : Nat} (h : Numeral cs n) : Trimmed cs :=
  ⟨fun c hc => ((numeral_chars h).2 c (List.mem_of_mem_head? hc)).1, fun c hc => ((numeral_chars h).2 c (List.mem_of_mem_getLast? hc)).1⟩

/-- A piece between commas is read as exactly the operand it writes. -/
theorem readPiece_iff {p : List Char} {n : Nat} : readNumber (trimBlanks p) = some n ↔ OperandText p n := by
  rw [readNumber_iff]
  constructor
  · intro h
    obtain ⟨a, b, ha, hb, hp⟩ := split_trimBlanks p
    exact ⟨a, _, b, hp, ha, hb, h⟩
  · rintro ⟨a, x, b, rfl, ha, hb, hx⟩
    rw [trimBlanks_surrounded ha hb (numeral_trimmed hx)]
    exact hx

theorem operandText_chars {p : List Char} {n : Nat} (h : OperandText p n) :
    (∃ c ∈ p, isBlank c = false) ∧ ∀ c ∈ p, c ≠ ',' ∧ c ≠ ';' := by
  obtain ⟨a, x, b, rfl, ha, hb, hx⟩ := h
  obtain ⟨hne, hc⟩ := numeral_chars hx
  have blank : ∀ {y : List Char}, Blanks y → ∀ c ∈ y, c ≠ ',' ∧ c ≠ ';' := by
    intro y hy c hc
    rcases hy c hc with rfl | rfl <;> decide
  constructor
  · obtain ⟨c, hcx⟩ := List.exists_mem_of_ne_nil x hne
    exact ⟨c, by simp [hcx], (hc c hcx).1⟩
  · intro c hm
    rcases List.mem_append.1 hm with hm | hm
    · rcases List.mem_append.1 hm with hm | hm
      · exact blank ha c hm
      · exact (hc c hm).2
    · exact blank hb c hm

theorem mapM_readPiece_iff {ps : List (List Char)} {ops : List Nat} :
    ps.mapM (fun p => readNumber (trimBlanks p)) = some ops ↔ List.Forall₂ OperandText ps ops := by
  induction ps generalizing ops with
  | nil => simp [eq_comm]
  | cons p ps ih =>
    simp only [List.mapM_cons, Option.bind_eq_bind, Option.bind_eq_some_iff, Option.pure_def, Option.some.injEq]
    constructor
    · rintro ⟨n, h1, ns, h2, rfl⟩
      exact .cons (readPiece_iff.1 h1) (ih.1 h2)
    · rintro (_ | ⟨h1, h2⟩)
      exact ⟨_, readPiece_iff.2 h1, _, ih.2 h2, rfl⟩

/-- Pieces that differ only by blanks write the same operands. -/
theorem operandTexts_congr {ps qs : List (List Char)} (h : ps.map trimBlanks = qs.map trimBlanks) (ops : List Nat) :
    List.Forall₂ OperandText ps ops ↔ List.Forall₂ OperandText qs ops := by
  have e : OperandText = fun p n => Numeral (trimBlanks p) n := by
    funext p n
    exact propext (by rw [← readPiece_iff, readNumber_iff])
  rw [e, ← List.forall₂_map_left_iff, h, List.forall₂_map_left_iff]

theorem trimBlanks_eq_nil {x : List Char} : trimBlanks x = [] ↔ Blanks x := by
  constructor
  · intro h
    obtain ⟨a, b, ha, hb, hx⟩ := split_trimBlanks x
    rw [hx, h, List.append_nil]
    exact blanks_append ha hb
  · intro h
    simpa [trimBlanks] using trimBlanks_right h []

/-- What `readOperands` reads: nothing from blanks, else one operand from each piece. -/
theorem readOperands_iff {cs : List Char} {ops : List Nat} :
    readOperands cs = some ops ↔
      (Blanks cs ∧ ops = []) ∨ (¬ Blanks cs ∧ List.Forall₂ OperandText (splitCommas cs) ops) := by
  unfold readOperands
  by_cases h : trimBlanks cs = []
  · have hb := trimBlanks_eq_nil.1 h
    rw [if_pos h]
    exact ⟨fun e => .inl ⟨hb, (Option.some.inj e).symm⟩, fun e => e.elim (fun e => e.2 ▸ rfl) fun e => absurd hb e.1⟩
  · rw [if_neg h, mapM_readPiece_iff]
    simp [mt trimBlanks_eq_nil.2 h]

/-! ### Commands -/

/-- `commandOf` answers exactly the instruction a mnemonic and its operands write. -/
theorem commandOf_iff {mn : List Char} {ops : List Nat} {i : Instr} : commandOf mn ops = .ok i ↔ WrittenAs mn ops i := by
  constructor
  · intro h
    unfold commandOf at h
    by_cases h1 : mn = ['N', 'O', 'P']
    · rw [if_pos h1] at h; split at h <;> cases h; exact ⟨h1, rfl⟩
    rw [if_neg h1] at h
    by_cases h2 : mn = ['P', 'O', 'L', 'L']
    · rw [if_pos h2] at h; split at h <;> cases h; exact ⟨h2, rfl⟩
    rw [if_neg h2] at h
    by_cases h3 : mn = ['P', 'I', 'X', '_', 'W', 'R', 'I', 'T', 'E']
    · rw [if_pos h3] at h; split at h <;> cases h; exact ⟨h3, rfl⟩
    rw [if_neg h3] at h
    by_cases h4 : mn = ['R', 'D', '_', 'W', 'O', 'R', 'D']
    · rw [if_pos h4] at h; split at h <;> cases h; exact ⟨h4, rfl⟩
    rw [if_neg h4] at h
    by_cases h5 : mn = ['R', 'D', '_', 'B', 'Y', 'T', 'E']
    · rw [if_pos h5] at h; split at h <;> cases h; exact ⟨h5, rfl⟩
    rw [if_neg h5] at h
    by_cases h6 : mn = ['S', 'E', 'N', 'D', '_', 'B', 'B']
    · rw [if_pos h6] at h; split at h <;> cases h; exact ⟨h6, rfl⟩
    rw [if_neg h6] at h
    by_cases h7 : mn = ['S', 'E', 'N', 'D', '_', 'P', 'E', 'R']
    · rw [if_pos h7] at h
      split at h <;> cases h
      · exact ⟨h7, .inr ⟨rfl, rfl⟩⟩
      · exact ⟨h7, .inl rfl⟩
    rw [if_neg h7] at h
    by_cases h8 : mn = ['R', 'D', '_', 'S', 'T', 'A', 'T', 'U', 'S']
    · rw [if_pos h8] at h; split at h <;> cases h; exact ⟨h8, rfl⟩
    rw [if_neg h8] at h
    cases h
  · intro h
    cases i <;> simp only [WrittenAs] at h
    case sendPer => obtain ⟨rfl, rfl | ⟨rfl, rfl⟩⟩ := h <;> rfl
    all_goals (obtain ⟨rfl, rfl⟩ := h; rfl)

theorem fits_iff {i : Instr} : Fits i ↔ i.wf = true := by
  cases i <;> simp only [Fits, Instr.wf, Bool.and_eq_true, decide_eq_true_eq] <;> omega

/-- A mnemonic is not empty and has neither blanks nor semicolons in it. -/
theorem writtenAs_chars {mn : List Char} {ops : List Nat} {i : Instr} (h : WrittenAs mn ops i) :
    mn ≠ [] ∧ ∀ c ∈ mn, isBlank c = false ∧ c ≠ ';' := by
  have e : mn ∈ ["NOP".toList, "POLL".toList, "PIX_WRITE".toList, "RD_WORD".toList, "RD_BYTE".toList, "SEND_BB".toList,
      "SEND_PER".toList, "RD_STATUS".toList] := by
    cases i <;> rw [h.1] <;> decide
  have names : (["NOP".toList, "POLL".toList, "PIX_WRITE".toList, "RD_WORD".toList, "RD_BYTE".toList, "SEND_BB".toList,
      "SEND_PER".toList, "RD_STATUS".toList].all fun m => !m.isEmpty && m.all fun c => !isBlank c && c != ';') = true := by
    decide
  simpa using List.all_eq_true.1 names mn e

/-- What `assembleLine` answers, once the line is cut into its mnemonic and its operands. -/
theorem assembleLine_of_text {line mn : List Char} {ops : List Nat} {i : Instr} {r : List Char}
    (ht : trimBlanks (stripComment line) = mn ++ r) (hr : ∀ c, r.head? = some c → isBlank c = true)
    (ho : readOperands r = some ops) (hw : WrittenAs mn ops i) :
    assembleLine line = if i.wf then .ok (some (encode i)) else .error .operandTooLarge := by
  obtain ⟨hne, hc⟩ := writtenAs_chars hw
  have hall : ∀ c ∈ mn, (!isBlank c) = true := fun c h => by simp [(hc c h).1]
  have htake : (mn ++ r).takeWhile (fun c => !isBlank c) = mn := by
    rw [List.takeWhile_append_of_pos hall]
    cases r with
    | nil => simp
    | cons c r => simp [hr c rfl]
  have hdrop : (mn ++ r).dropWhile (fun c => !isBlank c) = r := by
    rw [List.dropWhile_append_of_pos hall]
    cases r with
    | nil => simp
    | cons c r => simp [hr c rfl]
  unfold assembleLine
  simp only [ht, htake, hdrop, ho, commandOf_iff.2 hw, assemble]
  rw [if_neg (by simp [hne])]
  cases i.wf <;> rfl

end Sys2Proof.Machine
end

