-- ==== Sys2Proof/Laws/State.lean ====
section
/-! SUPPORT. What each state update leaves in each field, one lemma per field per update, so that no later proof
unfolds a record update. -/

namespace Sys2Proof.Machine

/-! ### The inputs of the cycle -/

@[simp] theorem input_of_cons (s : State) (i : Input) (rest : List Input) :
    ({ s with inputs := i :: rest } : State).input = i := rfl

theorem input_eq_of_inputs {s : State} {i : Input} {rest : List Input} (h : s.inputs = i :: rest) : s.input = i := by
  simp [State.input, h]

/-! ### background -/

@[simp] theorem background_cfg (s : State) : (background s).cfg = s.cfg := rfl

@[simp] theorem background_deb (s : State) : (background s).deb = channelsEdge s.cfg s.input s.deb := rfl

@[simp] theorem background_frame (s : State) : (background s).frame = s.frame := rfl

@[simp] theorem background_tx (s : State) : (background s).tx = s.tx := rfl

@[simp] theorem background_pin (s : State) : (background s).pin = s.pin := rfl

@[simp] theorem background_stat (s : State) : (background s).stat = s.stat := rfl

@[simp] theorem background_ftl (s : State) : (background s).ftl = s.ftl := rfl

@[simp] theorem background_rsp (s : State) : (background s).rsp = { s.rsp with valid := false } := rfl

@[simp] theorem background_inputs (s : State) : (background s).inputs = s.inputs.tail := rfl

@[simp] theorem background_cycle (s : State) : (background s).cycle = s.cycle + 1 := rfl

/-! ### respond -/

@[simp] theorem respond_cfg (c : RspCode) (d : Word) (t : State) : (t.respond c d).cfg = t.cfg := rfl

@[simp] theorem respond_deb (c : RspCode) (d : Word) (t : State) : (t.respond c d).deb = t.deb := rfl

@[simp] theorem respond_frame (c : RspCode) (d : Word) (t : State) : (t.respond c d).frame = t.frame := rfl

@[simp] theorem respond_tx (c : RspCode) (d : Word) (t : State) : (t.respond c d).tx = t.tx := rfl

@[simp] theorem respond_pin (c : RspCode) (d : Word) (t : State) : (t.respond c d).pin = t.pin := rfl

@[simp] theorem respond_stat (c : RspCode) (d : Word) (t : State) : (t.respond c d).stat = t.stat := rfl

@[simp] theorem respond_ftl (c : RspCode) (d : Word) (t : State) : (t.respond c d).ftl = t.ftl := rfl

@[simp] theorem respond_rsp (c : RspCode) (d : Word) (t : State) : (t.respond c d).rsp = { valid := true, code := c, data := d } := rfl

@[simp] theorem respond_inputs (c : RspCode) (d : Word) (t : State) : (t.respond c d).inputs = t.inputs := rfl

@[simp] theorem respond_cycle (c : RspCode) (d : Word) (t : State) : (t.respond c d).cycle = t.cycle := rfl

/-! ### raiseFatal -/

@[simp] theorem raiseFatal_cfg (c : FatalCause) (s : State) : (raiseFatal c s).cfg = s.cfg := rfl

@[simp] theorem raiseFatal_deb (c : FatalCause) (s : State) : (raiseFatal c s).deb = channelsEdge s.cfg s.input s.deb := rfl

@[simp] theorem raiseFatal_frame (c : FatalCause) (s : State) : (raiseFatal c s).frame = s.frame := rfl

@[simp] theorem raiseFatal_tx (c : FatalCause) (s : State) : (raiseFatal c s).tx = s.tx := rfl

@[simp] theorem raiseFatal_pin (c : FatalCause) (s : State) : (raiseFatal c s).pin = s.pin := rfl

@[simp] theorem raiseFatal_stat (c : FatalCause) (s : State) : (raiseFatal c s).stat = s.stat := rfl

@[simp] theorem raiseFatal_ftl (c : FatalCause) (s : State) : (raiseFatal c s).ftl = { fatal := true, cause := some c } := rfl

@[simp] theorem raiseFatal_rsp (c : FatalCause) (s : State) : (raiseFatal c s).rsp = { valid := true, code := .fatal, data := (causeCode (some c)).zeroExtend 32 } := rfl

@[simp] theorem raiseFatal_inputs (c : FatalCause) (s : State) : (raiseFatal c s).inputs = s.inputs.tail := rfl

@[simp] theorem raiseFatal_cycle (c : FatalCause) (s : State) : (raiseFatal c s).cycle = s.cycle + 1 := rfl

/-! ### resetEdge -/

@[simp] theorem resetEdge_cfg (s : State) : (resetEdge s).cfg = s.cfg := rfl

@[simp] theorem resetEdge_deb (s : State) : (resetEdge s).deb = s.cfg.channels.map Channel.reset := rfl

@[simp] theorem resetEdge_frame (s : State) : (resetEdge s).frame = [] := rfl

@[simp] theorem resetEdge_tx (s : State) : (resetEdge s).tx = Transmitter.reset := rfl

@[simp] theorem resetEdge_pin (s : State) : (resetEdge s).pin = { clk := true, dat := true } := rfl

@[simp] theorem resetEdge_stat (s : State) : (resetEdge s).stat = { lastResult := none, stripUndef := true, lastVariant := .bitBanged } := rfl

@[simp] theorem resetEdge_ftl (s : State) : (resetEdge s).ftl = { fatal := false, cause := none } := rfl

@[simp] theorem resetEdge_rsp (s : State) : (resetEdge s).rsp = { valid := false, code := .ok, data := 0 } := rfl

@[simp] theorem resetEdge_inputs (s : State) : (resetEdge s).inputs = s.inputs.tail := rfl

@[simp] theorem resetEdge_cycle (s : State) : (resetEdge s).cycle = s.cycle + 1 := rfl

/-! ### finish -/

@[simp] theorem finish_cfg (r : SendResult) (v : Variant) (t : State) : (finish r v t).cfg = t.cfg := rfl

@[simp] theorem finish_deb (r : SendResult) (v : Variant) (t : State) : (finish r v t).deb = t.deb := rfl

@[simp] theorem finish_frame (r : SendResult) (v : Variant) (t : State) : (finish r v t).frame = t.frame := rfl

@[simp] theorem finish_tx (r : SendResult) (v : Variant) (t : State) : (finish r v t).tx = Transmitter.reset := rfl

@[simp] theorem finish_pin (r : SendResult) (v : Variant) (t : State) : (finish r v t).pin = t.pin := rfl

@[simp] theorem finish_stat (r : SendResult) (v : Variant) (t : State) : (finish r v t).stat = { lastResult := some r, stripUndef := decide (r ≠ SendResult.ok), lastVariant := v } := rfl

@[simp] theorem finish_ftl (r : SendResult) (v : Variant) (t : State) : (finish r v t).ftl = t.ftl := rfl

@[simp] theorem finish_rsp (r : SendResult) (v : Variant) (t : State) : (finish r v t).rsp = { valid := true, code := r.code, data := 0 } := rfl

@[simp] theorem finish_inputs (r : SendResult) (v : Variant) (t : State) : (finish r v t).inputs = t.inputs := rfl

@[simp] theorem finish_cycle (r : SendResult) (v : Variant) (t : State) : (finish r v t).cycle = t.cycle := rfl

/-! ### setPin -/

@[simp] theorem setPin_clk_cfg (v : Bool) (t : State) : (setPin .clk v t).cfg = t.cfg := rfl

@[simp] theorem setPin_clk_deb (v : Bool) (t : State) : (setPin .clk v t).deb = t.deb := rfl

@[simp] theorem setPin_clk_frame (v : Bool) (t : State) : (setPin .clk v t).frame = t.frame := rfl

@[simp] theorem setPin_clk_tx (v : Bool) (t : State) : (setPin .clk v t).tx = t.tx := rfl

@[simp] theorem setPin_clk_pin (v : Bool) (t : State) : (setPin .clk v t).pin = { t.pin with clk := v } := rfl

@[simp] theorem setPin_clk_stat (v : Bool) (t : State) : (setPin .clk v t).stat = t.stat := rfl

@[simp] theorem setPin_clk_ftl (v : Bool) (t : State) : (setPin .clk v t).ftl = t.ftl := rfl

@[simp] theorem setPin_clk_rsp (v : Bool) (t : State) : (setPin .clk v t).rsp = t.rsp := rfl

@[simp] theorem setPin_clk_inputs (v : Bool) (t : State) : (setPin .clk v t).inputs = t.inputs := rfl

@[simp] theorem setPin_clk_cycle (v : Bool) (t : State) : (setPin .clk v t).cycle = t.cycle := rfl

@[simp] theorem setPin_dat_cfg (v : Bool) (t : State) : (setPin .dat v t).cfg = t.cfg := rfl

@[simp] theorem setPin_dat_deb (v : Bool) (t : State) : (setPin .dat v t).deb = t.deb := rfl

@[simp] theorem setPin_dat_frame (v : Bool) (t : State) : (setPin .dat v t).frame = t.frame := rfl

@[simp] theorem setPin_dat_tx (v : Bool) (t : State) : (setPin .dat v t).tx = t.tx := rfl

@[simp] theorem setPin_dat_pin (v : Bool) (t : State) : (setPin .dat v t).pin = { t.pin with dat := v } := rfl

@[simp] theorem setPin_dat_stat (v : Bool) (t : State) : (setPin .dat v t).stat = t.stat := rfl

@[simp] theorem setPin_dat_ftl (v : Bool) (t : State) : (setPin .dat v t).ftl = t.ftl := rfl

@[simp] theorem setPin_dat_rsp (v : Bool) (t : State) : (setPin .dat v t).rsp = t.rsp := rfl

@[simp] theorem setPin_dat_inputs (v : Bool) (t : State) : (setPin .dat v t).inputs = t.inputs := rfl

@[simp] theorem setPin_dat_cycle (v : Bool) (t : State) : (setPin .dat v t).cycle = t.cycle := rfl

/-! ### goTo -/

@[simp] theorem goTo_cfg (n : TxState) (t : State) : (goTo n t).cfg = t.cfg := rfl

@[simp] theorem goTo_deb (n : TxState) (t : State) : (goTo n t).deb = t.deb := rfl

@[simp] theorem goTo_frame (n : TxState) (t : State) : (goTo n t).frame = t.frame := rfl

@[simp] theorem goTo_tx (n : TxState) (t : State) : (goTo n t).tx = { t.tx with state := n } := rfl

@[simp] theorem goTo_pin (n : TxState) (t : State) : (goTo n t).pin = t.pin := rfl

@[simp] theorem goTo_stat (n : TxState) (t : State) : (goTo n t).stat = t.stat := rfl

@[simp] theorem goTo_ftl (n : TxState) (t : State) : (goTo n t).ftl = t.ftl := rfl

@[simp] theorem goTo_rsp (n : TxState) (t : State) : (goTo n t).rsp = t.rsp := rfl

@[simp] theorem goTo_inputs (n : TxState) (t : State) : (goTo n t).inputs = t.inputs := rfl

@[simp] theorem goTo_cycle (n : TxState) (t : State) : (goTo n t).cycle = t.cycle := rfl

/-! ### advance -/

@[simp] theorem advance_cfg (t : State) : (advance t).cfg = t.cfg := by
  unfold advance; split <;> [rfl; split <;> rfl]

@[simp] theorem advance_deb (t : State) : (advance t).deb = t.deb := by
  unfold advance; split <;> [rfl; split <;> rfl]

@[simp] theorem advance_frame (t : State) : (advance t).frame = t.frame := by
  unfold advance; split <;> [rfl; split <;> rfl]

@[simp] theorem advance_pin (t : State) : (advance t).pin = t.pin := by
  unfold advance; split <;> [rfl; split <;> rfl]

@[simp] theorem advance_stat (t : State) : (advance t).stat = t.stat := by
  unfold advance; split <;> [rfl; split <;> rfl]

@[simp] theorem advance_ftl (t : State) : (advance t).ftl = t.ftl := by
  unfold advance; split <;> [rfl; split <;> rfl]

@[simp] theorem advance_rsp (t : State) : (advance t).rsp = t.rsp := by
  unfold advance; split <;> [rfl; split <;> rfl]

@[simp] theorem advance_inputs (t : State) : (advance t).inputs = t.inputs := by
  unfold advance; split <;> [rfl; split <;> rfl]

@[simp] theorem advance_cycle (t : State) : (advance t).cycle = t.cycle := by
  unfold advance; split <;> [rfl; split <;> rfl]

end Sys2Proof.Machine
end

