-- ==== Sys2Proof/Laws/Channels.lean ====
section
/-! SUPPORT. The laws of the debounce channels: what an edge does to channel k, and what a POLL answers. -/

namespace Sys2Proof.Machine

@[simp] theorem channelsEdge_length (c : Config) (inp : Input) (deb : List Channel) :
    (channelsEdge c inp deb).length = deb.length := by
  simp [channelsEdge]

/-- Channel `k` after an edge that accepts no change on it (40_debounce.md R101, R103). -/
theorem channelsEdge_getElem? (c : Config) (inp : Input) (deb : List Channel) (k : Nat) :
    (channelsEdge c inp deb)[k]? =
      (deb[k]?).map (channelEdge (settleOf c k) (inp.rawIn.getLsbD k) inp.tick) := by
  simp [channelsEdge, List.getElem?_mapIdx]

theorem settleOf_eq {c : Config} {k : Nat} {cc : ChannelConfig} (h : c.channels[k]? = some cc) :
    settleOf c k = cc.settle := by
  simp [settleOf, h]

@[simp] theorem channelEdge_stable (n : Nat) (r t : Bool) (ch : Channel) : (channelEdge n r t ch).stable = ch.stable := rfl
@[simp] theorem channelEdge_sync1 (n : Nat) (r t : Bool) (ch : Channel) : (channelEdge n r t ch).sync1 = r := rfl
@[simp] theorem channelEdge_sync2 (n : Nat) (r t : Bool) (ch : Channel) : (channelEdge n r t ch).sync2 = ch.sync1 := rfl
@[simp] theorem channelEdge_elapsed (n : Nat) (r t : Bool) (ch : Channel) :
    (channelEdge n r t ch).elapsed = elapsedNext n t ch.elapsed := rfl

@[simp] theorem channelPolled_sync1 (n : Nat) (r t : Bool) (ch : Channel) : (channelPolled n r t ch).sync1 = r := rfl
@[simp] theorem channelPolled_sync2 (n : Nat) (r t : Bool) (ch : Channel) :
    (channelPolled n r t ch).sync2 = ch.sync1 := rfl

/-- The counter never passes SETTLE + 1 (10_state.md R25). -/
theorem elapsedNext_le (n : Nat) (t : Bool) (e : Nat) : elapsedNext n t e ≤ n + 1 := Nat.min_le_right _ _

theorem toNat_le_one (t : Bool) : t.toNat ≤ 1 := by cases t <;> simp

/-- What a POLL in lockout, or with the levels equal, does: nothing but the background (R104 steps 1 and 2). -/
theorem channelPolled_unchanged {n : Nat} {ch : Channel} (h : pollChanged n ch = false) (r t : Bool) :
    channelPolled n r t ch = channelEdge n r t ch := by
  simp [channelPolled, channelEdge, pollLevel, h]

/-- What an accepted change does (R104 step 2). -/
theorem channelPolled_changed {n : Nat} {ch : Channel} (h : pollChanged n ch = true) (r t : Bool) :
    channelPolled n r t ch = { stable := ch.sync2, sync1 := r, sync2 := ch.sync1, elapsed := t.toNat } := by
  simp [channelPolled, pollLevel, h]

theorem channelPolled_elapsed_le (n : Nat) (r t : Bool) (ch : Channel) : (channelPolled n r t ch).elapsed ≤ n + 1 := by
  cases h : pollChanged n ch
  · rw [channelPolled_unchanged h]; exact elapsedNext_le _ _ _
  · rw [channelPolled_changed h]
    have := toNat_le_one t
    simp only
    omega

/-- A change is accepted only outside lockout and only when the levels differ (R104). -/
theorem pollChanged_iff {n : Nat} {ch : Channel} :
    pollChanged n ch = true ↔ n < ch.elapsed ∧ ch.sync2 ≠ ch.stable := by
  simp [pollChanged, inLockout]

end Sys2Proof.Machine
end

