-- ==== Sys2Proof/Laws/Decode.lean ====
section
/-! SUPPORT. The laws of the decoder: what it takes for a word to decode, and the operands it reads. -/

namespace Sys2Proof

@[simp] theorem requireField_eq_ok {ok : Bool} {why : Reject} {r : Except Reject Instr} {i : Instr} :
    requireField ok why r = .ok i ↔ ok = true ∧ r = .ok i := by
  cases ok <;> simp [requireField]

/-- Every way a word decodes (30_encoding.md R75 to R79). -/
theorem decode_eq_ok {c : CmdWord} {i : Instr} :
    decode c = .ok i ↔
      (c.op = 0 ∧ c.sel = 0 ∧ c.idx = 0 ∧ c.rsv = 0 ∧ c.data = 0 ∧ i = .nop) ∨
      (c.op = 1 ∧ c.idx = 0 ∧ c.rsv = 0 ∧ c.data = 0 ∧ i = .poll c.sel.toNat) ∨
      (c.op = 2 ∧ c.sel = 0 ∧ c.rsv = 0 ∧
        i = .pixWrite c.idx.toNat (Word.byte c.data 2).toNat (Word.byte c.data 1).toNat (Word.byte c.data 0).toNat
          (Word.byte c.data 3).toNat) ∨
      (c.op = 3 ∧ c.sel = 0 ∧ c.rsv = 0 ∧ c.data = 0 ∧ i = .rdWord c.idx.toNat) ∨
      (c.op = 4 ∧ c.sel = 0 ∧ c.rsv = 0 ∧ c.data = 0 ∧ i = .rdByte c.idx.toNat) ∨
      (c.op = 5 ∧ c.sel = 0 ∧ c.idx = 0 ∧ c.rsv = 0 ∧ Word.half c.data 1 = 0 ∧
        i = .sendBb (Word.half c.data 0).toNat) ∨
      (c.op = 6 ∧ c.sel = 0 ∧ c.idx = 0 ∧ c.rsv = 0 ∧ Word.half c.data 1 = 0 ∧
        i = .sendPer (Word.half c.data 0).toNat) ∨
      (c.op = 7 ∧ c.sel = 0 ∧ c.idx = 0 ∧ c.rsv = 0 ∧ c.data = 0 ∧ i = .rdStatus) := by
  have hop : ∀ n : Nat, n < 16 → (c.op = BitVec.ofNat 4 n ↔ c.op.toNat = n) := by
    intro n hn
    constructor
    · intro h; rw [h, BitVec.toNat_ofNat]; exact Nat.mod_eq_of_lt hn
    · intro h; apply BitVec.eq_of_toNat_eq; rw [h, BitVec.toNat_ofNat]; exact (Nat.mod_eq_of_lt hn).symm
  have e : ∀ j : Instr, (Except.ok j = (Except.ok i : Except Reject Instr)) ↔ i = j := by
    intro j; constructor
    · intro h; cases h; rfl
    · intro h; rw [h]
  have h0 := hop 0 (by omega); have h1 := hop 1 (by omega); have h2 := hop 2 (by omega); have h3 := hop 3 (by omega)
  have h4 := hop 4 (by omega); have h5 := hop 5 (by omega); have h6 := hop 6 (by omega); have h7 := hop 7 (by omega)
  simp only [BitVec.ofNat_eq_ofNat] at *
  rw [h0, h1, h2, h3, h4, h5, h6, h7]
  unfold decode
  generalize c.op.toNat = n
  split <;> simp [e]
  refine ⟨?_, ?_, ?_, ?_, ?_, ?_, ?_, ?_⟩ <;> intro h <;> contradiction

/-- A decoded instruction is well-formed. -/
theorem decode_wf {c : CmdWord} {i : Instr} (h : decode c = .ok i) : i.wf = true := by
  have b4 := c.sel.isLt
  have b20 := c.idx.isLt
  have y0 := (Word.byte c.data 0).isLt
  have y1 := (Word.byte c.data 1).isLt
  have y2 := (Word.byte c.data 2).isLt
  have y3 := (Word.byte c.data 3).isLt
  have h0 := (Word.half c.data 0).isLt
  rcases decode_eq_ok.1 h with h | h | h | h | h | h | h | h <;>
    obtain ⟨-, h⟩ := h <;> simp only [h, Instr.wf] <;> simp <;> omega

end Sys2Proof
end

