-- ==== Sys2Proof/Laws/Memory.lean ====
section
/-! SUPPORT. The laws of the frame's storage: read after write, a write elsewhere, and the canonical form. -/

namespace Sys2Proof.Machine

/-! ### One byte -/

theorem Memory.wf_cons {cell : Host.Cell} {m : Memory} :
    Memory.wf (cell :: m) = true ↔
      cell.2 ≠ unlistedByte cell.1 ∧ (∀ c ∈ m, cell.1 < c.1) ∧ Memory.wf m = true := by
  simp [Memory.wf, and_assoc]

/-- An index below every listed one reads as unlisted. -/
theorem Memory.get_of_lt {m : Memory} {a : Nat} (h : ∀ c ∈ m, a < c.1) : Memory.get m a = unlistedByte a := by
  induction m with
  | nil => rfl
  | cons cell m ih =>
    have h1 := h cell (by simp)
    have h2 := ih fun c hc => h c (by simp [hc])
    simp [Memory.get, h2, Nat.ne_of_gt h1]

/-- Reading the byte that was written. -/
theorem Memory.get_set_same {m : Memory} (hm : Memory.wf m = true) (a : Nat) (v : Byte) :
    Memory.get (Memory.set m a v) a = v := by
  induction m with
  | nil =>
    by_cases hv : v = unlistedByte a
    · subst hv; simp [Memory.set, Memory.get]
    · simp [Memory.set, Memory.get, hv]
  | cons cell m ih =>
    obtain ⟨-, hlt, hwf⟩ := Memory.wf_cons.1 hm
    by_cases h1 : a < cell.1
    · by_cases hv : v = unlistedByte a
      · subst hv
        simpa [Memory.set, h1] using
          Memory.get_of_lt (m := cell :: m) (a := a) (by
            intro c hc
            rcases List.mem_cons.1 hc with rfl | hc
            · exact h1
            · exact Nat.lt_trans h1 (hlt c hc))
      · simp [Memory.set, Memory.get, h1, hv]
    · by_cases h2 : a = cell.1
      · subst h2
        by_cases hv : v = unlistedByte cell.1
        · subst hv
          simpa [Memory.set] using Memory.get_of_lt (m := m) (a := cell.1) hlt
        · simp [Memory.set, Memory.get, hv]
      · have h3 : cell.1 ≠ a := fun h => h2 h.symm
        simp [Memory.set, Memory.get, h1, h2, h3, ih hwf]

/-- A write leaves every other byte alone. -/
theorem Memory.get_set_other (m : Memory) {a b : Nat} (v : Byte) (hab : b ≠ a) :
    Memory.get (Memory.set m a v) b = Memory.get m b := by
  induction m with
  | nil =>
    by_cases hv : v = unlistedByte a
    · simp [Memory.set, hv]
    · simp [Memory.set, Memory.get, hv, hab.symm]
  | cons cell m ih =>
    by_cases h1 : a < cell.1
    · by_cases hv : v = unlistedByte a
      · simp [Memory.set, h1, hv]
      · simp [Memory.set, Memory.get, h1, hv, hab.symm]
    · by_cases h2 : a = cell.1
      · subst h2
        by_cases hv : v = unlistedByte cell.1
        · simp [Memory.set, Memory.get, hv, hab.symm]
        · simp [Memory.set, Memory.get, hv, hab.symm]
      · simp [Memory.set, Memory.get, h1, h2, ih]

/-- The cells after a write: the written one, or cells that were there. -/
theorem Memory.mem_set {m : Memory} {a : Nat} {v : Byte} {c : Host.Cell} (h : c ∈ Memory.set m a v) :
    c = (a, v) ∨ c ∈ m := by
  induction m with
  | nil =>
    by_cases hv : v = unlistedByte a <;> simp_all [Memory.set]
  | cons cell m ih =>
    by_cases h1 : a < cell.1
    · by_cases hv : v = unlistedByte a
      · simp only [Memory.set, h1, hv, if_true] at h
        exact .inr h
      · simp only [Memory.set, h1, hv, if_true, if_false] at h
        simpa using h
    · by_cases h2 : a = cell.1
      · by_cases hv : v = unlistedByte a
        · rw [show Memory.set (cell :: m) a v = m by
            simp only [Memory.set]; rw [if_neg h1, if_pos h2, if_pos hv]] at h
          exact .inr (List.mem_cons_of_mem _ h)
        · rw [show Memory.set (cell :: m) a v = (a, v) :: m by
            simp only [Memory.set]; rw [if_neg h1, if_pos h2, if_neg hv]] at h
          rcases List.mem_cons.1 h with h | h
          · exact .inl h
          · exact .inr (List.mem_cons_of_mem _ h)
      · simp only [Memory.set, h1, h2, if_false] at h
        rcases List.mem_cons.1 h with h | h
        · exact .inr (by simp [h])
        · rcases ih h with h | h
          · exact .inl h
          · exact .inr (List.mem_cons_of_mem _ h)

/-- A write keeps the canonical form. -/
theorem Memory.wf_set {m : Memory} (hm : Memory.wf m = true) (a : Nat) (v : Byte) :
    Memory.wf (Memory.set m a v) = true := by
  induction m with
  | nil =>
    by_cases hv : v = unlistedByte a
    · simp [Memory.set, hv, Memory.wf]
    · simp [Memory.set, hv, Memory.wf]
  | cons cell m ih =>
    obtain ⟨hne, hlt, hwf⟩ := Memory.wf_cons.1 hm
    by_cases h1 : a < cell.1
    · by_cases hv : v = unlistedByte a
      · simp only [Memory.set, h1, hv, if_true]
        exact hm
      · simp only [Memory.set, h1, hv, if_true, if_false]
        refine Memory.wf_cons.2 ⟨hv, ?_, hm⟩
        intro c hc
        rcases List.mem_cons.1 hc with rfl | hc
        · exact h1
        · exact Nat.lt_trans h1 (hlt c hc)
    · by_cases h2 : a = cell.1
      · by_cases hv : v = unlistedByte a
        · have : Memory.set (cell :: m) a v = m := by
            simp only [Memory.set]; rw [if_neg h1, if_pos h2, if_pos hv]
          rw [this]; exact hwf
        · have : Memory.set (cell :: m) a v = (a, v) :: m := by
            simp only [Memory.set]; rw [if_neg h1, if_pos h2, if_neg hv]
          rw [this]
          exact Memory.wf_cons.2 ⟨hv, fun c hc => h2 ▸ hlt c hc, hwf⟩
      · have : Memory.set (cell :: m) a v = cell :: Memory.set m a v := by
          simp only [Memory.set]; rw [if_neg h1, if_neg h2]
        rw [this]
        refine Memory.wf_cons.2 ⟨hne, ?_, ih hwf⟩
        intro c hc
        rcases Memory.mem_set hc with rfl | hc
        · have : cell.1 < a := by omega
          exact this
        · exact hlt c hc

/-! ### One entry -/

theorem Memory.wf_store {m : Memory} (hm : Memory.wf m = true) (a : Nat) (v : Word) :
    Memory.wf (Memory.store m a v) = true :=
  Memory.wf_set (Memory.wf_set (Memory.wf_set (Memory.wf_set hm _ _) _ _) _ _) _ _

theorem Memory.mem_store {m : Memory} {a : Nat} {v : Word} {c : Host.Cell} (h : c ∈ Memory.store m a v) :
    (a ≤ c.1 ∧ c.1 < a + 4) ∨ c ∈ m := by
  rcases Memory.mem_set h with rfl | h
  · left; simp
  rcases Memory.mem_set h with rfl | h
  · left; simp
  rcases Memory.mem_set h with rfl | h
  · left; simp
  rcases Memory.mem_set h with rfl | h
  · left; simp
  · exact .inr h

/-- Reading any byte after a whole-entry write: one of the entry's four bytes, or the byte as it was. -/
theorem Memory.get_store {m : Memory} (hm : Memory.wf m = true) (a : Nat) (v : Word) (b : Nat) :
    Memory.get (Memory.store m a v) b =
      if a ≤ b ∧ b < a + 4 then Word.byte v (b - a) else Memory.get m b := by
  have h0 := Memory.wf_set hm a (Word.byte v 0)
  have h1 := Memory.wf_set h0 (a + 1) (Word.byte v 1)
  have h2 := Memory.wf_set h1 (a + 2) (Word.byte v 2)
  unfold Memory.store
  by_cases e3 : b = a + 3
  · subst e3; rw [Memory.get_set_same h2]; simp
  rw [Memory.get_set_other _ _ e3]
  by_cases e2 : b = a + 2
  · subst e2; rw [Memory.get_set_same h1]; simp
  rw [Memory.get_set_other _ _ e2]
  by_cases e1 : b = a + 1
  · subst e1; rw [Memory.get_set_same h0]; simp
  rw [Memory.get_set_other _ _ e1]
  by_cases e0 : b = a
  · subst e0; rw [Memory.get_set_same hm]; simp
  rw [Memory.get_set_other _ _ e0, if_neg (by omega)]

/-- A whole-entry write leaves every byte outside the entry alone; this needs no canonical form. -/
theorem Memory.get_store_outside (m : Memory) {a b : Nat} (v : Word) (h : b < a ∨ a + 4 ≤ b) :
    Memory.get (Memory.store m a v) b = Memory.get m b := by
  unfold Memory.store
  rw [Memory.get_set_other _ _ (by omega), Memory.get_set_other _ _ (by omega), Memory.get_set_other _ _ (by omega),
    Memory.get_set_other _ _ (by omega)]

/-! ### The views -/

/-- The four bytes of an assembled word are the bytes it is made of (20_memory.md R53). -/
theorem Word.byte_ofBytes (b3 b2 b1 b0 : Byte) :
    Word.byte (Word.ofBytes b3 b2 b1 b0) 0 = b0 ∧ Word.byte (Word.ofBytes b3 b2 b1 b0) 1 = b1 ∧
      Word.byte (Word.ofBytes b3 b2 b1 b0) 2 = b2 ∧ Word.byte (Word.ofBytes b3 b2 b1 b0) 3 = b3 := by
  refine ⟨?_, ?_, ?_, ?_⟩ <;>
    · apply BitVec.eq_of_getLsbD_eq
      intro i hi
      simp only [Word.byte, Word.ofBytes, BitVec.getLsbD_extractLsb', BitVec.getLsbD_append]
      interval_cases i <;> simp

/-- A word is the assembly of its four bytes. -/
theorem Word.ofBytes_byte (v : Word) :
    Word.ofBytes (Word.byte v 3) (Word.byte v 2) (Word.byte v 1) (Word.byte v 0) = v := by
  apply BitVec.eq_of_getLsbD_eq
  intro i hi
  simp only [Word.byte, Word.ofBytes, BitVec.getLsbD_extractLsb', BitVec.getLsbD_append]
  interval_cases i <;> simp

/-- Every index of the byte view has a byte. -/
theorem frameByte_isSome {c : Config} {a : Nat} (m : Memory) (h : a < c.frameBytes) : (frameByte c m a).isSome = true := by
  unfold frameByte
  split
  · rfl
  split
  · rfl
  · rfl

theorem frameByte_start (c : Config) (m : Memory) {a : Nat} (h : a < 4) : frameByte c m a = some 0x00 := by
  simp [frameByte, h]

theorem frameByte_active {c : Config} (m : Memory) {a : Nat} (h1 : 4 ≤ a) (h2 : a < 4 * (c.n + 1)) :
    frameByte c m a = some (Memory.get m a) := by
  unfold frameByte; rw [if_neg (by omega), if_pos h2]

theorem frameByte_end {c : Config} (m : Memory) {a : Nat} (h1 : 4 * (c.n + 1) ≤ a) (h2 : a < c.frameBytes) :
    frameByte c m a = some 0xFF := by
  unfold frameByte; rw [if_neg (by omega), if_neg (by omega), if_pos h2]

theorem frameByte_none {c : Config} (m : Memory) {a : Nat} (h : c.frameBytes ≤ a) : frameByte c m a = none := by
  have : c.frameBytes = 4 * (c.n + 2) := rfl
  unfold frameByte; rw [if_neg (by omega), if_neg (by omega), if_neg (by omega)]

/-- An entry of the word view and its four bytes (20_memory.md R53). -/
theorem frameWord_eq_some {c : Config} {m : Memory} {w : Nat} {v : Word} :
    frameWord c m w = some v ↔
      frameByte c m (4 * w) = some (Word.byte v 0) ∧ frameByte c m (4 * w + 1) = some (Word.byte v 1) ∧
        frameByte c m (4 * w + 2) = some (Word.byte v 2) ∧ frameByte c m (4 * w + 3) = some (Word.byte v 3) := by
  unfold frameWord
  constructor
  · intro h
    split at h
    · rename_i b0 b1 b2 b3 h0 h1 h2 h3
      obtain ⟨e0, e1, e2, e3⟩ := Word.byte_ofBytes b3 b2 b1 b0
      cases h
      rw [h0, h1, h2, h3, e0, e1, e2, e3]
      simp
    · cases h
  · rintro ⟨h0, h1, h2, h3⟩
    rw [h0, h1, h2, h3]
    simp [Word.ofBytes_byte]

/-- Every index of the word view has an entry. -/
theorem frameWord_isSome {c : Config} {w : Nat} (m : Memory) (h : w < c.entries) : ∃ v, frameWord c m w = some v := by
  have hb : 4 * w + 3 < c.frameBytes := by
    simp only [Config.entries, Config.frameBytes] at *; omega
  obtain ⟨b0, h0⟩ := Option.isSome_iff_exists.1 (frameByte_isSome m (show 4 * w < c.frameBytes by omega))
  obtain ⟨b1, h1⟩ := Option.isSome_iff_exists.1 (frameByte_isSome m (show 4 * w + 1 < c.frameBytes by omega))
  obtain ⟨b2, h2⟩ := Option.isSome_iff_exists.1 (frameByte_isSome m (show 4 * w + 2 < c.frameBytes by omega))
  obtain ⟨b3, h3⟩ := Option.isSome_iff_exists.1 (frameByte_isSome m hb)
  exact ⟨_, by unfold frameWord; rw [h0, h1, h2, h3]⟩

/-- Reading byte `b` of the byte view after a PIX_WRITE to active-window index `i` (41_frame.md R121). -/
theorem frameByte_store {c : Config} {m : Memory} (hm : Memory.wf m = true) {i : Nat} (hi : i < c.n) (v : Word) (b : Nat) :
    frameByte c (Memory.store m (activeAddress i) v) b =
      if activeAddress i ≤ b ∧ b < activeAddress i + 4 then some (Word.byte v (b - activeAddress i)) else frameByte c m b := by
  unfold activeAddress
  by_cases hin : 4 * (i + 1) ≤ b ∧ b < 4 * (i + 1) + 4
  · rw [if_pos hin, frameByte_active _ (by omega) (by omega), Memory.get_store hm, if_pos hin]
  · rw [if_neg hin]
    unfold frameByte
    rw [Memory.get_store_outside _ _ (by omega)]

/-- A PIX_WRITE leaves every byte outside its entry alone, whatever the stored bytes are. -/
theorem frameByte_store_outside (c : Config) (m : Memory) (v : Word) {a b : Nat} (h : b < a ∨ a + 4 ≤ b) :
    frameByte c (Memory.store m a v) b = frameByte c m b := by
  unfold frameByte
  rw [Memory.get_store_outside _ _ h]

/-- The entry a PIX_WRITE stored reads back whole. -/
theorem frameWord_store_same {c : Config} {m : Memory} (hm : Memory.wf m = true) {i : Nat} (hi : i < c.n) (v : Word) :
    frameWord c (Memory.store m (activeAddress i) v) (i + 1) = some v := by
  rw [frameWord_eq_some]
  refine ⟨?_, ?_, ?_, ?_⟩ <;> rw [frameByte_store hm hi, if_pos (by unfold activeAddress; omega)] <;>
    simp [activeAddress]

/-- Every other entry reads as before. -/
theorem frameWord_store_other (c : Config) (m : Memory) (v : Word) {i w : Nat} (h : w ≠ i + 1) :
    frameWord c (Memory.store m (activeAddress i) v) w = frameWord c m w := by
  unfold frameWord activeAddress
  rw [frameByte_store_outside c m v (by omega), frameByte_store_outside c m v (by omega),
    frameByte_store_outside c m v (by omega), frameByte_store_outside c m v (by omega)]

end Sys2Proof.Machine
end

