-- ==== Sys2Proof/Laws/Exec.lean ====
section
/-! SUPPORT. What the acceptance edge of each command does, one lemma per case of each meaning, and everything an
acceptance edge can do at all. -/

namespace Sys2Proof.Machine

/-! ### The meanings, case by case -/

theorem execPoll_out {s : State} {k : Nat} (h : s.cfg.numInputs ≤ k) :
    execPoll k s = .next (raiseFatal .indexRange s) := by
  simp [execPoll, channelInRange, Nat.not_lt.2 h]

theorem execPoll_in {s : State} {k : Nat} (h : k < s.cfg.numInputs) {ch : Channel} (hc : s.deb[k]? = some ch) :
    execPoll k s = .next
      (({ background s with
          deb := (background s).deb.set k
            (channelPolled (settleOf s.cfg k) (s.input.rawIn.getLsbD k) s.input.tick ch) } : State).respond .ok
        (pollWord (pollChanged (settleOf s.cfg k) ch) (pollLevel (settleOf s.cfg k) ch))) := by
  simp [execPoll, channelInRange, h, hc]

theorem execPixWrite_brightness {s : State} {i r g b br : Nat} (h : 32 ≤ br) :
    execPixWrite i r g b br s = .next (raiseFatal .brightnessRange s) := by
  simp [execPixWrite, brightnessInRange, Nat.not_lt.2 h]

theorem execPixWrite_index {s : State} {i r g b br : Nat} (hb : br < 32) (h : s.cfg.n ≤ i) :
    execPixWrite i r g b br s = .next (raiseFatal .indexRange s) := by
  simp [execPixWrite, brightnessInRange, activeInRange, hb, Nat.not_lt.2 h]

theorem execPixWrite_in {s : State} {i r g b br : Nat} (hb : br < 32) (h : i < s.cfg.n) :
    execPixWrite i r g b br s = .next
      (({ background s with
          frame := Memory.store s.frame (activeAddress i) (encodePixel r g b br) } : State).respond .ok 0) := by
  simp [execPixWrite, brightnessInRange, activeInRange, hb, h]

theorem execRdWord_out {s : State} {w : Nat} (h : s.cfg.n + 2 ≤ w) :
    execRdWord w s = .next (raiseFatal .indexRange s) := by
  simp [execRdWord, wordInRange, Config.entries, Nat.not_lt.2 h]

theorem execRdWord_in {s : State} {w : Nat} (h : w < s.cfg.n + 2) {v : Word} (hv : frameWord s.cfg s.frame w = some v) :
    execRdWord w s = .next ((background s).respond .ok v) := by
  simp [execRdWord, wordInRange, Config.entries, h, hv]

theorem execRdByte_out {s : State} {a : Nat} (h : s.cfg.frameBytes ≤ a) :
    execRdByte a s = .next (raiseFatal .indexRange s) := by
  simp [execRdByte, byteInRange, Nat.not_lt.2 h]

theorem execRdByte_in {s : State} {a : Nat} (h : a < s.cfg.frameBytes) {v : Byte}
    (hv : frameByte s.cfg s.frame a = some v) :
    execRdByte a s = .next ((background s).respond .ok (v.zeroExtend 32)) := by
  simp [execRdByte, byteInRange, h, hv]

/-! ### Everything an acceptance edge can do -/

/-- Everything the acceptance edge of a legal command can do. -/
theorem exec_cases {i : Instr} {s t : State} (h : exec i s = .next t) :
    (∃ c, t = raiseFatal c s) ∨
    (∃ d, t = (background s).respond .ok d) ∨
    (∃ k ch, i = .poll k ∧ k < s.cfg.numInputs ∧ s.deb[k]? = some ch ∧
      t = ({ background s with
          deb := (background s).deb.set k
            (channelPolled (settleOf s.cfg k) (s.input.rawIn.getLsbD k) s.input.tick ch) } : State).respond .ok
        (pollWord (pollChanged (settleOf s.cfg k) ch) (pollLevel (settleOf s.cfg k) ch))) ∨
    (∃ n r g b br, i = .pixWrite n r g b br ∧ br < 32 ∧ n < s.cfg.n ∧
      t = ({ background s with
          frame := Memory.store s.frame (activeAddress n) (encodePixel r g b br) } : State).respond .ok 0) ∨
    (∃ dly, i = .sendBb dly ∧
      t = { background s with
        tx := { s.tx with state := .bbClkLo, j := 0, b := 7, d := delayCycles s.cfg dly, w := 0 } }) ∨
    (∃ ign, i = .sendPer ign ∧ t = { background s with tx := { s.tx with state := .perXfer, j := 0, t := 0 } }) := by
  cases i with
  | nop => cases h; exact .inr (.inl ⟨_, rfl⟩)
  | rdStatus => cases h; exact .inr (.inl ⟨_, rfl⟩)
  | sendBb dly => cases h; exact .inr (.inr (.inr (.inr (.inl ⟨dly, rfl, rfl⟩))))
  | sendPer ign => cases h; exact .inr (.inr (.inr (.inr (.inr ⟨ign, rfl, rfl⟩))))
  | poll k =>
    by_cases hk : k < s.cfg.numInputs
    · cases hc : s.deb[k]? with
      | none => simp [exec, execPoll, channelInRange, hk, hc] at h
      | some ch =>
        rw [show exec (.poll k) s = execPoll k s from rfl, execPoll_in hk hc] at h
        cases h
        exact .inr (.inr (.inl ⟨k, ch, rfl, hk, hc, rfl⟩))
    · rw [show exec (.poll k) s = execPoll k s from rfl, execPoll_out (Nat.le_of_not_lt hk)] at h
      cases h
      exact .inl ⟨_, rfl⟩
  | pixWrite n r g b br =>
    rw [show exec (.pixWrite n r g b br) s = execPixWrite n r g b br s from rfl] at h
    by_cases hb : br < 32
    · by_cases hn : n < s.cfg.n
      · rw [execPixWrite_in hb hn] at h
        cases h
        exact .inr (.inr (.inr (.inl ⟨n, r, g, b, br, rfl, hb, hn, rfl⟩)))
      · rw [execPixWrite_index hb (Nat.le_of_not_lt hn)] at h
        cases h
        exact .inl ⟨_, rfl⟩
    · rw [execPixWrite_brightness (Nat.le_of_not_lt hb)] at h
      cases h
      exact .inl ⟨_, rfl⟩
  | rdWord w =>
    rw [show exec (.rdWord w) s = execRdWord w s from rfl] at h
    unfold execRdWord at h
    split at h
    · split at h
      · cases h; exact .inr (.inl ⟨_, rfl⟩)
      · cases h
    · cases h; exact .inl ⟨_, rfl⟩
  | rdByte a =>
    rw [show exec (.rdByte a) s = execRdByte a s from rfl] at h
    unfold execRdByte at h
    split at h
    · split at h
      · cases h; exact .inr (.inl ⟨_, rfl⟩)
      · cases h
    · cases h; exact .inl ⟨_, rfl⟩

/-- An acceptance edge stops only where the state holds no channel for an index below NUM_INPUTS (log 7). -/
theorem exec_next {i : Instr} {s : State} (h : s.deb.length = s.cfg.numInputs) : ∃ t, exec i s = .next t := by
  cases i with
  | nop => exact ⟨_, rfl⟩
  | rdStatus => exact ⟨_, rfl⟩
  | sendBb dly => exact ⟨_, rfl⟩
  | sendPer ign => exact ⟨_, rfl⟩
  | poll k =>
    by_cases hk : k < s.cfg.numInputs
    · obtain ⟨ch, hc⟩ : ∃ ch, s.deb[k]? = some ch := ⟨_, List.getElem?_eq_getElem (h ▸ hk)⟩
      exact ⟨_, execPoll_in hk hc⟩
    · exact ⟨_, execPoll_out (Nat.le_of_not_lt hk)⟩
  | pixWrite n r g b br =>
    by_cases hb : br < 32
    · by_cases hn : n < s.cfg.n
      · exact ⟨_, execPixWrite_in hb hn⟩
      · exact ⟨_, execPixWrite_index hb (Nat.le_of_not_lt hn)⟩
    · exact ⟨_, execPixWrite_brightness (Nat.le_of_not_lt hb)⟩
  | rdWord w =>
    by_cases hw : w < s.cfg.n + 2
    · obtain ⟨v, hv⟩ := frameWord_isSome (c := s.cfg) s.frame (show w < s.cfg.entries from hw)
      exact ⟨_, execRdWord_in hw hv⟩
    · exact ⟨_, execRdWord_out (Nat.le_of_not_lt hw)⟩
  | rdByte a =>
    by_cases ha : a < s.cfg.frameBytes
    · obtain ⟨v, hv⟩ := Option.isSome_iff_exists.1 (frameByte_isSome s.frame ha)
      exact ⟨_, execRdByte_in ha hv⟩
    · exact ⟨_, execRdByte_out (Nat.le_of_not_lt ha)⟩

end Sys2Proof.Machine
end

