-- ==== Sys2Proof/Laws/Transmit.lean ====
section
/-! SUPPORT. What each edge of a send can do, said once: the pin write, the waits, the cursor, the transfer. -/

namespace Sys2Proof.Machine

/-! ### The operations -/

/-- A pin write that succeeds (42_transmit.md R143). -/
theorem pinWrite_ok {inp : Input} (h : inp.pinFault = false) (p : Pin) (v : Bool) (f : State → State) (t : State) :
    pinWrite inp p v f t = f (setPin p v t) := by
  simp [pinWrite, h]

/-- A pin write that fails (42_transmit.md R143, R146). -/
theorem pinWrite_fail {inp : Input} (h : inp.pinFault = true) (p : Pin) (v : Bool) (f : State → State) (t : State) :
    pinWrite inp p v f t = finish .pinIoErr .bitBanged (setPin p inp.draw t) := by
  simp [pinWrite, h]

theorem waitOr_none {t : State} (h : t.tx.d = 0) (w : TxState) (f : State → State) : waitOr w f t = f t := by
  simp [waitOr, h]

theorem waitOr_some {t : State} (h : 0 < t.tx.d) (w : TxState) (f : State → State) :
    waitOr w f t = { t with tx := { t.tx with w := t.tx.d, state := w } } := by
  simp [waitOr, h]

theorem waitCycle_last {t : State} (h : t.tx.w = 1) (f : State → State) :
    waitCycle f t = f { t with tx := { t.tx with w := 0 } } := by
  simp [waitCycle, h]

theorem waitCycle_more {t : State} (h : t.tx.w ≠ 1) (f : State → State) :
    waitCycle f t = { t with tx := { t.tx with w := t.tx.w - 1 } } := by
  simp [waitCycle, h]

/-- The next bit of the same byte (42_transmit.md R144). -/
theorem advance_bit {t : State} (h : 0 < t.tx.b.val) :
    advance t = { t with tx := { t.tx with
      b := ⟨t.tx.b.val - 1, Nat.lt_of_le_of_lt (Nat.sub_le _ _) t.tx.b.isLt⟩, state := .bbClkLo } } := by
  simp [advance, h]

/-- The first bit of the next byte (42_transmit.md R144). -/
theorem advance_byte {t : State} (hb : t.tx.b = 0) (hj : t.tx.j < t.cfg.frameBytes - 1) :
    advance t = { t with tx := { t.tx with j := t.tx.j + 1, b := 7, state := .bbClkLo } } := by
  simp [advance, hb, hj]

/-- After the last bit (42_transmit.md R144). -/
theorem advance_end {t : State} (hb : t.tx.b = 0) (hj : ¬ t.tx.j < t.cfg.frameBytes - 1) :
    advance t = goTo .bbEndClk t := by
  simp [advance, hb, hj]

/-- The byte under the read port is there while the cursor is in the byte view (20_memory.md R50). -/
theorem txByte_isSome {s : State} (h : s.tx.j < s.cfg.frameBytes) : ∃ v, txByte s = some v :=
  Option.isSome_iff_exists.1 (frameByte_isSome s.frame h)

/-! ### The edges by state -/

theorem txEdge_idle {s : State} (h : s.tx.state = .idle) : txEdge s = .next (background s) := by
  unfold txEdge; rw [h]

theorem txEdge_clkLo {s : State} (h : s.tx.state = .bbClkLo) :
    txEdge s = .next (pinWrite s.input .clk false (goTo .bbDat) (background s)) := by
  unfold txEdge; rw [h]; rfl

theorem txEdge_dat {s : State} (h : s.tx.state = .bbDat) {v : Byte} (hv : txByte s = some v) :
    txEdge s = .next (pinWrite s.input .dat (v.getLsbD s.tx.b.val) (waitOr .bbWait1 (goTo .bbClkHi)) (background s)) := by
  unfold txEdge; rw [h]; simp only [edgeDat, hv]

theorem txEdge_wait1 {s : State} (h : s.tx.state = .bbWait1) :
    txEdge s = .next (waitCycle (goTo .bbClkHi) (background s)) := by
  unfold txEdge; rw [h]; rfl

theorem txEdge_clkHi {s : State} (h : s.tx.state = .bbClkHi) :
    txEdge s = .next (pinWrite s.input .clk true (waitOr .bbWait2 advance) (background s)) := by
  unfold txEdge; rw [h]; rfl

theorem txEdge_wait2 {s : State} (h : s.tx.state = .bbWait2) :
    txEdge s = .next (waitCycle advance (background s)) := by
  unfold txEdge; rw [h]; rfl

theorem txEdge_endClk {s : State} (h : s.tx.state = .bbEndClk) :
    txEdge s = .next (pinWrite s.input .clk true (goTo .bbEndDat) (background s)) := by
  unfold txEdge; rw [h]; rfl

theorem txEdge_endDat {s : State} (h : s.tx.state = .bbEndDat) :
    txEdge s = .next (pinWrite s.input .dat true (finish .ok .bitBanged) (background s)) := by
  unfold txEdge; rw [h]; rfl

theorem txEdge_perXfer {s : State} (h : s.tx.state = .perXfer) {v : Byte} (hv : txByte s = some v) :
    txEdge s = .next (
      if s.input.perReady && s.input.perErr then finish .perIoErr .clockedPeripheral (background s)
      else if s.input.perReady && decide (s.tx.j = s.cfg.frameBytes - 1) then
        finish .ok .clockedPeripheral (background s)
      else if s.cfg.perTimeout ≤ s.tx.t + 1 then finish .perTimeout .clockedPeripheral (background s)
      else { background s with tx := { s.tx with
        j := if s.input.perReady then s.tx.j + 1 else s.tx.j, t := s.tx.t + 1 } }) := by
  unfold txEdge; rw [h]; simp only [edgePerXfer, hv]; rfl

/-! ### What every edge of a send leaves alone -/

/-- Fields no edge of the transmitter writes: the parameters and the frame, the fatal state, and the channels, which only
run their background (42_transmit.md R162). -/
structure SendKeeps (s t : State) : Prop where
  cfg    : t.cfg = s.cfg
  frame  : t.frame = s.frame
  ftl    : t.ftl = s.ftl
  deb    : t.deb = channelsEdge s.cfg s.input s.deb
  inputs : t.inputs = s.inputs.tail
  cycle  : t.cycle = s.cycle + 1

theorem sendKeeps_background (s : State) : SendKeeps s (background s) := ⟨rfl, rfl, rfl, rfl, rfl, rfl⟩

theorem SendKeeps.finish {s t : State} (h : SendKeeps s t) (r : SendResult) (v : Variant) :
    SendKeeps s (finish r v t) := ⟨h.1, h.2, h.3, h.4, h.5, h.6⟩

theorem SendKeeps.setPin {s t : State} (h : SendKeeps s t) (p : Pin) (v : Bool) : SendKeeps s (setPin p v t) := by
  cases p <;> exact ⟨h.1, h.2, h.3, h.4, h.5, h.6⟩

theorem SendKeeps.tx {s t : State} (h : SendKeeps s t) (tx : Transmitter) : SendKeeps s { t with tx := tx } :=
  ⟨h.1, h.2, h.3, h.4, h.5, h.6⟩

theorem SendKeeps.goTo {s t : State} (h : SendKeeps s t) (n : TxState) : SendKeeps s (goTo n t) := h.tx _

theorem SendKeeps.advance {s t : State} (h : SendKeeps s t) : SendKeeps s (advance t) := by
  unfold Machine.advance
  split
  · exact h.tx _
  split
  · exact h.tx _
  · exact h.goTo _

theorem SendKeeps.waitOr {s t : State} (h : SendKeeps s t) (w : TxState) {f : State → State}
    (hf : ∀ u, SendKeeps s u → SendKeeps s (f u)) : SendKeeps s (waitOr w f t) := by
  unfold Machine.waitOr
  split
  · exact h.tx _
  · exact hf t h

theorem SendKeeps.waitCycle {s t : State} (h : SendKeeps s t) {f : State → State}
    (hf : ∀ u, SendKeeps s u → SendKeeps s (f u)) : SendKeeps s (waitCycle f t) := by
  unfold Machine.waitCycle
  split
  · exact hf _ (h.tx _)
  · exact h.tx _

theorem SendKeeps.pinWrite {s t : State} (h : SendKeeps s t) (inp : Input) (p : Pin) (v : Bool) {f : State → State}
    (hf : ∀ u, SendKeeps s u → SendKeeps s (f u)) : SendKeeps s (pinWrite inp p v f t) := by
  unfold Machine.pinWrite
  split
  · exact (h.setPin p _).finish _ _
  · exact hf _ (h.setPin p v)

/-- No edge of the transmitter writes the frame, the parameters or the fatal state (42_transmit.md R162). -/
theorem txEdge_keeps {s t : State} (h : txEdge s = .next t) : SendKeeps s t := by
  have hb := sendKeeps_background s
  unfold txEdge at h
  split at h
  · cases h; exact hb
  · cases h; exact hb.pinWrite _ _ _ fun u hu => hu.goTo _
  · unfold edgeDat at h
    split at h
    · cases h
    · cases h; exact hb.pinWrite _ _ _ fun u hu => hu.waitOr _ fun u hu => hu.goTo _
  · cases h; exact hb.waitCycle fun u hu => hu.goTo _
  · cases h; exact hb.pinWrite _ _ _ fun u hu => hu.waitOr _ fun u hu => hu.advance
  · cases h; exact hb.waitCycle fun u hu => hu.advance
  · cases h; exact hb.pinWrite _ _ _ fun u hu => hu.goTo _
  · cases h; exact hb.pinWrite _ _ _ fun u hu => hu.finish _ _
  · unfold edgePerXfer at h
    split at h
    · cases h
    · cases h
      simp only
      split
      · exact hb.finish _ _
      split
      · exact hb.finish _ _
      split
      · exact hb.finish _ _
      · exact hb.tx _

end Sys2Proof.Machine
end

