-- ==== Sys2Proof/Laws/Step.lean ====
section
/-! SUPPORT. Everything a step can do, said once: a reset, the acceptance of an illegal or a legal command, or the
transmitter's edge. -/

namespace Sys2Proof.Machine

/-- `cmd_ready` spelled out (30_encoding.md R80). -/
theorem cmdReady_iff {s : State} :
    cmdReady s = true ↔ s.input.rst = false ∧ s.ftl.fatal = false ∧ s.tx.state = .idle := by
  simp [cmdReady, and_assoc]

theorem accepts_iff {s : State} :
    accepts s = true ↔
      s.input.cmdValid = true ∧ s.input.rst = false ∧ s.ftl.fatal = false ∧ s.tx.state = .idle := by
  simp [accepts, cmdReady, and_assoc]

/-- A send in progress accepts nothing (20_memory.md R61). -/
theorem accepts_eq_false_of_busy {s : State} (h : s.tx.state ≠ .idle) : accepts s = false := by
  simp [accepts, cmdReady, h]

/-- The fatal state accepts nothing (60_exceptions.md R182). -/
theorem accepts_eq_false_of_fatal {s : State} (h : s.ftl.fatal = true) : accepts s = false := by
  simp [accepts, cmdReady, h]

theorem step_of_reset {s : State} (h : s.input.rst = true) : step s = .next (resetEdge s) := by
  simp [step, clockEdge, h]

theorem step_of_command {s : State} (ha : accepts s = true) {i : Instr} (hd : decode s.input.cmd = .ok i) :
    step s = exec i s := by
  obtain ⟨-, hr, -⟩ := accepts_iff.1 ha
  simp [step, clockEdge, hr, ha, commandEdge, commandWord, hd]

theorem step_of_illegal {s : State} (ha : accepts s = true) {e : Reject} (hd : decode s.input.cmd = .error e) :
    step s = .next (raiseFatal .illegalCmd s) := by
  obtain ⟨-, hr, -⟩ := accepts_iff.1 ha
  simp [step, clockEdge, hr, ha, commandEdge, commandWord, hd]

theorem step_of_noCommand {s : State} (hr : s.input.rst = false) (ha : accepts s = false) : step s = txEdge s := by
  simp [step, clockEdge, hr, ha]

/-- Everything a step can do. -/
theorem step_cases {s t : State} (h : step s = .next t) :
    (s.input.rst = true ∧ t = resetEdge s) ∨
    (s.input.rst = false ∧ accepts s = true ∧ (∃ e, decode s.input.cmd = .error e) ∧ t = raiseFatal .illegalCmd s) ∨
    (s.input.rst = false ∧ accepts s = true ∧ ∃ i, decode s.input.cmd = .ok i ∧ exec i s = .next t) ∨
    (s.input.rst = false ∧ accepts s = false ∧ txEdge s = .next t) := by
  cases hr : s.input.rst
  · cases ha : accepts s
    · rw [step_of_noCommand hr ha] at h
      exact .inr (.inr (.inr ⟨rfl, rfl, h⟩))
    · cases hd : decode s.input.cmd with
      | error e =>
        rw [step_of_illegal ha hd] at h
        cases h
        exact .inr (.inl ⟨rfl, rfl, ⟨e, rfl⟩, rfl⟩)
      | ok i =>
        rw [step_of_command ha hd] at h
        exact .inr (.inr (.inl ⟨rfl, rfl, i, rfl, h⟩))
  · rw [step_of_reset hr] at h
    cases h
    exact .inl ⟨rfl, rfl⟩

end Sys2Proof.Machine
end

