-- ==== Sys2Proof/Laws/Run.lean ====
section
/-! SUPPORT. Runs: one step at a time, two runs joined, and the states a run goes through. -/

namespace Sys2Proof.Machine

theorem run_zero (s : State) : Sys2Proof.core.run 0 s = .next s := rfl

/-- One step of a run of any core. -/
theorem core_run_succ (M : Host.Core) (k : Nat) (s : M.State) :
    M.run (k + 1) s = (match M.step s with
      | .next t => M.run k t
      | .fault r => .fault r
      | .refused r => .refused r) := by
  cases h : M.step s <;> simp [Host.Core.run, h]

theorem run_succ {s t : State} (h : step s = .next t) (k : Nat) :
    Sys2Proof.core.run (k + 1) s = Sys2Proof.core.run k t := by
  have h' : Sys2Proof.core.step s = .next t := h
  exact (core_run_succ Sys2Proof.core k s).trans (by rw [h'])

/-- A run of at least one step begins with a step that answers next. -/
theorem run_succ_inv {s t : State} {k : Nat} (h : Sys2Proof.core.run (k + 1) s = .next t) :
    ∃ u, step s = .next u ∧ Sys2Proof.core.run k u = .next t := by
  have hrun := (core_run_succ Sys2Proof.core k s).symm.trans h
  cases hs : step s with
  | next u => exact ⟨u, rfl, by rw [← run_succ hs]; exact h⟩
  | fault r =>
    have h' : Sys2Proof.core.step s = .fault r := hs
    rw [h'] at hrun
    cases hrun
  | refused r =>
    have h' : Sys2Proof.core.step s = .refused r := hs
    rw [h'] at hrun
    cases hrun

theorem run_one {s t : State} : Sys2Proof.core.run 1 s = .next t ↔ step s = .next t := by
  constructor
  · intro h
    obtain ⟨u, hu, h⟩ := run_succ_inv h
    cases h
    exact hu
  · intro h
    rw [run_succ h, run_zero]

/-- Two runs joined. -/
theorem run_add {s t : State} {m : Nat} (h : Sys2Proof.core.run m s = .next t) (n : Nat) :
    Sys2Proof.core.run (m + n) s = Sys2Proof.core.run n t := by
  induction m generalizing s with
  | zero => cases h; simp
  | succ m ih =>
    obtain ⟨u, hu, h⟩ := run_succ_inv h
    rw [show m + 1 + n = (m + n) + 1 by omega, run_succ hu, ih h]

/-- A run cut in two. -/
theorem run_add_inv {s t : State} {m n : Nat} (h : Sys2Proof.core.run (m + n) s = .next t) :
    ∃ u, Sys2Proof.core.run m s = .next u ∧ Sys2Proof.core.run n u = .next t := by
  induction m generalizing s with
  | zero => exact ⟨s, rfl, by simpa using h⟩
  | succ m ih =>
    rw [show m + 1 + n = (m + n) + 1 by omega] at h
    obtain ⟨v, hv, h⟩ := run_succ_inv h
    obtain ⟨u, hu, h⟩ := ih h
    exact ⟨u, by rw [run_succ hv]; exact hu, h⟩

@[simp] theorem cycles_zero (s : State) : cycles 0 s = [] := rfl

theorem cycles_succ {s t : State} (h : step s = .next t) (k : Nat) : cycles (k + 1) s = s :: cycles k t := by
  simp [cycles, h]

theorem trace_succ {s t : State} (h : step s = .next t) (k : Nat) : trace (k + 1) s = s :: trace k t := by
  simp [trace, h]

theorem cycles_add {s t : State} {m : Nat} (h : Sys2Proof.core.run m s = .next t) (n : Nat) :
    cycles (m + n) s = cycles m s ++ cycles n t := by
  induction m generalizing s with
  | zero => cases h; simp
  | succ m ih =>
    obtain ⟨u, hu, h⟩ := run_succ_inv h
    rw [show m + 1 + n = (m + n) + 1 by omega, cycles_succ hu, cycles_succ hu, ih h]
    rfl

theorem trace_add {s t : State} {m : Nat} (h : Sys2Proof.core.run m s = .next t) (n : Nat) :
    trace (m + n) s = cycles m s ++ trace n t := by
  induction m generalizing s with
  | zero => cases h; simp
  | succ m ih =>
    obtain ⟨u, hu, h⟩ := run_succ_inv h
    rw [show m + 1 + n = (m + n) + 1 by omega, trace_succ hu, cycles_succ hu, ih h]
    rfl

/-- The states of a run are those of its cycles and the last one. -/
theorem trace_eq {s t : State} {m : Nat} (h : Sys2Proof.core.run m s = .next t) : trace m s = cycles m s ++ [t] := by
  simpa [trace] using trace_add h 0

/-- What holds at the first state and is kept by every step of the run holds at the last one. -/
theorem run_induct {P : State → Prop} {m : Nat} {s t : State} (h : Sys2Proof.core.run m s = .next t) (h0 : P s)
    (hstep : ∀ u v, u ∈ cycles m s → step u = .next v → P u → P v) : P t := by
  induction m generalizing s with
  | zero => cases h; exact h0
  | succ m ih =>
    obtain ⟨u, hu, h⟩ := run_succ_inv h
    rw [cycles_succ hu] at hstep
    exact ih h (hstep s u (by simp) hu h0) fun v w hv => hstep v w (by simp [hv])

/-! ### The channels over one step -/

/-- What a step that is no reset does to the channels: they run, and an accepted POLL updates its own. -/
theorem step_deb {s t : State} (h : step s = .next t) (hr : s.input.rst = false) :
    t.deb = channelsEdge s.cfg s.input s.deb ∨
    ∃ k ch, accepts s = true ∧ decode s.input.cmd = .ok (.poll k) ∧ k < s.cfg.numInputs ∧ s.deb[k]? = some ch ∧
      t.deb = (channelsEdge s.cfg s.input s.deb).set k
        (channelPolled (settleOf s.cfg k) (s.input.rawIn.getLsbD k) s.input.tick ch) := by
  rcases step_cases h with ⟨hr', -⟩ | ⟨-, -, -, rfl⟩ | ⟨-, ha, i, hd, he⟩ | ⟨-, -, ht⟩
  · simp [hr] at hr'
  · exact .inl rfl
  · rcases exec_cases he with ⟨c, rfl⟩ | ⟨d, rfl⟩ | ⟨k, ch, rfl, hk, hc, rfl⟩ | ⟨n, r, g, b, br, rfl, -, -, rfl⟩ |
      ⟨dly, rfl, rfl⟩ | ⟨ign, rfl, rfl⟩
    · exact .inl rfl
    · exact .inl rfl
    · exact .inr ⟨k, ch, ha, hd, hk, hc, rfl⟩
    · exact .inl rfl
    · exact .inl rfl
    · exact .inl rfl
  · exact .inl (txEdge_keeps ht).deb

end Sys2Proof.Machine
end

