-- ==== Sys2Proof/Laws/Edges.lean ====
section
/-! SUPPORT. Every edge of a busy transmitter, said once: it finishes or stays busy; where the cursor goes. -/

namespace Sys2Proof.Machine

/-- No command changes the parameters. -/
theorem exec_cfg {i : Instr} {s t : State} (h : exec i s = .next t) : t.cfg = s.cfg := by
  rcases exec_cases h with ⟨c, rfl⟩ | ⟨d, rfl⟩ | ⟨k, ch, rfl, hk, hc, rfl⟩ | ⟨n, r, g, b, br, rfl, -, -, rfl⟩ |
      ⟨dly, rfl, rfl⟩ | ⟨ign, rfl, rfl⟩ <;> rfl

/-- No step changes the parameters (10_state.md R38). -/
theorem step_cfg {s t : State} (h : step s = .next t) : t.cfg = s.cfg := by
  rcases step_cases h with ⟨-, rfl⟩ | ⟨-, -, -, rfl⟩ | ⟨-, ha, i, hd, he⟩ | ⟨-, -, ht⟩
  · rfl
  · rfl
  · exact exec_cfg he
  · exact (txEdge_keeps ht).cfg

/-- Every step takes one cycle's inputs. -/
theorem step_inputs {s t : State} (h : step s = .next t) : t.inputs = s.inputs.tail := by
  rcases step_cases h with ⟨-, rfl⟩ | ⟨-, -, -, rfl⟩ | ⟨-, ha, i, hd, he⟩ | ⟨-, -, ht⟩
  · rfl
  · rfl
  · rcases exec_cases he with ⟨c, rfl⟩ | ⟨d, rfl⟩ | ⟨k, ch, rfl, hk, hc, rfl⟩ | ⟨n, r, g, b, br, rfl, -, -, rfl⟩ |
      ⟨dly, rfl, rfl⟩ | ⟨ign, rfl, rfl⟩ <;> rfl
  · exact (txEdge_keeps ht).inputs

/-- No run changes the parameters. -/
theorem run_cfg {m} {s t : State} (h : Sys2Proof.core.run m s = .next t) : t.cfg = s.cfg :=
  run_induct (P := fun u => u.cfg = s.cfg) h rfl fun _ _ _ hs hp => (step_cfg hs).trans hp

/-- Channel `k` over a step that is no reset: it runs its background, or its own POLL updates it. -/
theorem chan_step {s t : State} {k : Nat} {ch : Channel} (h : step s = .next t) (hr : s.input.rst = false) (hc :
    s.deb[k]? = some ch) :
   t.deb[k]? = some (channelEdge (settleOf s.cfg k) (s.input.rawIn.getLsbD k) s.input.tick ch) ∨
   (accepts s = true ∧ decode s.input.cmd = .ok (.poll k) ∧ k < s.cfg.numInputs ∧ t.deb[k]? = some (channelPolled
       (settleOf s.cfg k) (s.input.rawIn.getLsbD k) s.input.tick ch)) := by
  rcases step_deb h hr with h | ⟨q, c, ha, hd, hq, hqc, h⟩
  · left; rw [h, channelsEdge_getElem?, hc]; rfl
  · by_cases hk : q = k
    · subst hk
      right
      refine ⟨ha, hd, hq, ?_⟩
      rw [h, List.getElem?_set_self (by simpa using (List.getElem?_eq_some_iff.1 hc).1)]
      rw [hc] at hqc; cases hqc; rfl
    · left; rw [h, List.getElem?_set_ne hk, channelsEdge_getElem?, hc]; rfl

/-- A step of a busy transmitter outside reset is its edge. -/
theorem step_busy {s : State} (hr : s.input.rst = false) (h : s.tx.state ≠ .idle) : step s = txEdge s :=
  step_of_noCommand hr (accepts_eq_false_of_busy h)

/-- The bit under the read port comes from the byte under it. -/
theorem txBit_some {s : State} {v} (h : txBit s = some v) : ∃ x, txByte s = some x ∧ x.getLsbD s.tx.b.val = v := by
  unfold txBit at h
  cases hx : txByte s with
  | none => rw [hx] at h; cases h
  | some x => rw [hx] at h; exact ⟨x, rfl, by simpa using h⟩

/-- What an edge of a busy transmitter can be: a completion, or one more busy cycle. -/
inductive EdgeShape (s t : State) : Prop
  | fin (r : SendResult) (v : Variant) (u : State) (h : t = finish r v u) (hv : v = if s.tx.state = .perXfer then
      .clockedPeripheral else .bitBanged)
     (hr1 : s.tx.state = .perXfer ∨ r = .ok ∨ r = .pinIoErr) (hr2 : s.tx.state ≠ .perXfer ∨ r ≠ .pinIoErr)
  | busy (h1 : t.tx.state ≠ .idle) (h2 : t.rsp = { s.rsp with valid := false }) (h3 : t.stat = s.stat)

/-- After `advance` the transmitter is still busy. -/
theorem advance_busy (t : State) : (advance t).tx.state ≠ .idle := by
  unfold advance
  split
  · simp
  split <;> simp [goTo]

/-- Every edge of a busy transmitter completes the send or stays busy (42_transmit.md R146, R148, R153). -/
theorem txEdge_shape {s t : State} (hb : s.tx.state ≠ .idle) (h : txEdge s = .next t) : EdgeShape s t := by
  cases hst : s.tx.state with
  | idle => exact absurd hst hb
  | bbClkLo =>
    rw [txEdge_clkLo hst] at h; cases h
    cases hp : s.input.pinFault
    · rw [pinWrite_ok hp]; exact .busy (by simp) rfl rfl
    · rw [pinWrite_fail hp]; exact .fin _ _ _ rfl (by simp [hst]) (by simp) (by simp [hst])
  | bbDat =>
    unfold txEdge at h; rw [hst] at h
    simp only [edgeDat] at h
    split at h
    · cases h
    cases h
    cases hp : s.input.pinFault
    · rw [pinWrite_ok hp]
      unfold waitOr
      split
      · exact .busy (by simp) rfl rfl
      · exact .busy (by simp) rfl rfl
    · rw [pinWrite_fail hp]; exact .fin _ _ _ rfl (by simp [hst]) (by simp) (by simp [hst])
  | bbWait1 =>
    rw [txEdge_wait1 hst] at h; cases h
    unfold waitCycle
    split
    · exact .busy (by simp) rfl rfl
    · exact .busy (by simp [hst]) rfl rfl
  | bbClkHi =>
    rw [txEdge_clkHi hst] at h; cases h
    cases hp : s.input.pinFault
    · rw [pinWrite_ok hp]
      unfold waitOr
      split
      · exact .busy (by simp) rfl rfl
      · exact .busy (advance_busy _) (by simp) (by simp)
    · rw [pinWrite_fail hp]; exact .fin _ _ _ rfl (by simp [hst]) (by simp) (by simp [hst])
  | bbWait2 =>
    rw [txEdge_wait2 hst] at h; cases h
    unfold waitCycle
    split
    · exact .busy (advance_busy _) (by simp) (by simp)
    · exact .busy (by simp [hst]) rfl rfl
  | bbEndClk =>
    rw [txEdge_endClk hst] at h; cases h
    cases hp : s.input.pinFault
    · rw [pinWrite_ok hp]; exact .busy (by simp) rfl rfl
    · rw [pinWrite_fail hp]; exact .fin _ _ _ rfl (by simp [hst]) (by simp) (by simp [hst])
  | bbEndDat =>
    rw [txEdge_endDat hst] at h; cases h
    cases hp : s.input.pinFault
    · rw [pinWrite_ok hp]; exact .fin _ _ _ rfl (by simp [hst]) (by simp) (by simp [hst])
    · rw [pinWrite_fail hp]; exact .fin _ _ _ rfl (by simp [hst]) (by simp) (by simp [hst])
  | perXfer =>
    unfold txEdge at h; rw [hst] at h
    simp only [edgePerXfer] at h
    split at h
    · cases h
    cases h
    split
    · exact .fin _ _ _ rfl (by simp [hst]) (by simp [hst]) (by simp)
    split
    · exact .fin _ _ _ rfl (by simp [hst]) (by simp [hst]) (by simp)
    split
    · exact .fin _ _ _ rfl (by simp [hst]) (by simp [hst]) (by simp)
    · exact .busy (by simp [hst]) rfl rfl

theorem fin_zero_or (b : Fin 8) : b = 0 ∨ 0 < b.val := by omega

/-- What `advance` does to the cursor (42_transmit.md R144). -/
theorem advance_spec (t : State) : t.tx.j ≤ (advance t).tx.j ∧
      (0 < t.tx.b.val → (advance t).tx.b.val = t.tx.b.val - 1 ∧ (advance t).tx.j = t.tx.j ∧ (advance t).tx.state =
          .bbClkLo) ∧
      (t.tx.b = 0 → t.tx.j < 4 * (t.cfg.n + 2) - 1 →
        (advance t).tx.j = t.tx.j + 1 ∧ (advance t).tx.b = 7 ∧ (advance t).tx.state = .bbClkLo) ∧
      (t.tx.b = 0 → 4 * (t.cfg.n + 2) - 1 ≤ t.tx.j → (advance t).tx.j = t.tx.j ∧ (advance t).tx.b = 0 ∧ (advance
          t).tx.state = .bbEndClk) := by
  rcases fin_zero_or t.tx.b with hb | hb
  · by_cases hj : t.tx.j < t.cfg.frameBytes - 1
    · rw [advance_byte hb hj]
      unfold Config.frameBytes at hj
      simp [hb]; omega
    · rw [advance_end hb hj]
      unfold Config.frameBytes at hj
      simp [hb]; omega
  · rw [advance_bit hb]
    have : t.tx.b ≠ 0 := by intro h; rw [h] at hb; simp at hb
    simp [hb, this]

/-- The last bit of the frame is 1 (42_transmit.md R147). -/
theorem last_bit {s : State} {v : Bool} (hb : s.tx.b = 0) (hj : s.tx.j = s.cfg.frameBytes - 1) (h : txBit s = some v)
    : v = true := by
  obtain ⟨x, hx, rfl⟩ := txBit_some h
  unfold txByte at hx
  rw [hj, frameByte_end _ (by unfold Config.frameBytes; omega) (by unfold Config.frameBytes; omega)] at hx
  cases hx; rw [hb]; rfl

end Sys2Proof.Machine
end

