-- ==== Sys2Proof/Laws/PerInstr.lean ====
section
/-! SUPPORT. The family EncodeRow: the encoding of every instruction is a word of its own row of the opcode table. -/

namespace Sys2Proof

/-- Bit by bit, a packed word is its five fields (30_encoding.md R75). -/
theorem getLsbD_pack (op sel idx : Nat) (data : BitVec 32) (i : Nat) :
    (CmdWord.pack op sel idx data).getLsbD i =
      if i < 32 then data.getLsbD i
      else if i < 36 then false
      else if i < 56 then (BitVec.ofNat 20 idx).getLsbD (i - 36)
      else if i < 60 then (BitVec.ofNat 4 sel).getLsbD (i - 56)
      else (BitVec.ofNat 4 op).getLsbD (i - 60) := by
  simp only [CmdWord.pack, BitVec.getLsbD_append, show i - 32 - 4 = i - 36 by omega,
    show i - 36 - 20 = i - 56 by omega, show i - 56 - 4 = i - 60 by omega, show (i - 32 < 4) = (i < 36) by
      apply propext; omega]
  by_cases h1 : i < 32
  · simp [h1]
  by_cases h2 : i < 36
  · simp [h1, h2]
  by_cases h3 : i < 56
  · simp [h1, h2, h3, show i - 36 < 20 by omega]
  by_cases h4 : i < 60
  · simp [h1, h2, h3, h4, show ¬ i - 36 < 20 by omega, show i - 56 < 4 by omega]
  · simp [h1, h2, h3, h4, show ¬ i - 36 < 20 by omega, show ¬ i - 56 < 4 by omega]

/-- A packed word under a mask, field by field. -/
theorem pack_and_mask {op sel idx : Nat} {data : BitVec 32} {mask pattern : CmdWord}
    (hop : BitVec.ofNat 4 op &&& mask.extractLsb' 60 4 = pattern.extractLsb' 60 4)
    (hsel : BitVec.ofNat 4 sel &&& mask.extractLsb' 56 4 = pattern.extractLsb' 56 4)
    (hidx : BitVec.ofNat 20 idx &&& mask.extractLsb' 36 20 = pattern.extractLsb' 36 20)
    (hrsv : pattern.extractLsb' 32 4 = 0)
    (hdata : data &&& mask.extractLsb' 0 32 = pattern.extractLsb' 0 32) :
    CmdWord.pack op sel idx data &&& mask = pattern := by
  apply BitVec.eq_of_getLsbD_eq
  intro i hi
  rw [BitVec.getLsbD_and, getLsbD_pack]
  split
  · rename_i h
    simpa [h] using congrArg (fun v => v.getLsbD i) hdata
  split
  · rename_i h1 h
    have h2 := congrArg (fun v => v.getLsbD (i - 32)) hrsv
    have h4 : i - 32 < 4 := by omega
    have h3 : 32 + (i - 32) = i := by omega
    simp [h4, h3] at h2
    simp [h2]
  split
  · rename_i h1 h2 h
    have h4 := congrArg (fun v => v.getLsbD (i - 36)) hidx
    have h5 : i - 36 < 20 := by omega
    have h3 : 36 + (i - 36) = i := by omega
    simpa [h5, h3] using h4
  split
  · rename_i h1 h2 h3 h
    have h4 := congrArg (fun v => v.getLsbD (i - 56)) hsel
    have h5 : i - 56 < 4 := by omega
    have h6 : 56 + (i - 56) = i := by omega
    simpa [h5, h6] using h4
  · have h4 := congrArg (fun v => v.getLsbD (i - 60)) hop
    have h5 : i - 60 < 4 := by omega
    have h6 : 60 + (i - 60) = i := by omega
    simpa [h5, h6] using h4

end Sys2Proof

namespace Sys2Proof.Laws.EncodeRow

/-- The encoding of `i` is a word of the opcode-table row that bears its mnemonic. -/
def Statement (i : Instr) : Prop :=
  ∃ row ∈ opcodeTable, row.mnemonic = i.mnemonic ∧ row.covers (encode i) = true

theorem nop : Statement .nop :=
  ⟨_, List.getElem_mem (n := 0) (by decide), by decide, by decide⟩

theorem poll (k : Nat) : Statement (.poll k) := by
  refine ⟨_, List.getElem_mem (n := 1) (by decide), rfl, ?_⟩
  rw [OpcodeRow.covers, beq_iff_eq]
  exact pack_and_mask (by decide) (by exact BitVec.and_zero) (by decide) (by decide) (by decide)

theorem pixWrite (n r g b br : Nat) : Statement (.pixWrite n r g b br) := by
  refine ⟨_, List.getElem_mem (n := 2) (by decide), rfl, ?_⟩
  rw [OpcodeRow.covers, beq_iff_eq]
  exact pack_and_mask (by decide) (by decide) (by exact BitVec.and_zero) (by decide) (by exact BitVec.and_zero)

theorem rdWord (w : Nat) : Statement (.rdWord w) := by
  refine ⟨_, List.getElem_mem (n := 3) (by decide), rfl, ?_⟩
  rw [OpcodeRow.covers, beq_iff_eq]
  exact pack_and_mask (by decide) (by decide) (by exact BitVec.and_zero) (by decide) (by decide)

theorem rdByte (a : Nat) : Statement (.rdByte a) := by
  refine ⟨_, List.getElem_mem (n := 4) (by decide), rfl, ?_⟩
  rw [OpcodeRow.covers, beq_iff_eq]
  exact pack_and_mask (by decide) (by decide) (by exact BitVec.and_zero) (by decide) (by decide)

/-- A half-word below 16 zero bits has no bit in the high half. -/
theorem half_and_high (v : BitVec 16) : ((0 : BitVec 16) ++ v : BitVec 32) &&& 0xFFFF0000#32 = 0#32 := by
  apply BitVec.eq_of_getLsbD_eq
  intro i hi
  rw [BitVec.getLsbD_and, BitVec.getLsbD_append]
  interval_cases i <;> simp

theorem sendBb (dly : Nat) : Statement (.sendBb dly) := by
  refine ⟨_, List.getElem_mem (n := 5) (by decide), rfl, ?_⟩
  rw [OpcodeRow.covers, beq_iff_eq]
  exact pack_and_mask (by decide) (by decide) (by decide) (by decide) (half_and_high _)

theorem sendPer (ign : Nat) : Statement (.sendPer ign) := by
  refine ⟨_, List.getElem_mem (n := 6) (by decide), rfl, ?_⟩
  rw [OpcodeRow.covers, beq_iff_eq]
  exact pack_and_mask (by decide) (by decide) (by decide) (by decide) (half_and_high _)

theorem rdStatus : Statement .rdStatus :=
  ⟨_, List.getElem_mem (n := 7) (by decide), by decide, by decide⟩

end Sys2Proof.Laws.EncodeRow
end

