-- ==== Sys2Proof/Laws/Words.lean ====
section
/-! SUPPORT. Words and their fields: a command word from its five fields and back, the rows of the opcode table, a word
from its bytes, the pixel record, the STATUS word. -/

namespace Sys2Proof

/-! ### The command word (30_encoding.md R75) -/

/-- The five fields of a packed command word. -/
theorem pack_fields (op sel idx : Nat) (data : BitVec 32) :
   (CmdWord.pack op sel idx data).op = BitVec.ofNat 4 op ∧ (CmdWord.pack op sel idx data).sel = BitVec.ofNat 4 sel ∧
   (CmdWord.pack op sel idx data).idx = BitVec.ofNat 20 idx ∧ (CmdWord.pack op sel idx data).rsv = 0 ∧ (CmdWord.pack
       op sel idx data).data = data := by
  refine ⟨?_, ?_, ?_, ?_, ?_⟩ <;>
  · apply BitVec.eq_of_getLsbD_eq
    intro i hi
    simp only [CmdWord.op, CmdWord.sel, CmdWord.idx, CmdWord.rsv, CmdWord.data, BitVec.getLsbD_extractLsb',
        getLsbD_pack, hi, decide_true, Bool.true_and]
    repeat' split
    all_goals first | omega | (congr 1; omega) | simp

/-- A command word whose RSV is 0 is the packing of its fields. -/
theorem pack_self (c : CmdWord) (h : c.rsv = 0) : CmdWord.pack c.op.toNat c.sel.toNat c.idx.toNat c.data = c := by
  apply BitVec.eq_of_getLsbD_eq
  intro i hi
  rw [getLsbD_pack]
  simp only [BitVec.ofNat_toNat, BitVec.setWidth_eq]
  split
  · simp [CmdWord.data, *]
  split
  · have := congrArg (fun v => v.getLsbD (i - 32)) h
    simp only [CmdWord.rsv, BitVec.getLsbD_extractLsb'] at this
    rw [show 32 + (i - 32) = i by omega] at this
    have h4 : i - 32 < 4 := by omega
    simp [h4] at this
    exact this.symm
  split
  · simp [CmdWord.idx, show i - 36 < 20 by omega, show 36 + (i - 36) = i by omega]
  split
  · simp [CmdWord.sel, show i - 56 < 4 by omega, show 56 + (i - 56) = i by omega]
  · simp [CmdWord.op, show i - 60 < 4 by omega, show 60 + (i - 60) = i by omega]

/-- The halves of a half-word below 16 zero bits. -/
theorem half_zero_append (v : BitVec 16) : Word.half ((0 : BitVec 16) ++ v : BitVec 32) 0 = v ∧ Word.half ((0 :
    BitVec 16) ++ v : BitVec 32) 1 = 0 := by
  constructor <;>
  · apply BitVec.eq_of_getLsbD_eq
    intro i hi
    simp only [Word.half, BitVec.getLsbD_extractLsb', BitVec.getLsbD_append]
    interval_cases i <;> simp

/-- A word whose high half is 0 is its low half below 16 zero bits. -/
theorem half_self (v : BitVec 32) (h : Word.half v 1 = 0) : ((0 : BitVec 16) ++ Word.half v 0 : BitVec 32) = v := by
  apply BitVec.eq_of_getLsbD_eq
  intro i hi
  rw [BitVec.getLsbD_append]
  split
  · simp [Word.half, *]
  · have := congrArg (fun v => v.getLsbD (i - 16)) h
    simp only [Word.half, BitVec.getLsbD_extractLsb'] at this
    rw [show 16 * 1 + (i - 16) = i by omega] at this
    have h4 : i - 16 < 16 := by omega
    simp [h4] at this
    simp [this]

/-- OP as a number. -/
theorem op_toNat {c : CmdWord} {n : Nat} (hn : n < 16) : c.op = BitVec.ofNat 4 n ↔ c.op.toNat = n := by
  constructor
  · intro h; rw [h, BitVec.toNat_ofNat]; exact Nat.mod_eq_of_lt hn
  · intro h; apply BitVec.eq_of_toNat_eq; rw [h, BitVec.toNat_ofNat]; exact (Nat.mod_eq_of_lt hn).symm

/-- A command word is its five fields, the first on top. -/
theorem word_split (c : CmdWord) : c = c.op ++ c.sel ++ c.idx ++ c.rsv ++ c.data := by
  apply BitVec.eq_of_getLsbD_eq
  intro i hi
  simp only [CmdWord.op, CmdWord.sel, CmdWord.idx, CmdWord.rsv, CmdWord.data, BitVec.getLsbD_append,
      BitVec.getLsbD_extractLsb']
  interval_cases i <;> simp

/-! ### The opcode table -/

theorem append_eq_append_iff {m n : Nat} {a c : BitVec m} {b d : BitVec n} : a ++ b = c ++ d ↔ a = c ∧ b = d := by
  constructor
  · intro h
    constructor
    · apply BitVec.eq_of_getLsbD_eq
      intro i hi
      have := congrArg (fun v => v.getLsbD (i + n)) h
      simpa [BitVec.getLsbD_append] using this
    · apply BitVec.eq_of_getLsbD_eq
      intro i hi
      have := congrArg (fun v => v.getLsbD i) h
      simpa [BitVec.getLsbD_append, hi] using this
  · rintro ⟨rfl, rfl⟩; rfl

theorem append_and_append {m n : Nat} (a c : BitVec m) (b d : BitVec n) : (a ++ b) &&& (c ++ d) = (a &&& c) ++ (b &&&
    d) := by
  apply BitVec.eq_of_getLsbD_eq
  intro i hi
  simp only [BitVec.getLsbD_and, BitVec.getLsbD_append]
  split <;> simp

/-- A row whose pattern and mask are written field by field covers a word exactly when each field matches. -/
theorem covers_iff (mn : String) (o p1 : BitVec 4) (p3 : BitVec 20) (p4 : BitVec 4) (p5 : BitVec 32) (m0 m1 : BitVec
    4) (m3 : BitVec 20) (m4 : BitVec 4) (m5 : BitVec 32) (c : CmdWord) :
   OpcodeRow.covers ⟨mn, o ++ p1 ++ p3 ++ p4 ++ p5, m0 ++ m1 ++ m3 ++ m4 ++ m5⟩ c = true ↔ c.op &&& m0 = o ∧ c.sel
       &&& m1 = p1 ∧ c.idx &&& m3 = p3 ∧ c.rsv &&& m4 = p4 ∧ c.data &&& m5 = p5 := by
  simp only [OpcodeRow.covers, beq_iff_eq]
  conv_lhs => rw [word_split c]
  rw [append_and_append, append_and_append, append_and_append, append_and_append, append_eq_append_iff,
      append_eq_append_iff, append_eq_append_iff, append_eq_append_iff]
  tauto

/-- The bits of a word under the mask of the high half. -/
theorem low_mask (v : BitVec 32) : v &&& 0xFFFF0000#32 = 0#32 ↔ Word.half v 1 = 0 := by
  have e : v = Word.half v 1 ++ Word.half v 0 := by
    apply BitVec.eq_of_getLsbD_eq
    intro i hi
    simp only [Word.half, BitVec.getLsbD_append, BitVec.getLsbD_extractLsb']
    interval_cases i <;> simp
  conv_lhs => rw [e]
  rw [show (0xFFFF0000#32) = (0xFFFF#16 ++ 0#16 : BitVec 32) from rfl, append_and_append, show (0#32) = (0#16 ++ 0#16
      : BitVec 32) from rfl]
  have h1 : ∀ x : BitVec 16, x &&& 0xFFFF#16 = x := fun x => BitVec.and_allOnes
  rw [append_eq_append_iff, h1]
  simp [Word.half]

/-! ### Bytes, pixels, STATUS -/

/-- The little-endian assembly as a number (20_memory.md R53). -/
theorem toNat_ofBytes (b3 b2 b1 b0 : Byte) : (Word.ofBytes b3 b2 b1 b0).toNat = b0.toNat + 2^8 * b1.toNat + 2^16 *
    b2.toNat + 2^24 * b3.toNat := by
  unfold Word.ofBytes
  simp only [BitVec.toNat_append]
  have h0 := b0.isLt; have h1 := b1.isLt; have h2 := b2.isLt
  rw [← Nat.shiftLeft_add_eq_or_of_lt h0, ← Nat.shiftLeft_add_eq_or_of_lt h1, ← Nat.shiftLeft_add_eq_or_of_lt h2]
  simp only [Nat.shiftLeft_eq]; omega

namespace Machine

/-- The four bytes of a pixel record (30_encoding.md R70). -/
theorem encodePixel_byte (r g b br : Nat) : Word.byte (encodePixel r g b br) 0 = intensityByte br ∧ Word.byte
    (encodePixel r g b br) 1 = BitVec.ofNat 8 r ∧ Word.byte (encodePixel r g b br) 2 = BitVec.ofNat 8 g ∧ Word.byte
    (encodePixel r g b br) 3 = BitVec.ofNat 8 b :=
  Word.byte_ofBytes _ _ _ _

/-- The intensity byte as a number: the OR does not carry (30_encoding.md R70). -/
theorem intensity_low {br : Nat} (h : br < 32) : (intensityByte br).toNat = 0xE0 + br := by
  interval_cases br <;> decide

/-- The intensity byte taken apart (30_encoding.md R71). -/
theorem intensity_parts {br : Nat} (h : br < 32) : ((intensityByte br).extractLsb' 0 5).toNat = br ∧ (intensityByte
    br).extractLsb' 5 3 = 7#3 := by
  interval_cases br <;> decide

/-- The low fields of a word are those of its first byte. -/
theorem byte0_parts (v : Word) : v.extractLsb' 0 5 = (Word.byte v 0).extractLsb' 0 5 ∧ v.extractLsb' 5 3 = (Word.byte
    v 0).extractLsb' 5 3 := by
  constructor <;>
  · apply BitVec.eq_of_getLsbD_eq
    intro i hi
    simp only [Word.byte, BitVec.getLsbD_extractLsb', hi]
    interval_cases i <;> simp

/-- The fields of the STATUS word (10_state.md R35). -/
theorem status_fields (st : Status) :
    ((statusWord st).extractLsb' 0 3) = lastResultBits st.lastResult ∧ (statusWord st).getLsbD 3 = st.stripUndef ∧
    (statusWord st).getLsbD 4 = st.lastVariant.bit ∧ ∀ n, 5 ≤ n → (statusWord st).getLsbD n = false := by
  obtain ⟨r, u, v⟩ := st
  refine ⟨?_, ?_, ?_, ?_⟩
  · rcases r with _ | r <;> [skip; cases r] <;> cases u <;> cases v <;> decide
  · rcases r with _ | r <;> [skip; cases r] <;> cases u <;> cases v <;> decide
  · rcases r with _ | r <;> [skip; cases r] <;> cases u <;> cases v <;> decide
  · intro n hn
    by_cases h : n < 32
    · rcases r with _ | r <;> [skip; cases r] <;> cases u <;> cases v <;> interval_cases n <;> decide
    · exact BitVec.getLsbD_of_ge _ _ (by omega)

end Machine

end Sys2Proof
end

