-- ==== Sys2Proof/Laws/Sends.lean ====
section
/-! SUPPORT. The vocabulary of the statements and the model's operations: what `background`, `raiseFatal` and `finish` are
in its words; runs whose inputs are listed; one bit of a bit-banged send; the cycles of a peripheral transfer before its
last one. -/

namespace Sys2Proof.Machine

open Sys2Proof.Claims

/-- The background runs every channel. -/
theorem channelsRan_background (s : State) : ChannelsRan s (background s) := by
  refine ⟨by simp, fun k ch cc h1 h2 => ?_⟩
  simp [channelsEdge_getElem?, h1, settleOf_eq h2, channelEdge, elapsedNext]

/-- A response over the background writes nothing else. -/
theorem onlyResponds (s : State) (c d) : OnlyResponds s ((background s).respond c d) :=
  ⟨rfl, fun _ => rfl, rfl, rfl, rfl, rfl, channelsRan_background s⟩

/-- `raiseFatal` is the fatal entry of 60_exceptions.md R182. -/
theorem fatalTaken (s : State) (c) : FatalTaken c s (raiseFatal c s) := by
  refine ⟨rfl, fun _ => rfl, rfl, rfl, rfl, rfl, ?_, channelsRan_background s⟩
  cases c <;> rfl

/-- `finish` is the completion of 42_transmit.md R148. -/
theorem finished_finish (r v t) : Finished r v (finish r v t) := ⟨rfl, rfl, rfl, rfl, by cases r <;> rfl⟩

/-- A pin-write state writes its pin and leaves what comes after to the state (42_transmit.md R143, R146). -/
theorem pinStep_edge {s : State} {p v} (h : PinStep s p v) : ∃ f : State → State, txEdge s = .next (pinWrite s.input
    p v f (background s)) ∧ (∀ t, (f t).pin = t.pin) := by
  unfold PinStep at h
  split at h <;> try exact h.elim
  · rename_i hs; obtain ⟨rfl, rfl⟩ := h; exact ⟨_, txEdge_clkLo hs, fun _ => rfl⟩
  · rename_i hs; obtain ⟨rfl, h⟩ := h
    obtain ⟨x, hx, rfl⟩ := txBit_some h
    exact ⟨_, txEdge_dat hs hx, fun t => by unfold waitOr; split <;> rfl⟩
  · rename_i hs; obtain ⟨rfl, rfl⟩ := h; exact ⟨_, txEdge_clkHi hs, fun t => by unfold waitOr; split <;> simp⟩
  · rename_i hs; obtain ⟨rfl, rfl⟩ := h; exact ⟨_, txEdge_endClk hs, fun _ => rfl⟩
  · rename_i hs; obtain ⟨rfl, rfl⟩ := h; exact ⟨_, txEdge_endDat hs, fun _ => rfl⟩

/-- A pin-write state is busy. -/
theorem pinStep_busy {s : State} {p v} (h : PinStep s p v) : s.tx.state ≠ .idle := by
  intro hi; unfold PinStep at h; rw [hi] at h; exact h

/-! ### Runs with listed inputs -/

theorem inputsAre_head {m P s} (h : InputsAre (m + 1) P s) : P s.input := by
  obtain ⟨h1, h2⟩ := h
  cases hs : s.inputs with
  | nil => rw [hs] at h1; simp at h1
  | cons i rest =>
    rw [input_eq_of_inputs hs]
    exact h2 i (by rw [hs]; simp)

theorem inputsAre_drop {m n P} {s t : State} (h : InputsAre (m + n) P s) (ht : t.inputs = s.inputs.drop m) :
    InputsAre n P t := by
  obtain ⟨h1, h2⟩ := h
  refine ⟨by rw [ht]; simp; omega, fun i hi => h2 i ?_⟩
  rw [ht, List.take_drop] at hi
  exact List.mem_of_mem_drop hi

theorem inputsAre_le {m n P} {s : State} (h : InputsAre n P s) (hm : m ≤ n) : InputsAre m P s := by
  obtain ⟨h1, h2⟩ := h
  refine ⟨by omega, fun i hi => h2 i ?_⟩
  exact (List.take_subset_take_left _ hm) hi

theorem ticks_succ {s t : State} (h : step s = .next t) (m) : ticks (m+1) s = s.input.tick.toNat + ticks m t := by
  unfold ticks; rw [cycles_succ h]
  cases ht : s.input.tick <;> simp [ht]; omega

theorem noReset_le {m n : Nat} {s : State} (h : NoReset n s) (hm : m ≤ n) : NoReset m s := by
  intro v hv
  apply h
  clear h
  induction m generalizing s n with
  | zero => simp [cycles] at hv
  | succ m ih =>
    obtain ⟨n, rfl⟩ : ∃ k, n = k + 1 := ⟨n - 1, by omega⟩
    unfold cycles at hv ⊢
    rcases List.mem_cons.1 hv with rfl | hv
    · simp
    · refine List.mem_cons_of_mem _ ?_
      cases hs : step s <;> rw [hs] at hv <;> simp only at hv ⊢
      · exact ih (by omega) hv
      · simp at hv
      · simp at hv

/-- Listed inputs without a reset make a run without a reset. -/
theorem noReset_of_inputs (m : Nat) : ∀ s : State, InputsAre m (fun i => i.rst = false) s → NoReset m s := by
  induction m with
  | zero => intro s _ v hv; simp [cycles] at hv
  | succ m ih =>
    intro s h v hv
    unfold cycles at hv
    rcases List.mem_cons.1 hv with rfl | hv
    · exact inputsAre_head h
    · cases hs : step s with
      | next t =>
        rw [hs] at hv
        exact ih t (inputsAre_drop (m := 1) (by rwa [Nat.add_comm]) (by rw [step_inputs hs]; simp)) v hv
      | fault r => rw [hs] at hv; simp at hv
      | refused r => rw [hs] at hv; simp at hv

/-- Listed inputs that are all one record. -/
theorem inputsAre_replicate {m : Nat} {P : Input → Prop} {i : Input} {s : State} (h : s.inputs = List.replicate m i)
    (hi : P i) : InputsAre m P s := by
  refine ⟨by rw [h]; simp, fun j hj => ?_⟩
  rw [h] at hj
  rw [List.eq_of_mem_replicate (List.mem_of_mem_take hj)]
  exact hi

/-! ### One bit of a bit-banged send -/

/-- The inputs of a cycle without a reset and without a pin fault. -/
def Good (i : Input) : Prop := i.rst = false ∧ i.pinFault = false

/-- `n` edges from `s` to `t` that show the lines `ls` and leave the parameters, the frame and the fatal state. -/
structure Leg (n : Nat) (s t : State) (ls : List Lines) : Prop where
  run : Sys2Proof.core.run n s = .next t
  lines : ledLines (cycles n s) = ls
  cfg : t.cfg = s.cfg
  frame : t.frame = s.frame
  ftl : t.ftl = s.ftl
  inputs : t.inputs = s.inputs.drop n

theorem Leg.refl (s : State) : Leg 0 s s [] := ⟨rfl, rfl, rfl, rfl, rfl, by simp⟩

theorem Leg.trans {m n s t u l1 l2} (h1 : Leg m s t l1) (h2 : Leg n t u l2) : Leg (m + n) s u (l1 ++ l2) := by
  refine ⟨by rw [run_add h1.run]; exact h2.run, ?_, h2.cfg.trans h1.cfg, h2.frame.trans h1.frame, h2.ftl.trans
      h1.ftl, ?_⟩
  · rw [cycles_add h1.run, ledLines, List.map_append]
    exact congrArg₂ _ h1.lines h2.lines
  · rw [h2.inputs, h1.inputs, List.drop_drop]

/-- One edge of a busy transmitter. -/
theorem leg_one {s t : State} (hr : s.input.rst = false) (hb : s.tx.state ≠ .idle) (h : txEdge s = .next t) : Leg 1 s
    t [(s.pin.clk, s.pin.dat)] := by
  have hs := (step_busy hr hb).trans h
  have k := txEdge_keeps h
  exact ⟨run_one.2 hs, by rw [cycles_succ hs]; rfl, k.cfg, k.frame, k.ftl, by rw [k.inputs]; simp⟩

/-- The cycles of a wait step before its last one. -/
theorem leg_wait (m : Nat) : ∀ (s : State), (s.tx.state = .bbWait1 ∨ s.tx.state = .bbWait2) → s.tx.w = m + 1 →
    InputsAre m Good s →
   ∃ t, Leg m s t (List.replicate m (s.pin.clk, s.pin.dat)) ∧ t.tx = { s.tx with w := 1 } ∧ t.pin = s.pin := by
  induction m with
  | zero => intro s _ hw _; exact ⟨s, Leg.refl s, by rw [show 1 = s.tx.w by omega], rfl⟩
  | succ m ih =>
    intro s h hw hi
    obtain ⟨hr, hp⟩ := inputsAre_head hi
    have hb : s.tx.state ≠ .idle := by rcases h with h | h <;> rw [h] <;> decide
    have he : txEdge s = .next { background s with tx := { s.tx with w := s.tx.w - 1 } } := by
      rcases h with h | h
      · rw [txEdge_wait1 h, waitCycle_more (by show s.tx.w ≠ 1; omega)]; rfl
      · rw [txEdge_wait2 h, waitCycle_more (by show s.tx.w ≠ 1; omega)]; rfl
    have l1 := leg_one hr hb he
    obtain ⟨t, l2, h1, h2⟩ := ih { background s with tx := { s.tx with w := s.tx.w - 1 } } h (by simp only; omega)
        (inputsAre_drop (by rwa [Nat.add_comm] at hi) l1.inputs)
    refine ⟨t, ?_, h1, h2⟩
    rw [Nat.add_comm m 1]
    have := l1.trans l2
    rwa [show (1 + m) = m + 1 by omega, List.replicate_succ, Nat.add_comm m 1]

/-- Where the cursor is after a bit (42_transmit.md R144). -/
def afterBit (c : Config) (tx : Transmitter) : Transmitter :=
  if 0 < tx.b.val then { tx with b := ⟨tx.b.val - 1, Nat.lt_of_le_of_lt (Nat.sub_le _ _) tx.b.isLt⟩, state := .bbClkLo }
  else if tx.j < c.frameBytes - 1 then { tx with j := tx.j + 1, b := 7, state := .bbClkLo }
  else { tx with state := .bbEndClk }

theorem advance_tx (t : State) : (advance t).tx = afterBit t.cfg t.tx := by
  unfold advance afterBit
  split
  · rfl
  split <;> rfl

theorem afterBit_state (c tx x) : afterBit c { tx with state := x } = afterBit c tx := by
  unfold afterBit; rfl

/-- One bit: clock low, data, wait, clock high, wait (42_transmit.md R146, R150). -/
theorem leg_bit {s : State} {v : Byte} (hst : s.tx.state = .bbClkLo) (hw : s.tx.w = 0) (hv : txByte s = some v) (hi :
    InputsAre (3 + 2 * s.tx.d) Good s) :
   ∃ t, Leg (3 + 2 * s.tx.d) s t ((s.pin.clk, s.pin.dat) :: (false, s.pin.dat) :: (List.replicate (s.tx.d + 1)
       (false, v.getLsbD s.tx.b.val) ++ List.replicate s.tx.d (true, v.getLsbD s.tx.b.val))) ∧
    t.tx = afterBit s.cfg s.tx ∧ t.pin = { clk := true, dat := v.getLsbD s.tx.b.val } := by
  -- clock low
  generalize hbit : v.getLsbD s.tx.b.val = bit
  generalize hd : s.tx.d = d at hi
  obtain ⟨hr, hp⟩ := inputsAre_head (m := 2 + 2 * d) (by rwa [show 2 + 2*d+1 = 3 + 2*d by omega])
  have l1 := leg_one hr (by rw [hst]; decide) (txEdge_clkLo hst)
  rw [pinWrite_ok hp] at l1
  generalize hs1 : goTo .bbDat (setPin .clk false (background s)) = s1 at l1
  have i1 : InputsAre (2 + 2 * d) Good s1 := inputsAre_drop (m := 1) (by rwa [show 1 + (2 + 2*d) = 3 + 2*d by omega])
      l1.inputs
  have hst1 : s1.tx.state = .bbDat := by subst hs1; rfl
  have hpin1 : s1.pin = { clk := false, dat := s.pin.dat } := by subst hs1; rfl
  have hv1 : txByte s1 = some v := by subst hs1; exact hv
  have htx1 : s1.tx = { s.tx with state := .bbDat } := by subst hs1; rfl
  -- data
  obtain ⟨hr1, hp1⟩ := inputsAre_head (m := 1 + 2 * d) (by rwa [show 1 + 2*d+1 = 2 + 2*d by omega])
  have l2 := leg_one hr1 (by rw [hst1]; decide) (txEdge_dat hst1 hv1)
  rw [pinWrite_ok hp1, show s1.tx.b = s.tx.b by rw [htx1], hbit, hpin1] at l2
  have e1 : (setPin .dat bit (background s1)).tx.d = d := by show s1.tx.d = d; rw [htx1]; exact hd
  have e2 : (setPin .dat bit (background s1)).tx = { s.tx with state := .bbDat } := htx1
  have e3 : (setPin .dat bit (background s1)).pin = { clk := false, dat := bit } := by simp [hpin1]
  -- reach bbClkHi
  have c1 := l1.cfg
  have hhi : ∃ s2, Leg (1 + d) s1 s2 ((false, s.pin.dat) :: List.replicate d (false, bit)) ∧ s2.tx = { s.tx with
      state := .bbClkHi } ∧ s2.pin = { clk := false, dat := bit } := by
    rcases Nat.eq_zero_or_pos d with h0 | hpos
    · subst h0
      rw [waitOr_none e1] at l2
      exact ⟨_, l2, by rw [goTo_tx, e2], by rw [goTo_pin, e3]⟩
    · rw [waitOr_some (by rw [e1]; exact hpos)] at l2
      generalize hx : ({ setPin .dat bit (background s1) with
        tx := { (setPin .dat bit (background s1)).tx with
          w := (setPin .dat bit (background s1)).tx.d, state := .bbWait1 } } : State) = x at l2
      have hxtx : x.tx = { s.tx with w := d, state := .bbWait1 } := by subst hx; simp only [e2, hd]
      have hxp : x.pin = { clk := false, dat := bit } := by subst hx; exact e3
      have ix : InputsAre (1 + 2 * d) Good x := inputsAre_drop (m := 1) (by rwa [show 1 + (1 + 2*d) = 2 + 2*d by
          omega]) l2.inputs
      obtain ⟨y, l3, hy, hyp⟩ := leg_wait (d - 1) x (.inl (by rw [hxtx])) (by rw [hxtx]; simp only; omega)
          (inputsAre_le ix (by omega))
      have iy : InputsAre 1 Good y := inputsAre_drop (m := d - 1) (inputsAre_le ix (by omega)) l3.inputs
      obtain ⟨hry, hpy⟩ := inputsAre_head iy
      have hsty : y.tx.state = .bbWait1 := by rw [hy, hxtx]
      have l4 := leg_one hry (by rw [hsty]; decide) (txEdge_wait1 hsty)
      rw [waitCycle_last (by show y.tx.w = 1; rw [hy])] at l4
      rw [hyp] at l4
      rw [hxp] at l3 l4
      refine ⟨goTo .bbClkHi { background y with tx := { (background y).tx with w := 0 } }, ?_, ?_, ?_⟩
      · have := (l2.trans l3).trans l4
        rw [show 1 + (d - 1) + 1 = 1 + d by omega] at this
        convert this using 1
        obtain ⟨d', rfl⟩ : ∃ d', d = d' + 1 := ⟨d - 1, by omega⟩
        simp [List.replicate_succ']
      · simp only [goTo_tx, background_tx]
        rw [hy, hxtx, ← hw]
      · simp [hyp, hxp]
  obtain ⟨s2, l3, htx2, hpin2⟩ := hhi
  have i2 : InputsAre (1 + d) Good s2 := inputsAre_drop (m := 1 + d) (by rwa [show (1 + d) + (1 + d) = 2 + 2*d by
      omega]) l3.inputs
  obtain ⟨hr2, hp2⟩ := inputsAre_head (m := d) (by rwa [Nat.add_comm])
  have hst2 : s2.tx.state = .bbClkHi := by rw [htx2]
  have l4 := leg_one hr2 (by rw [hst2]; decide) (txEdge_clkHi hst2)
  rw [pinWrite_ok hp2, hpin2] at l4
  have f1 : (setPin .clk true (background s2)).tx.d = d := by show s2.tx.d = d; rw [htx2]; exact hd
  have f3 : (setPin .clk true (background s2)).pin = { clk := true, dat := bit } := by simp [hpin2]
  have c3 := l3.cfg
  have hend : ∃ t, Leg (1 + d) s2 t ((false, bit) :: List.replicate d (true, bit)) ∧ t.tx = afterBit s.cfg s.tx ∧
      t.pin = { clk := true, dat := bit } := by
    rcases Nat.eq_zero_or_pos d with h0 | hpos
    · subst h0
      rw [waitOr_none f1] at l4
      refine ⟨_, l4, ?_, by rw [advance_pin, f3]⟩
      rw [advance_tx]
      show afterBit s2.cfg s2.tx = _
      rw [htx2, afterBit_state, c3, c1]
    · rw [waitOr_some (by rw [f1]; exact hpos)] at l4
      generalize hx : ({ setPin .clk true (background s2) with
        tx := { (setPin .clk true (background s2)).tx with
          w := (setPin .clk true (background s2)).tx.d, state := .bbWait2 } } : State) = x at l4
      have hxtx : x.tx = { s.tx with w := d, state := .bbWait2 } := by
        subst hx; simp only [f1]
        simp only [setPin_clk_tx, background_tx, htx2, hd]
      have hxp : x.pin = { clk := true, dat := bit } := by subst hx; exact f3
      have ix : InputsAre d Good x := inputsAre_drop (m := 1) i2 l4.inputs
      obtain ⟨y, l5, hy, hyp⟩ := leg_wait (d - 1) x (.inr (by rw [hxtx])) (by rw [hxtx]; simp only; omega)
          (inputsAre_le ix (by omega))
      have iy : InputsAre 1 Good y := inputsAre_drop (m := d - 1) (inputsAre_le ix (by omega)) l5.inputs
      obtain ⟨hry, hpy⟩ := inputsAre_head iy
      have hsty : y.tx.state = .bbWait2 := by rw [hy, hxtx]
      have l6 := leg_one hry (by rw [hsty]; decide) (txEdge_wait2 hsty)
      rw [waitCycle_last (by show y.tx.w = 1; rw [hy])] at l6
      rw [hyp] at l6
      have c4 := l4.cfg
      have c5 := l5.cfg
      rw [hxp] at l5 l6
      refine ⟨advance { background y with tx := { (background y).tx with w := 0 } }, ?_, ?_, ?_⟩
      · have := (l4.trans l5).trans l6
        rw [show 1 + (d - 1) + 1 = 1 + d by omega] at this
        convert this using 1
        obtain ⟨d', rfl⟩ : ∃ d', d = d' + 1 := ⟨d - 1, by omega⟩
        simp [List.replicate_succ']
      · rw [advance_tx]
        simp only [background_tx, background_cfg]
        rw [hy, hxtx, c5, c4, c3, c1]
        simp only
        rw [← hw]
        unfold afterBit
        simp only
      · simp [hyp, hxp]
  obtain ⟨t, l5, h1, h2⟩ := hend
  refine ⟨t, ?_, h1, h2⟩
  have := (l1.trans l3).trans l5
  rw [show 1 + (1 + d) + (1 + d) = 3 + 2 * d by omega] at this
  convert this using 1
  simp [List.replicate_succ']

/-! ### The bits and bytes that remain -/

/-- The bits of a byte from `b` down. -/
def bitsDown (v : Byte) : Nat → List Bool
  | 0 => [v.getLsbD 0]
  | b + 1 => v.getLsbD (b + 1) :: bitsDown v b

/-- The byte of the byte view at `a`. -/
def byteAt (c : Config) (m : Memory) (a : Nat) : Byte := (frameByte c m a).getD 0

/-- The byte view from `j` on. -/
def bytesFrom (c : Config) (m : Memory) (j : Nat) : List Byte := (List.range' j (c.frameBytes - j)).map (byteAt c m)

/-- The bit stream from bit `b` of byte `j` on. -/
def remBits (c : Config) (m : Memory) (j b : Nat) : List Bool := bitsDown (byteAt c m j) b ++ (bytesFrom c m (j +
    1)).flatMap msbFirst

theorem bytesFrom_succ {c : Config} {m : Memory} {j : Nat} (h : j < c.frameBytes) : bytesFrom c m j = byteAt c m j ::
    bytesFrom c m (j + 1) := by
  unfold bytesFrom
  rw [show c.frameBytes - j = (c.frameBytes - (j + 1)) + 1 by omega, List.range'_succ]; simp

theorem bytesFrom_end {c : Config} {m : Memory} {j : Nat} (h : c.frameBytes ≤ j) : bytesFrom c m j = [] := by
  unfold bytesFrom; rw [show c.frameBytes - j = 0 by omega]; rfl

theorem filterMap_some {α β} (f : α → Option β) (d : β) (l : List α) (h : ∀ a ∈ l, (f a).isSome = true) : l.filterMap
    f = l.map fun a => (f a).getD d := by
  induction l with
  | nil => rfl
  | cons a l ih =>
    obtain ⟨v, hv⟩ := Option.isSome_iff_exists.1 (h a (by simp))
    rw [List.filterMap_cons_some hv, ih fun a ha => h a (by simp [ha])]
    simp [hv]

theorem frameByteList_eq (c : Config) (m : Memory) : frameByteList c m = bytesFrom c m 0 := by
  unfold frameByteList bytesFrom
  rw [filterMap_some _ 0 _ (fun a ha => frameByte_isSome m (List.mem_range.1 ha)), List.range_eq_range']
  rfl

theorem frameBits_eq (c : Config) (m : Memory) : frameBits c m = remBits c m 0 7 := by
  unfold frameBits remBits
  rw [frameByteList_eq, bytesFrom_succ (by unfold Config.frameBytes; omega)]
  rfl

theorem frameByteList_length (c m) : (frameByteList c m).length = c.frameBytes := by
  rw [frameByteList_eq]; simp [bytesFrom]

theorem flat_length (l : List Byte) : (l.flatMap msbFirst).length = 8 * l.length := by
  induction l with
  | nil => rfl
  | cons a l ih => rw [List.flatMap_cons, List.length_append, ih]; simp [msbFirst]; omega

theorem frameBits_length (c m) : (frameBits c m).length = 32 * (c.n + 2) := by
  unfold frameBits; rw [flat_length, frameByteList_length]; unfold Config.frameBytes; omega

/-! ### A peripheral transfer -/

/-- The inputs of a cycle without a reset in which the peripheral reports no failure. -/
def PGood (i : Input) : Prop := i.rst = false ∧ (i.perReady = true → i.perErr = false)

theorem readyCount_succ {s : State} {i rest} (h : s.inputs = i :: rest) (m : Nat) {t : State} (ht : t.inputs = rest)
    : readyCount (m + 1) s = i.perReady.toNat + readyCount m t := by
  unfold readyCount
  rw [h, ht, List.take_succ_cons]
  cases hr : i.perReady <;> simp [hr]; omega

theorem readyCount_last {m : Nat} {s t : State} (hm : m + 1 ≤ s.inputs.length) (ht : t.inputs = s.inputs.drop m) :
    readyCount (m + 1) s = readyCount m s + t.input.perReady.toNat := by
  unfold readyCount
  have : s.inputs[m]? = some t.input := by
    have hd := List.getElem?_drop (xs := s.inputs) (i := m) (j := 0)
    rw [← ht] at hd
    cases hti : t.inputs with
    | nil => rw [hti] at ht; have := congrArg List.length ht; simp at this; omega
    | cons i rest => rw [hti] at hd; simp at hd; rw [input_eq_of_inputs hti]; exact hd.symm
  rw [List.take_add_one, this, List.filter_append]
  cases h : t.input.perReady <;> simp [h]

/-- The cycles of a transfer in which neither the last byte nor the budget is reached: the cursor counts the
    handshakes, and
the bytes taken are those of the byte view from the cursor on. -/
theorem per_run (m : Nat) : ∀ s : State, s.tx.state = .perXfer → InputsAre m PGood s → s.tx.j + readyCount m s ≤
    s.cfg.frameBytes - 1 → s.tx.t + m < s.cfg.perTimeout →
   ∃ t : State, Sys2Proof.core.run m s = .next t ∧ t.tx = { s.tx with j := s.tx.j + readyCount m s, t := s.tx.t + m }
       ∧ t.pin = s.pin ∧ t.cfg = s.cfg ∧ t.frame = s.frame ∧ t.ftl = s.ftl ∧ t.inputs = s.inputs.drop m ∧
    takenBytes (cycles m s) = ((List.range' s.tx.j (readyCount m s)).map (byteAt s.cfg s.frame)) := by
  induction m with
  | zero => intro s hst _ hj ht; exact ⟨s, rfl, by simp [readyCount], rfl, rfl, rfl, rfl, by simp, by simp
      [readyCount, takenBytes]⟩
  | succ m ih =>
    intro s hst hi hj ht
    obtain ⟨hr, hp⟩ := inputsAre_head hi
    have hlen := hi.1
    cases hin : s.inputs with
    | nil => rw [hin] at hlen; simp at hlen
    | cons i rest =>
    have hii := input_eq_of_inputs hin
    rw [hii] at hr hp
    have hlt : s.tx.j < s.cfg.frameBytes := by
      have : 0 < s.cfg.frameBytes := by unfold Config.frameBytes; omega
      omega
    obtain ⟨v, hv⟩ := txByte_isSome (s := s) hlt
    have he := txEdge_perXfer hst hv
    have hb : s.tx.state ≠ .idle := by rw [hst]; decide
    generalize hx : ({ background s with tx := { s.tx with j := if s.input.perReady then s.tx.j + 1 else s.tx.j, t :=
        s.tx.t + 1 } } : State) = x at he
    have hxi : x.inputs = rest := by subst hx; simp [hin]
    have hrc := readyCount_succ hin m hxi
    rw [hrc] at hj
    have hne : ¬ (s.input.perReady && decide (s.tx.j = s.cfg.frameBytes - 1)) = true := by
      rw [hii]; intro h
      simp at h
      rw [h.1] at hj; simp at hj; omega
    rw [if_neg (by rw [hii]; intro h; simp at h; rw [hp h.1] at h; simp at h), if_neg hne, if_neg (by omega)] at he
    have hstep := (step_busy (by rw [hii]; exact hr) hb).trans he
    have xj : x.tx.j = s.tx.j + i.perReady.toNat := by
      subst hx; simp only [hii]; cases i.perReady <;> rfl
    have xt : x.tx = { s.tx with j := s.tx.j + i.perReady.toNat, t := s.tx.t + 1 } := by
      rw [← xj]; subst hx; rfl
    have xc : x.cfg = s.cfg := by subst hx; rfl
    have xf : x.frame = s.frame := by subst hx; rfl
    obtain ⟨t, h1, h2, h3, h4, h5, h6, h7, h8⟩ := ih x (by rw [xt]; exact hst) (inputsAre_drop (m := 1) (by rwa
        [Nat.add_comm]) (by rw [hxi, hin]; rfl)) (by rw [xj, xc]; omega) (by rw [xt, xc]; simp only; omega)
    refine ⟨t, by rw [run_succ hstep]; exact h1, ?_, h3.trans (by subst hx; rfl), h4.trans xc, h5.trans xf, h6.trans
        (by subst hx; rfl), by rw [h7, hxi]; rfl, ?_⟩
    · rw [h2, xt, hrc]
      simp only
      rw [Nat.add_assoc, Nat.add_assoc, Nat.add_comm 1 m]
    · rw [cycles_succ hstep, hrc]
      unfold takenBytes at h8 ⊢
      have hbt : byteTaken s = if i.perReady then some v else none := by
        unfold byteTaken perData perValid
        rw [hst, hii, hv]; simp
      rw [List.filterMap_cons, h8, hbt, xj, xc, xf]
      cases hir : i.perReady
      · simp
      · simp
        rw [Nat.add_comm 1, List.range'_succ, List.map_cons]
        congr 1
        unfold byteAt; rw [show frameByte s.cfg s.frame s.tx.j = some v from hv]; rfl

end Sys2Proof.Machine
end

