-- ==== Sys2Proof/Tests/Slice0.lean ====
section
/-! SUPPORT. The model's own tests: the well-formedness checks, words written out from the spec's encodings, one step per
command against the vectors of 95_test_vectors.md, and for every statement that has hypotheses a state and operands that
meet them all together. -/

namespace Sys2Proof.Tests

open Sys2Proof.Machine Sys2Proof.Claims

/-! ### Helpers -/

/-- One pixel, one channel: the smallest strip. -/
def one : Config where
  n            := 1
  channels     := [{ settle := 10, initLevel := false }]
  cyclesPerUs  := 1
  perTimeout   := 100
  perBitPeriod := 2
  perWordWidth := 8

/-- A cycle with a command on the port, and nothing else. -/
def issue (w : CmdWord) : Input := { Input.quiet with cmdValid := true, cmd := w }

/-- A cycle with a tick. -/
def tick : Input := { Input.quiet with tick := true }

/-- A cycle with `rst` high. -/
def reset : Input := { Input.quiet with rst := true }

/-- A cycle in which the peripheral takes a byte. -/
def ready : Input := { Input.quiet with perReady := true }

/-- The reset state of `c` with these inputs to come. -/
def start (c : Config) (ins : List Input) : State := { State.resetOf c with inputs := ins }

/-- The same with the channels in the state `ch`. -/
def polled (c : Config) (ch : Channel) (ins : List Input) : State := { start c ins with deb := [ch] }

/-- The same with the transmitter and the pins given. -/
def sending (c : Config) (tx : Transmitter) (pin : Pins) (ins : List Input) : State :=
  { start c ins with tx := tx, pin := pin }

/-- The fatal state with cause ILLEGAL_CMD (60_exceptions.md R182). -/
def fatalState (c : Config) (ins : List Input) : State :=
  { start c ins with
    ftl := { fatal := true, cause := some .illegalCmd }, rsp := { valid := true, code := .fatal, data := 1 } }

/-- The next state, if the edge has one. -/
def nextOf : Edge → Option State
  | .next t => some t
  | .fault _ => none
  | .refused _ => none

/-- The response a step leaves. -/
def answer (s : State) : Option (RspCode × Word) :=
  (nextOf (step s)).map fun t => (t.rsp.code, t.rsp.data)

/-- The state after `k` steps. -/
def after (k : Nat) (s : State) : Option State := nextOf (Sys2Proof.core.run k s)

/-! ### Well-formedness (30_encoding.md R85): an ill-formed term for each check -/

theorem test_wf_refuses_channel : (Instr.poll 16).wf = false := by decide
theorem test_wf_refuses_active_index : (Instr.pixWrite 1048576 0 0 0 0).wf = false := by decide
theorem test_wf_refuses_red : (Instr.pixWrite 0 256 0 0 0).wf = false := by decide
theorem test_wf_refuses_green : (Instr.pixWrite 0 0 256 0 0).wf = false := by decide
theorem test_wf_refuses_blue : (Instr.pixWrite 0 0 0 256 0).wf = false := by decide
theorem test_wf_refuses_brightness : (Instr.pixWrite 0 0 0 0 256).wf = false := by decide
theorem test_wf_refuses_word_index : (Instr.rdWord 1048576).wf = false := by decide
theorem test_wf_refuses_byte_index : (Instr.rdByte 1048576).wf = false := by decide
theorem test_wf_refuses_delay : (Instr.sendBb 65536).wf = false := by decide
theorem test_wf_refuses_ignored_delay : (Instr.sendPer 65536).wf = false := by decide

/-! ### Decoding: words written out from the field layout of R75 to R77 -/

/-- All zero (43_system.md R170). -/
theorem test_decode_nop : decode (0b0000#4 ++ 0b0000#4 ++ 0#20 ++ 0b0000#4 ++ 0#32) = .ok .nop := by decide

/-- OP 1, SEL 3. -/
theorem test_decode_poll : decode (0b0001#4 ++ 0b0011#4 ++ 0#20 ++ 0b0000#4 ++ 0#32) = .ok (.poll 3) := by decide

/-- V-FR-2's word: OP 2, IDX 1, DATA brightness 0x15, red 0x12, green 0x34, blue 0x56. -/
theorem test_decode_pixWrite : decode 0x2000001015123456 = .ok (.pixWrite 1 0x12 0x34 0x56 21) := by decide

/-- The worked example of 41_frame.md R121. -/
theorem test_encode_pixWrite : encode (.pixWrite 0 255 0 128 10) = 0x200000000AFF0080 := by decide

/-- The worked example of 41_frame.md R123. -/
theorem test_decode_rdWord : decode 0x3000001000000000 = .ok (.rdWord 1) := by decide

/-- The worked example of 41_frame.md R124. -/
theorem test_decode_rdByte : decode 0x4000004000000000 = .ok (.rdByte 4) := by decide

/-- V-TX-2's word. -/
theorem test_decode_sendBb : decode 0x5000000000000001 = .ok (.sendBb 1) := by decide

/-- V-TX-16's word. -/
theorem test_decode_sendPer : decode 0x600000000000FFFF = .ok (.sendPer 0xFFFF) := by decide

/-- OP 7, every other bit 0 (43_system.md R171). -/
theorem test_decode_rdStatus : decode (0b0111#4 ++ 0#60) = .ok .rdStatus := by decide

/-- The words V-ENC-1 to V-ENC-6, V-ENC-8, V-ENC-14 and V-ENC-15, each refused for the reason given there. -/
theorem test_decode_refuses :
    decode 0x8000000000000000 = .error .reservedOp ∧ decode 0xF000000000000001 = .error .reservedOp ∧
    decode 0x0000000000000001 = .error .dataNotZero ∧ decode 0x7000000000000001 = .error .dataNotZero ∧
    decode 0x3000000100000000 = .error .rsvNotZero ∧ decode 0x1000000000000001 = .error .dataNotZero ∧
    decode 0x2100000020000000 = .error .selNotZero ∧ decode 0x5000000000010000 = .error .dataNotZero ∧
    decode 0x6000001000000000 = .error .idxNotZero := by decide

/-- The table's numbering: the word is the whole 64-bit row. -/
theorem test_decodeTableWord : decodeTableWord 64 0x4000004000000000 = some (.rdByte 4) := by decide

/-- The assembler line of V-FR-2 with a hexadecimal operand and a comment (30_encoding.md R85). -/
theorem test_assemble :
    assembleLine ("PIX_WRITE 1, 0x12, 52, 86, 21 ; V-FR-2".toList) = .ok (some 0x2000001015123456) := by decide

/-- "k > 15 is an assembly error, not a command" (30_encoding.md R85). -/
theorem test_assemble_refuses : assembleLine ("POLL 16".toList) = .error .operandTooLarge := by decide

/-! ### One step per command -/

/-- V-ENC-17. -/
theorem test_nop : answer (start .standard [issue 0]) = some (.ok, 0) := by decide

/-- V-ENC-1, 3, 7, 9 and 10: the cause of each fatal (60_exceptions.md R180, R183). -/
theorem test_fatal_causes :
    answer (start .standard [issue 0x8000000000000000]) = some (.fatal, 1) ∧
    answer (start .standard [issue 0x0000000000000001]) = some (.fatal, 1) ∧
    answer (start .standard [issue 0x1100000000000000]) = some (.fatal, 3) ∧
    answer (start .standard [issue 0x2000002020000000]) = some (.fatal, 2) ∧
    answer (start .standard [issue 0x2000002000000000]) = some (.fatal, 3) := by decide

/-- V-DEB-1, rows 2, 3 and 6: a rise in a tick cycle, a fall, and a suppressed poll. -/
theorem test_poll :
    answer (polled one { stable := false, sync1 := true, sync2 := true, elapsed := 11 }
      [{ issue 0x1000000000000000 with tick := true }]) = some (.ok, 0x7) ∧
    answer (polled one { stable := true, sync1 := false, sync2 := false, elapsed := 11 }
      [issue 0x1000000000000000]) = some (.ok, 0xA) ∧
    answer (polled one { stable := false, sync1 := true, sync2 := true, elapsed := 10 }
      [{ issue 0x1000000000000000 with tick := true }]) = some (.ok, 0x0) := by decide

/-- V-DEB-1, rows 2 and 6: the counter after an accepted change in a tick cycle, and after a suppressed poll. -/
theorem test_poll_elapsed :
    (nextOf (step (polled one { stable := false, sync1 := true, sync2 := true, elapsed := 11 }
      [{ issue 0x1000000000000000 with tick := true }]))).map (fun t => t.deb.map Channel.elapsed) = some [1] ∧
    (nextOf (step (polled one { stable := false, sync1 := true, sync2 := true, elapsed := 10 }
      [{ issue 0x1000000000000000 with tick := true }]))).map (fun t => t.deb.map Channel.elapsed) = some [11] := by
  decide

/-- The worked example of 41_frame.md R121: frame[1] and its four bytes. -/
theorem test_pixWrite :
    (nextOf (step (start one [issue 0x200000000AFF0080]))).map (fun t => frameWord one t.frame 1) =
      some (some 0x8000FFEA) ∧
    (nextOf (step (start one [issue 0x200000000AFF0080]))).map (fun t => frameByteList one t.frame) =
      some [0, 0, 0, 0, 0xEA, 0xFF, 0x00, 0x80, 0xFF, 0xFF, 0xFF, 0xFF] := by decide

/-- V-FR-6: a pixel equal to the end marker, which is also the reset content, lists no byte. -/
theorem test_pixWrite_end_marker_value :
    (nextOf (step (start one [issue 0x200000001FFFFFFF]))).map State.frame = some [] := by decide

/-- V-FR-1. -/
theorem test_rdWord :
    answer (start .standard [issue 0x3000000000000000]) = some (.ok, 0x00000000) ∧
    answer (start .standard [issue 0x3000002000000000]) = some (.ok, 0xFFFFFFFF) ∧
    answer (start .standard [issue 0x3000003000000000]) = some (.ok, 0xFFFFFFFF) ∧
    answer (start .standard [issue 0x3000004000000000]) = some (.fatal, 3) := by decide

/-- V-FR-8, V-ENC-12 and V-ENC-13. -/
theorem test_rdByte :
    answer (start .standard [issue 0x4000003000000000]) = some (.ok, 0x00) ∧
    answer (start .standard [issue 0x400000F000000000]) = some (.ok, 0xFF) ∧
    answer (start .standard [issue 0x4000010000000000]) = some (.fatal, 3) := by decide

/-- V-TX-3: a pin fault at the first step, with `draw()` 0. -/
theorem test_sendBb_pin_fault :
    (after 2 (start one [issue 0x5000000000000000, { Input.quiet with pinFault := true }])).map
      (fun t => (t.pin.clk, t.pin.dat, t.rsp.valid, t.rsp.code, statusWord t.stat)) =
      some (false, true, true, .pinIoErr, 0x9) := by decide

/-- V-TX-1, its first three FSM cycles: the lines after each. -/
theorem test_sendBb_first_bit :
    ledLines (trace 4 (start one (issue 0x5000000000000000 :: List.replicate 3 Input.quiet))) =
      [(true, true), (true, true), (false, true), (false, false), (true, false)] := by decide

/-- V-TX-11 with PER_TIMEOUT = 2: two bytes taken, then PER_TIMEOUT; STATUS 0x1B. -/
theorem test_sendPer_timeout :
    (after 3 (start { one with perTimeout := 2 } (issue 0x6000000000000000 :: List.replicate 2 ready))).map
      (fun t => (t.rsp.code, statusWord t.stat)) = some (.perTimeout, 0x1B) ∧
    takenBytes (trace 3 (start { one with perTimeout := 2 } (issue 0x6000000000000000 :: List.replicate 2 ready))) =
      [0x00, 0x00] := by decide

/-- V-TX-14 with PER_TIMEOUT = 1: a reported failure beats the timeout. -/
theorem test_sendPer_error :
    (after 2 (start { one with perTimeout := 1 }
      [issue 0x6000000000000000, { ready with perErr := true }])).map (fun t => t.rsp.code) = some .perIoErr := by
  decide

/-- The corner case of 43_system.md R171. -/
theorem test_rdStatus : answer (start one [issue 0x7000000000000000]) = some (.ok, 0xF) := by decide

/-- V-TX-8: a reset during a send. -/
theorem test_reset_during_send :
    (after 3 (start one [issue 0x5000000000000000, Input.quiet, reset])).map
      (fun t => (t.tx.state, t.pin.clk, t.pin.dat, t.rsp.valid, statusWord t.stat)) =
      some (.idle, true, true, false, 0xF) := by decide

/-- The reset state's memory is in canonical form. -/
theorem test_reset_memory : Memory.wf State.reset.frame = true := by decide

/-! ### Witnesses: states that satisfy the invariant -/

/-- A state with the reset channels and frame satisfies the invariant when its other registers do. -/
theorem inv_of {c : Config} (hc : c.valid = true) (tx : Transmitter) (pin : Pins) (st : Status) (f : FatalState)
    (r : Response) (ins : List Input) (n : Nat)
    (hx : TxRanges c tx)
    (hw : WireLevels { State.resetOf c with tx := tx, pin := pin, stat := st, ftl := f, rsp := r, inputs := ins, cycle := n })
    (hf : f.fatal = f.cause.isSome ∧ (f.fatal = true → tx.state = .idle) ∧
      (f.fatal = true → r.data = (causeCode f.cause).zeroExtend 32) ∧ (r.code = .fatal ↔ f.fatal = true))
    (hs : st.stripUndef = decide (st.lastResult ≠ some .ok) ∧ variantFits st = true)
    (hq : tx.state ≠ .idle → r.valid = false) :
    LioInv { State.resetOf c with tx := tx, pin := pin, stat := st, ftl := f, rsp := r, inputs := ins, cycle := n } where
  config := hc
  channels := by simp [State.resetOf, Config.numInputs]
  elapsed := by
    intro k ch h
    simp only [State.resetOf, List.getElem?_map] at h
    cases hk : c.channels[k]? with
    | none => rw [hk] at h; cases h
    | some x => rw [hk] at h; cases h; simp [Channel.reset]
  frameForm := rfl
  frameWindow := by simp [State.resetOf]
  header := by
    intro i v hi h
    have h0 := (frameWord_eq_some.1 h).1
    rw [frameByte_active _ (by omega) (by simp only [State.resetOf] at hi ⊢; omega)] at h0
    have hb : Word.byte v 0 = 0xFF := by
      rw [← Option.some.inj h0]
      simp [State.resetOf, Memory.get, unlistedByte]
    unfold pixelHeader
    rw [(byte0_parts v).2, hb]
    rfl
  txRanges := hx
  wire := hw
  fatalCause := hf.1
  fatalIdle := hf.2.1
  fatalRsp := hf.2.2.1
  fatalCode := hf.2.2.2
  stripUndef := hs.1
  variant := hs.2
  quietSend := hq

/-- The status, fatal and response registers at reset. -/
theorem inv_sending {c : Config} (hc : c.valid = true) (tx : Transmitter) (pin : Pins) (ins : List Input)
    (hx : TxRanges c tx) (hw : WireLevels (sending c tx pin ins)) : LioInv (sending c tx pin ins) :=
  inv_of hc tx pin _ _ _ ins 0 hx hw ⟨rfl, fun h => (by cases h), fun h => (by cases h), by simp [start, State.resetOf]⟩
    ⟨rfl, rfl⟩ (fun _ => rfl)

/-- Every reset state with inputs to come. -/
theorem inv_start {c : Config} (hc : c.valid = true) (ins : List Input) : LioInv (start c ins) :=
  inv_sending hc Transmitter.reset { clk := true, dat := true } ins rfl trivial

theorem inv_fatalState : LioInv (fatalState one (List.replicate 3 Input.quiet)) :=
  inv_of (by decide) Transmitter.reset { clk := true, dat := true } _ _ _ _ 0 rfl trivial
    ⟨rfl, fun _ => rfl, fun _ => rfl, by simp⟩ ⟨rfl, rfl⟩ (by simp [Transmitter.reset])

/-- The last cycle of a bit-banged send: END_DAT. -/
def lastCycle (ins : List Input) : State :=
  sending one { state := .bbEndDat, j := 11, b := 0, d := 0, w := 0, t := 0 } { clk := true, dat := true } ins

theorem inv_lastCycle (ins : List Input) : LioInv (lastCycle ins) :=
  inv_sending (by decide) _ _ _ ⟨⟨by decide, by decide, rfl⟩, rfl, rfl, rfl⟩ ⟨rfl, rfl⟩

/-- A data step that changes the data line: bit 7 of byte 0 is 0. -/
def dataCycle (ins : List Input) : State :=
  sending one { state := .bbDat, j := 0, b := 7, d := 0, w := 0, t := 0 } { clk := false, dat := true } ins

theorem inv_dataCycle (ins : List Input) : LioInv (dataCycle ins) :=
  inv_sending (by decide) _ _ _ ⟨⟨by decide, by decide, rfl⟩, rfl⟩ rfl

/-- A transfer cycle of a SEND_PER, at byte `j` after `t` cycles. -/
def transferCycle (c : Config) (j t : Nat) (ins : List Input) : State :=
  sending c { state := .perXfer, j := j, b := 7, d := 0, w := 0, t := t } { clk := true, dat := true } ins

/-- A state of the bit-banged machine at byte `j`, bit `b`, with delay `d` and `w` cycles to wait. -/
def bitCycle (st : TxState) (j : Nat) (b : Fin 8) (d w : Nat) (ins : List Input) : State :=
  sending one { state := st, j := j, b := b, d := d, w := w, t := 0 } { clk := false, dat := true } ins

/-! ### Witnesses: encoding -/

theorem witness_DecodeOfEncode :
    (Instr.pixWrite 1048575 255 255 255 255).wf = true ∧ (Instr.poll 15).wf = true ∧
      (Instr.sendBb 65535).wf = true := by decide

theorem witness_EncodeOfDecode : decode 0x2FFFFFFFFFFFFFFF = .error .selNotZero ∧
    decode 0x20FFFFF0FFFFFFFF = .ok (.pixWrite 1048575 255 255 255 255) := by decide

theorem witness_DecoderAgreesWithOpcodeTable :
    decode 0x1F00000000000000 = .ok (.poll 15) ∧ decode 0x1F00000000000001 = .error .dataNotZero := by decide

theorem witness_PixelReadsBack : 255 < 256 ∧ 0 < 256 ∧ 31 < 32 := by decide

/-- One accepted word for each way to be illegal: OP 8, RSV, SEL, IDX, DATA, the high half of DATA. -/
theorem witness_IllegalWordsRaiseIllegalCmd :
    ([0x8000000000000000, 0x1000000100000000, 0x2100000000000000, 0x1000001000000000, 0x4000000080000000,
      0x6000000000010000].all fun w => accepts (start one [issue w])) = true ∧
    IllegalWord 0x8000000000000000 ∧ IllegalWord 0x1000000100000000 ∧ IllegalWord 0x2100000000000000 ∧
    IllegalWord 0x1000001000000000 ∧ IllegalWord 0x4000000080000000 ∧ IllegalWord 0x6000000000010000 :=
  ⟨by decide, .inl (by decide), .inr (.inl (by decide)), .inr (.inr (.inl (by decide))),
    .inr (.inr (.inr (.inl (by decide)))), .inr (.inr (.inr (.inr (.inl (by decide))))),
    .inr (.inr (.inr (.inr (.inr (by decide)))))⟩

/-- One accepted word for each outcome of the checks; for the index, the first one out of range in each space. -/
theorem witness_ChecksFollowTheirOrder :
    ([0x2100000020000000, 0x2000001020000000, 0x1100000000000000, 0x2000001000000000, 0x3000003000000000,
      0x400000C000000000, 0x200000001F000000].all fun w => accepts (start one [issue w])) = true ∧
    IllegalWord 0x2100000020000000 ∧
    (¬ IllegalWord 0x2000001020000000 ∧ BrightnessTooHigh 0x2000001020000000) ∧
    (¬ IllegalWord 0x1100000000000000 ∧ ¬ BrightnessTooHigh 0x1100000000000000 ∧
      IndexTooHigh one 0x1100000000000000) ∧
    (¬ IllegalWord 0x2000001000000000 ∧ ¬ BrightnessTooHigh 0x2000001000000000 ∧
      IndexTooHigh one 0x2000001000000000) ∧
    (¬ IllegalWord 0x3000003000000000 ∧ ¬ BrightnessTooHigh 0x3000003000000000 ∧
      IndexTooHigh one 0x3000003000000000) ∧
    (¬ IllegalWord 0x400000C000000000 ∧ ¬ BrightnessTooHigh 0x400000C000000000 ∧
      IndexTooHigh one 0x400000C000000000) ∧
    (¬ IllegalWord 0x200000001F000000 ∧ ¬ BrightnessTooHigh 0x200000001F000000 ∧
      ¬ IndexTooHigh one 0x200000001F000000 ∧ (start one []).deb.length = one.numInputs) := by
  unfold IllegalWord BrightnessTooHigh IndexTooHigh
  refine ⟨by decide, .inr (.inr (.inl (by decide))), ⟨?_, ?_⟩, ⟨?_, ?_, ?_⟩, ⟨?_, ?_, ?_⟩, ⟨?_, ?_, ?_⟩, ⟨?_, ?_, ?_⟩,
    ⟨?_, ?_, ?_, ?_⟩⟩ <;> decide

/-- A line with blanks, a hexadecimal operand and a comment; one whose operand does not fit; SEND_PER without its operand,
after a tab; and a line that assembles. -/
theorem witness_AssembledLinesAreCommands :
    (CommandLine "PIX_WRITE 1, 0x12, 52, 86, 21 ; V-FR-2".toList "PIX_WRITE".toList [1, 18, 52, 86, 21] ∧
      WrittenAs "PIX_WRITE".toList [1, 18, 52, 86, 21] (.pixWrite 1 18 52 86 21) ∧ Fits (.pixWrite 1 18 52 86 21)) ∧
    (CommandLine "POLL 16".toList "POLL".toList [16] ∧ WrittenAs "POLL".toList [16] (.poll 16) ∧ ¬ Fits (.poll 16)) ∧
    (CommandLine "\tSEND_PER".toList "SEND_PER".toList [] ∧ WrittenAs "SEND_PER".toList [] (.sendPer 0) ∧
      Fits (.sendPer 0)) ∧
    assembleLine "SEND_PER".toList = .ok (some 0x6000000000000000) :=
  ⟨⟨⟨[], [' '], "; V-FR-2".toList, ["1".toList, " 0x12".toList, " 52".toList, " 86".toList, " 21 ".toList], by decide,
        by simp [Blanks], by simp [Blanks], by decide, mapM_readPiece_iff.1 (by decide), .inr ⟨_, rfl⟩⟩,
      ⟨rfl, rfl⟩, fits_iff.2 (by decide)⟩,
    ⟨⟨[], [' '], [], ["16".toList], by decide, by simp [Blanks], by simp [Blanks], by decide,
        mapM_readPiece_iff.1 (by decide), .inl rfl⟩, ⟨rfl, rfl⟩, fun h => absurd (fits_iff.1 h) (by decide)⟩,
    ⟨⟨['\t'], [], [], [], by decide, by simp [Blanks], by simp [Blanks], by decide, .nil, .inl rfl⟩,
      ⟨rfl, .inr ⟨rfl, rfl⟩⟩, fits_iff.2 (by decide)⟩,
    by decide⟩

/-- For each opcode, a well-formed word and an accepted word with a bit that must be 0 (the last clause of the eight
statements of a command's meaning). -/
theorem witness_command_words :
    (∀ p ∈ [(0, 0x0000000000000000#64, 0x0000000100000000#64), (1, 0x1F00000000000000#64, 0x1000001000000000#64),
      (2, 0x20FFFFF0FFFFFFFF#64, 0x2100000000000000#64), (3, 0x30FFFFF000000000#64, 0x3000000000000001#64),
      (4, 0x40FFFFF000000000#64, 0x4000000100000000#64), (5, 0x500000000000FFFF#64, 0x5000000000010000#64),
      (6, 0x600000000000FFFF#64, 0x6000001000000000#64), (7, 0x7000000000000000#64, 0x7100000000000000#64)],
      CmdWord.op p.2.1 = BitVec.ofNat 4 p.1 ∧ (decode p.2.1).toOption.isSome = true ∧
      CmdWord.op p.2.2 = BitVec.ofNat 4 p.1 ∧ (decode p.2.2).toOption.isSome = false ∧
      accepts (start one [issue p.2.2]) = true) := by decide

/-! ### Witnesses: debounce -/

/-- Lockout at its last count, and outside it with the levels different and equal; and the first index without a
channel. -/
theorem witness_PollUpdatesOneChannel :
    (polled one { stable := false, sync1 := true, sync2 := true, elapsed := 10 } []).deb[0]? =
      some { stable := false, sync1 := true, sync2 := true, elapsed := 10 } ∧
    one.channels[0]? = some { settle := 10, initLevel := false } ∧ 10 ≤ 10 ∧ 10 < 11 ∧ true ≠ false ∧
    one.numInputs ≤ 1 := by decide

theorem witness_SynchronizerDelaysTwoCycles :
    ∃ t u, (start one [Input.quiet, Input.quiet]).input.rst = false ∧
      step (start one [Input.quiet, Input.quiet]) = .next t ∧ t.input.rst = false ∧ step t = .next u ∧
      (start one [Input.quiet, Input.quiet]).deb[0]? = some (Channel.reset { settle := 10, initLevel := false }) :=
  ⟨_, _, rfl, rfl, rfl, rfl, rfl⟩

theorem witness_ChannelMovesOnlyByItsOwnPoll :
    ∃ t, (start one [Input.quiet]).input.rst = false ∧ step (start one [Input.quiet]) = .next t ∧
      ¬ (accepts (start one [Input.quiet]) = true ∧
        decode (start one [Input.quiet]).input.cmd = .ok (.poll 0)) :=
  ⟨_, rfl, rfl, by decide⟩

/-- A suppressed POLL in a tick cycle, then a tick. -/
def lockoutRun : State :=
  polled one { stable := false, sync1 := true, sync2 := true, elapsed := 9 }
    [{ issue 0x1000000000000000 with tick := true }, tick]

theorem witness_ElapsedCountsTicks :
    ∃ t, Sys2Proof.core.run 2 lockoutRun = .next t ∧ NoReset 2 lockoutRun ∧
      (∀ v ∈ cycles 2 lockoutRun, ¬ AcceptsChange v 0) ∧
      lockoutRun.deb[0]? = some { stable := false, sync1 := true, sync2 := true, elapsed := 9 } ∧
      lockoutRun.cfg.channels[0]? = some { settle := 10, initLevel := false } ∧ 9 ≤ 10 + 1 := by
  refine ⟨_, rfl, noReset_of_inputs 2 _ ⟨by decide, by decide⟩, ?_, rfl, rfl, by decide⟩
  intro v hv h
  obtain ⟨ha, -, ch, cc, h1, h2, h3, -⟩ := h
  have e : (cycles 2 lockoutRun).all (fun v => v.deb.all fun ch => decide (ch.elapsed ≤ 10)) = true := by decide
  have c : (cycles 2 lockoutRun).all (fun v => decide (v.cfg = one)) = true := by decide
  have hc : v.cfg = one := by simpa using List.all_eq_true.1 c v hv
  have h4 := List.all_eq_true.1 (List.all_eq_true.1 e v hv) ch (List.mem_of_getElem? h1)
  rw [hc] at h2
  have h5 : cc.settle = 10 := by cases h2; rfl
  simp only [decide_eq_true_eq] at h4
  omega

/-- With one tick before the last cycle, the count reaches SETTLE and no more. -/
theorem witness_SettleWindowHoldsStableLevel :
    ∃ t, Sys2Proof.core.run (1 + 1) lockoutRun = .next t ∧ NoReset (1 + 1) lockoutRun ∧
      lockoutRun.deb[0]? = some { stable := false, sync1 := true, sync2 := true, elapsed := 9 } ∧
      lockoutRun.cfg.channels[0]? = some { settle := 10, initLevel := false } ∧ 9 + ticks 1 lockoutRun ≤ 10 :=
  ⟨_, rfl, noReset_of_inputs 2 _ ⟨by decide, by decide⟩, rfl, rfl, by decide⟩

/-- SETTLE = 0: two accepted changes in a row, one tick apart. -/
def twoChanges : State :=
  polled { one with channels := [{ settle := 0, initLevel := false }] }
    { stable := false, sync1 := false, sync2 := true, elapsed := 1 }
    [{ issue 0x1000000000000000 with tick := true }, issue 0x1000000000000000]

theorem witness_AcceptedChangesAreSettleApart :
    ∃ t, AcceptsChange twoChanges 0 ∧ NoReset (0 + 1) twoChanges ∧ Sys2Proof.core.run (0 + 1) twoChanges = .next t ∧
      AcceptsChange t 0 ∧ twoChanges.cfg.channels[0]? = some { settle := 0, initLevel := false } :=
  ⟨_, ⟨by decide, by decide, _, _, rfl, rfl, by decide, by decide⟩, noReset_of_inputs 1 _ ⟨by decide, by decide⟩, rfl,
    ⟨by decide, by decide, _, _, rfl, rfl, by decide, by decide⟩, rfl⟩

theorem witness_DebounceQueriesReadThePoll :
    ∃ t after, twoChanges.deb[0]? = some { stable := false, sync1 := false, sync2 := true, elapsed := 1 } ∧
      twoChanges.cfg.channels[0]? = some { settle := 0, initLevel := false } ∧
      exec (.poll 0) twoChanges = .next t ∧ t.deb[0]? = some after :=
  ⟨_, _, rfl, rfl, rfl, rfl⟩

theorem witness_RawLinesReachOnlyTheFirstFlop :
    ∃ t, (start one [tick]).inputs = tick :: [] ∧ step (start one [tick]) = .next t :=
  ⟨_, rfl, rfl⟩

/-! ### Witnesses: the frame -/

/-- The last active index and brightness 31; brightness 32; the first index out of range. -/
theorem witness_PixWriteStoresThePixel :
    Memory.wf (start one []).frame = true ∧ 255 < 256 ∧ 31 < 32 ∧ 0 < one.n ∧ 32 ≤ 32 ∧ one.n ≤ 1 := by decide

theorem witness_PixWriteTouchesOneEntry :
    (∃ t, exec (.pixWrite 0 1 2 3 31) (start one [Input.quiet]) = .next t) ∧
    activeAddress 0 = 4 ∧ (3 < 4 ∨ 4 + 4 ≤ 3) ∧ (8 < 4 ∨ 4 + 4 ≤ 8) ∧ 31 < 32 ∧ 0 < one.n :=
  ⟨⟨_, rfl⟩, by decide⟩

/-- The last entry of the word view is entry 2, and 3 is the first index out of range. -/
theorem witness_RdWordReadsAnEntry :
    (0 < one.n + 2 ∧ 2 < one.n + 2 ∧ 2 = one.n + 1 ∧ one.n + 2 ≤ 3) ∧
    (start one [reset, Input.quiet]).input.rst = true ∧ 1 ≤ 1 ∧ 1 ≤ one.n ∧
    (∃ r t, step (start one [reset, Input.quiet]) = .next r ∧ exec (.rdWord 1) r = .next t) :=
  ⟨by decide, rfl, by decide, by decide, _, _, rfl, rfl⟩

theorem witness_RdByteReadsAByte :
    (3 < 4 * (one.n + 2) ∧ 3 < 4 ∧ 4 * (one.n + 1) ≤ 8 ∧ 11 < 4 * (one.n + 2) ∧ 4 * (one.n + 2) ≤ 12) ∧
    Memory.wf (start one [Input.quiet, Input.quiet]).frame = true ∧ 255 < 256 ∧ 31 < 32 ∧ 0 < one.n ∧ 3 < 4 ∧
    (∃ t u, exec (.pixWrite 0 255 0 128 31) (start one [Input.quiet, Input.quiet]) = .next t ∧
      exec (.rdByte (4 * (0 + 1) + 3)) t = .next u) :=
  ⟨by decide, by decide, by decide, by decide, by decide, by decide, _, _, rfl, rfl⟩

/-- The two clauses of RdStatusReadsStatus that have hypotheses of their own: after a reset, and during a send. -/
theorem witness_RdStatusReadsStatus :
    (start one [reset, Input.quiet]).input.rst = true ∧
    (∃ r t, step (start one [reset, Input.quiet]) = .next r ∧ exec .rdStatus r = .next t) ∧
    (dataCycle [Input.quiet]).tx.state ≠ .idle :=
  ⟨rfl, ⟨_, _, rfl, rfl⟩, by decide⟩

theorem witness_WordViewAgreesWithByteView :
    2 < one.n + 2 ∧
    (∃ t, (transferCycle one 11 0 [Input.quiet]).tx.j < 4 * (one.n + 2) ∧
      exec (.rdByte 11) (transferCycle one 11 0 [Input.quiet]) = .next t ∧
      (transferCycle one 11 0 [Input.quiet]).tx.state = .perXfer) ∧
    (∃ t, (dataCycle [Input.quiet]).tx.j < 4 * (one.n + 2) ∧
      exec (.rdByte 0) (dataCycle [Input.quiet]) = .next t ∧ (dataCycle [Input.quiet]).tx.state = .bbDat ∧
      (dataCycle [Input.quiet]).input.rst = false ∧ (dataCycle [Input.quiet]).input.pinFault = false) :=
  ⟨by decide, ⟨_, by decide, rfl, rfl⟩, ⟨_, by decide, rfl, rfl, rfl, rfl⟩⟩

theorem witness_ReadReturnsMostRecentWrite :
    ∃ t u, Memory.wf (start one [Input.quiet, Input.quiet]).frame = true ∧ 31 < 32 ∧ 0 < one.n ∧
      exec (.pixWrite 0 1 2 3 31) (start one [Input.quiet, Input.quiet]) = .next t ∧
      Sys2Proof.core.run 1 t = .next u ∧ NoWriteTo 0 1 t := by
  refine ⟨_, _, by decide, by decide, by decide, rfl, rfl, ?_⟩
  intro v hv
  obtain rfl := List.mem_singleton.1 hv
  exact ⟨rfl, fun r g b br h => absurd h.1 (by decide)⟩

/-- An edge without a command, and an accepted PIX_WRITE that is out of range. -/
theorem witness_OnlyPixWriteWritesTheFrame :
    (∃ t, step (start one [Input.quiet]) = .next t ∧ (start one [Input.quiet]).input.rst = false ∧
      accepts (start one [Input.quiet]) = false) ∧
    (∃ t, step (start one [issue 0x2000001000000000]) = .next t ∧
      decode (start one [issue 0x2000001000000000]).input.cmd = .ok (.pixWrite 1 0 0 0 0) ∧ ¬ (0 < 32 ∧ 1 < one.n)) :=
  ⟨⟨_, rfl, rfl, rfl⟩, ⟨_, rfl, by decide, by decide⟩⟩

/-- A generator that answers the brightest red. -/
def red : Generator := fun _ _ br => { red := 255, green := 0, blue := 0, brightness := br }

theorem witness_FillWritesEveryActiveEntry :
    LioInv (start one [issue 0x200000001FFF0000]) ∧ cmdReady (start one [issue 0x200000001FFF0000]) = true ∧
    (∀ i, i < one.n → (red i 0 31).red < 256 ∧ (red i 0 31).green < 256 ∧ (red i 0 31).blue < 256 ∧
      (red i 0 31).brightness < 32) ∧
    Presents (fillCommands one.n red 0 31) (start one [issue 0x200000001FFF0000]) := by
  refine ⟨inv_start (by decide) _, by decide, by decide, ?_⟩
  intro q i h
  cases q with
  | zero => cases h; exact ⟨_, rfl, rfl, rfl, by decide⟩
  | succ q => simp [fillCommands, one] at h

/-! ### Witnesses: the transmitter -/

/-- Each of the five pin-write states; and a state that writes no pin. -/
theorem witness_PinWriteStepDrivesOnePin :
    (bitCycle .bbClkLo 0 7 0 0 [Input.quiet]).input.rst = false ∧
    PinStep (bitCycle .bbClkLo 0 7 0 0 [Input.quiet]) .clk false ∧
    PinStep (bitCycle .bbDat 0 7 0 0 [Input.quiet]) .dat false ∧
    PinStep (bitCycle .bbClkHi 0 7 0 0 [Input.quiet]) .clk true ∧
    PinStep (bitCycle .bbEndClk 11 0 0 0 [Input.quiet]) .clk true ∧
    PinStep (bitCycle .bbEndDat 11 0 0 0 [Input.quiet]) .dat true ∧
    (bitCycle .bbWait1 0 7 1 1 [Input.quiet]).inputs = Input.quiet :: [] ∧
    (∀ p v, ¬ PinStep (bitCycle .bbWait1 0 7 1 1 [Input.quiet]) p v) :=
  ⟨rfl, ⟨rfl, rfl⟩, ⟨rfl, by decide⟩, ⟨rfl, rfl⟩, ⟨rfl, rfl⟩, ⟨rfl, rfl⟩, rfl, fun _ _ h => h⟩

/-- Both ways into the cursor's move, and each of its three outcomes: bit 7, the last bit of byte 10, the last bit. -/
theorem witness_CursorWalksTheFrame :
    (∀ p ∈ [(0, (7 : Fin 8)), (10, 0), (11, 0)],
      (bitCycle .bbClkHi p.1 p.2 0 0 [Input.quiet]).input.rst = false ∧
      (bitCycle .bbClkHi p.1 p.2 0 0 [Input.quiet]).tx.state = .bbClkHi ∧
      (bitCycle .bbClkHi p.1 p.2 0 0 [Input.quiet]).tx.d = 0 ∧
      (bitCycle .bbClkHi p.1 p.2 0 0 [Input.quiet]).input.pinFault = false ∧
      (bitCycle .bbWait2 p.1 p.2 1 1 [Input.quiet]).tx.state = .bbWait2 ∧
      (bitCycle .bbWait2 p.1 p.2 1 1 [Input.quiet]).tx.w = 1) ∧
    0 < (7 : Fin 8).val ∧ 10 < 4 * (one.n + 2) - 1 ∧ 4 * (one.n + 2) - 1 ≤ 11 := by decide

/-- Each state of the machine, with and without a delay; and a pin write that fails. -/
theorem witness_BitBangedMachineFollowsItsTable :
    (∀ st ∈ [TxState.bbClkLo, .bbDat, .bbWait1, .bbClkHi, .bbWait2, .bbEndClk, .bbEndDat], ∀ p ∈ [(0, 2), (1, 1), (0, 0)],
      (bitCycle st 11 0 p.1 p.2 [Input.quiet]).input.rst = false ∧ (bitCycle st 11 0 p.1 p.2 [Input.quiet]).tx.state = st ∧
      (bitCycle st 11 0 p.1 p.2 [Input.quiet]).input.pinFault = false ∧
      (bitCycle st 11 0 p.1 p.2 [Input.quiet]).tx.d = p.1 ∧ (bitCycle st 11 0 p.1 p.2 [Input.quiet]).tx.w = p.2) ∧
    frameByte one (bitCycle .bbDat 11 0 0 0 []).frame 11 = some 0xFF ∧
    (bitCycle .bbClkLo 0 7 0 0 [{ Input.quiet with pinFault := true }]).input.pinFault = true ∧
    PinStep (bitCycle .bbClkLo 0 7 0 0 [{ Input.quiet with pinFault := true }]) .clk false :=
  ⟨by decide, by decide, by decide, ⟨rfl, rfl⟩⟩

theorem witness_WaitLastsTheDelay :
    (∀ st ∈ [TxState.bbWait1, .bbWait2],
      ((bitCycle st 0 7 2 2 (List.replicate 2 Input.quiet)).tx.state = .bbWait1 ∨
        (bitCycle st 0 7 2 2 (List.replicate 2 Input.quiet)).tx.state = .bbWait2) ∧
      1 ≤ (bitCycle st 0 7 2 2 (List.replicate 2 Input.quiet)).tx.w ∧
      1 < (bitCycle st 0 7 2 2 (List.replicate 2 Input.quiet)).tx.w) ∧
    NoReset 2 (bitCycle .bbWait1 0 7 2 2 (List.replicate 2 Input.quiet)) ∧
    NoReset 2 (bitCycle .bbWait2 0 7 2 2 (List.replicate 2 Input.quiet)) :=
  ⟨by decide, noReset_of_inputs 2 _ (inputsAre_replicate rfl rfl), noReset_of_inputs 2 _ (inputsAre_replicate rfl rfl)⟩

/-- The end of a bit-banged send, and of a SEND_PER. -/
theorem witness_SendsCompleteOnlyThroughFinish :
    (∃ t, LioInv (lastCycle [Input.quiet]) ∧ step (lastCycle [Input.quiet]) = .next t ∧
      (lastCycle [Input.quiet]).input.rst = false ∧ (lastCycle [Input.quiet]).tx.state ≠ .idle ∧ t.tx.state = .idle) ∧
    (∃ t, LioInv (transferCycle one 11 11 [ready]) ∧ step (transferCycle one 11 11 [ready]) = .next t ∧
      (transferCycle one 11 11 [ready]).input.rst = false ∧ (transferCycle one 11 11 [ready]).tx.state ≠ .idle ∧
      t.tx.state = .idle) :=
  ⟨⟨_, inv_lastCycle _, rfl, rfl, by decide, rfl⟩,
    ⟨_, inv_sending (by decide) _ _ _ ⟨by decide, by decide, by decide, rfl, rfl, rfl⟩ trivial, rfl, rfl, by decide, rfl⟩⟩

/-- Every branch: a failed handshake, the last byte, the budget used up, one more byte, a stall. -/
theorem witness_PeripheralTransferFollowsItsRule :
    (∀ p ∈ [(0, 0, { ready with perErr := true }), (11, 11, ready), (0, 99, Input.quiet), (0, 0, ready),
        (0, 0, Input.quiet)],
      (transferCycle one p.1 p.2.1 [p.2.2]).input.rst = false ∧ (transferCycle one p.1 p.2.1 [p.2.2]).tx.state = .perXfer ∧
      (transferCycle one p.1 p.2.1 [p.2.2]).tx.j < 4 * (one.n + 2)) ∧
    (ready.perReady = true ∧ (11 = 4 * (one.n + 2) - 1) ∧ one.perTimeout ≤ 99 + 1 ∧ 0 + 1 < one.perTimeout) ∧
    ((transferCycle one 0 0 [Input.quiet]).inputs = Input.quiet :: [] ∧ Input.quiet.perReady = false) ∧
    ((dataCycle [ready]).inputs = ready :: [] ∧ perValid (dataCycle [ready]) = false) := by decide

/-- The listed inputs of the quiet send: 290 cycles for one pixel without a delay. -/
theorem witness_SendBbDrivesTheWaveform :
    ∃ u, LioInv (start one (Input.quiet :: List.replicate 290 Input.quiet)) ∧
      cmdReady (start one (Input.quiet :: List.replicate 290 Input.quiet)) = true ∧ 0 < 65536 ∧
      exec (.sendBb 0) (start one (Input.quiet :: List.replicate 290 Input.quiet)) = .next u ∧
      InputsAre (sendLength one (0 * one.cyclesPerUs)) (fun i => i.rst = false ∧ i.pinFault = false) u :=
  ⟨_, inv_start (by decide) _, rfl, by decide, rfl, inputsAre_replicate rfl ⟨rfl, rfl⟩⟩

theorem witness_SendBbCarriesTheFrameBits :
    ∃ u, LioInv (start one (Input.quiet :: List.replicate 482 Input.quiet)) ∧
      cmdReady (start one (Input.quiet :: List.replicate 482 Input.quiet)) = true ∧ 1 < 65536 ∧
      exec (.sendBb 1) (start one (Input.quiet :: List.replicate 482 Input.quiet)) = .next u ∧
      InputsAre (sendLength one (1 * one.cyclesPerUs)) (fun i => i.rst = false ∧ i.pinFault = false) u :=
  ⟨_, inv_start (by decide) _, rfl, by decide, rfl, inputsAre_replicate rfl ⟨rfl, rfl⟩⟩

/-- A peripheral that is always ready: 12 bytes in 12 cycles. -/
theorem witness_SendPerHandsOverTheFrame :
    ∃ u, LioInv (start one (Input.quiet :: List.replicate 12 ready)) ∧
      cmdReady (start one (Input.quiet :: List.replicate 12 ready)) = true ∧
      exec (.sendPer 0) (start one (Input.quiet :: List.replicate 12 ready)) = .next u ∧
      InputsAre 12 (fun i => i.rst = false ∧ (i.perReady = true → i.perErr = false)) u ∧ 1 ≤ 12 ∧
      12 ≤ one.perTimeout ∧ readyCount 12 u = 4 * (one.n + 2) ∧ readyCount (12 - 1) u = 4 * (one.n + 2) - 1 :=
  ⟨_, inv_start (by decide) _, rfl, rfl, inputsAre_replicate rfl ⟨rfl, fun _ => rfl⟩, by decide, by decide, rfl, rfl⟩

/-- PER_TIMEOUT = 11, one too few for one pixel (V-TX-11). -/
theorem witness_SendPerTimesOut :
    ∃ u, LioInv (start { one with perTimeout := 11 } (Input.quiet :: List.replicate 11 ready)) ∧
      cmdReady (start { one with perTimeout := 11 } (Input.quiet :: List.replicate 11 ready)) = true ∧
      exec (.sendPer 0) (start { one with perTimeout := 11 } (Input.quiet :: List.replicate 11 ready)) = .next u ∧
      InputsAre 11 (fun i => i.rst = false ∧ (i.perReady = true → i.perErr = false)) u ∧
      readyCount 11 u < 4 * (one.n + 2) :=
  ⟨_, inv_start (by decide) _, rfl, rfl, inputsAre_replicate rfl ⟨rfl, fun _ => rfl⟩, by decide⟩

/-- A transfer with two cycles to go, and a bit-banged send at its end. -/
theorem witness_EverySendEnds :
    (LioInv (transferCycle { one with perTimeout := 2 } 0 0 (List.replicate 2 Input.quiet)) ∧
      (transferCycle { one with perTimeout := 2 } 0 0 (List.replicate 2 Input.quiet)).tx.state ≠ .idle ∧
      NoReset 2 (transferCycle { one with perTimeout := 2 } 0 0 (List.replicate 2 Input.quiet))) ∧
    (LioInv (lastCycle (List.replicate 290 Input.quiet)) ∧ (lastCycle (List.replicate 290 Input.quiet)).tx.state ≠ .idle ∧
      NoReset (sendLength one 0) (lastCycle (List.replicate 290 Input.quiet))) :=
  ⟨⟨inv_sending (by decide) _ _ _ ⟨by decide, by decide, by decide, rfl, rfl, rfl⟩ trivial, by decide,
      noReset_of_inputs 2 _ (inputsAre_replicate rfl rfl)⟩,
    ⟨inv_lastCycle _, by decide, noReset_of_inputs _ _ (inputsAre_replicate rfl rfl)⟩⟩

theorem witness_SendLeavesTheRestAlone :
    ∃ t, step (dataCycle [Input.quiet]) = .next t ∧ (dataCycle [Input.quiet]).input.rst = false ∧
      (dataCycle [Input.quiet]).tx.state ≠ .idle :=
  ⟨_, rfl, rfl, by decide⟩

/-- What a conforming peripheral drives for these bits with a bit period of two cycles: clock low with the bit, then clock
high with it; both lines high before the first. -/
def peripheralLines (bits : List Bool) : List Lines :=
  (true, true) :: (bits.flatMap fun v => [(false, v), (true, v)])

/-- The reset frame of one pixel, a byte a cycle, and no byte in the cycle after. -/
def resetFrameTaken : List (Option Byte) :=
  List.replicate 4 (some 0x00) ++ List.replicate 8 (some 0xFF) ++ [none]

/-- The lines of a conforming peripheral for them, up to a cycle with nothing left to send. -/
def resetFrameLines : List Lines := peripheralLines (frameBits one []) ++ [(true, true)]

theorem resetFrame_conforms :
    risingSamples resetFrameLines = (resetFrameTaken.filterMap id).flatMap msbFirst ∧
    edgesFollowBytes resetFrameTaken resetFrameLines = true ∧ dataStable resetFrameLines = true ∧
    fixedRate 2 0 (risingCycles 0 resetFrameLines) = true ∧ idleLinesHigh 2 resetFrameTaken resetFrameLines = true ∧
    resetFrameLines ≠ [] ∧ noBitToSend 2 resetFrameTaken resetFrameLines (resetFrameLines.length - 1) = true := by
  decide +kernel

/-- A peripheral that drives both lines high in a gap between two bytes conforms to item 5; one that leaves the clock low
there does not (42_transmit.md R160). -/
theorem test_idleLinesHigh_in_a_gap :
    idleLinesHigh 2 [some 0xFF, none, none]
      (peripheralLines (msbFirst 0xFF) ++ [(true, true), (true, true)]) = true ∧
    idleLinesHigh 2 [some 0xFF, none, none]
      (peripheralLines (msbFirst 0xFF) ++ [(false, true), (true, true)]) = false := by decide +kernel
/-- The transfer of that frame to a peripheral that is always ready, from its first cycle on. -/
def transferRun : State :=
  { start one (List.replicate 12 ready ++ [Input.quiet]) with
    tx := { state := .perXfer, j := 0, b := 7, d := 0, w := 0, t := 0 }, cycle := 1 }

theorem transferRun_taken : (trace 12 transferRun).map byteTaken = resetFrameTaken := by decide +kernel

theorem witness_VariantsCarryTheSamePayload :
    ∃ u v, LioInv (start one (Input.quiet :: List.replicate 290 Input.quiet)) ∧
      cmdReady (start one (Input.quiet :: List.replicate 290 Input.quiet)) = true ∧ 0 < 65536 ∧
      exec (.sendBb 0) (start one (Input.quiet :: List.replicate 290 Input.quiet)) = .next u ∧
      InputsAre (sendLength one (0 * one.cyclesPerUs)) (fun i => i.rst = false ∧ i.pinFault = false) u ∧
      exec (.sendPer 0) { start one (Input.quiet :: List.replicate 290 Input.quiet) with
        inputs := Input.quiet :: (List.replicate 12 ready ++ [Input.quiet]) } = .next v ∧
      InputsAre 12 (fun i => i.rst = false ∧ (i.perReady = true → i.perErr = false)) v ∧ 1 ≤ 12 ∧
      12 ≤ one.perTimeout ∧ readyCount 12 v = 4 * (one.n + 2) ∧ readyCount (12 - 1) v = 4 * (one.n + 2) - 1 ∧
      PeripheralConforms one.perBitPeriod (trace 12 v) resetFrameLines := by
  obtain ⟨bits, order, stable, rate, idle, drained⟩ := resetFrame_conforms
  refine ⟨_, transferRun, inv_start (by decide) _, rfl, by decide, rfl, inputsAre_replicate rfl ⟨rfl, rfl⟩, rfl,
    ⟨by decide, by decide⟩, by decide, by decide, rfl, rfl, ?_⟩
  rw [← transferRun_taken] at bits order idle drained
  rw [List.filterMap_map] at bits
  exact ⟨bits, order, stable, rate, idle, by decide +kernel, drained⟩

theorem witness_DataChangesOnlyWhileClockLow :
    ∃ t, LioInv (dataCycle [Input.quiet]) ∧ step (dataCycle [Input.quiet]) = .next t ∧
      (dataCycle [Input.quiet]).input.rst = false ∧ (dataCycle [Input.quiet]).input.pinFault = false ∧
      t.pin.dat ≠ (dataCycle [Input.quiet]).pin.dat :=
  ⟨_, inv_dataCycle _, rfl, rfl, rfl, by decide⟩

theorem witness_PinsMoveOnlyInPinWriteSteps :
    ∃ t, step (dataCycle [Input.quiet]) = .next t ∧ t.pin ≠ (dataCycle [Input.quiet]).pin :=
  ⟨_, rfl, by decide⟩

theorem witness_StatusMovesOnlyAtCompletion :
    ∃ t, step (lastCycle [Input.quiet]) = .next t ∧ t.stat ≠ (lastCycle [Input.quiet]).stat :=
  ⟨_, rfl, by decide⟩

/-! ### Witnesses: the command port, the fatal state, reset, the invariant -/

theorem witness_StepRunsTheAcceptedCommand :
    ([0x5000000000000001, 0x8000000000000000].all fun w =>
      !(start one [issue w]).input.rst && !(start one [issue w]).ftl.fatal &&
      decide ((start one [issue w]).tx.state = .idle) && (start one [issue w]).input.cmdValid) = true ∧
    decode (start one [issue 0x5000000000000001]).input.cmd = .ok (.sendBb 1) ∧
    decode (start one [issue 0x8000000000000000]).input.cmd = .error .reservedOp := by decide

theorem witness_PresentedCommandRunsNext : (Instr.pixWrite 1048575 255 255 255 255).wf = true := by decide

/-- A busy port, a fatal one, and one in reset. -/
theorem witness_UnacceptedCommandHasNoEffect :
    (dataCycle [Input.quiet]).inputs = Input.quiet :: [] ∧ cmdReady (dataCycle [Input.quiet]) = false ∧
    cmdReady (fatalState one [Input.quiet]) = false ∧ cmdReady (start one [reset]) = false := by decide

/-- A one-cycle command, a SEND, a busy cycle, an idle cycle. -/
theorem witness_OneResponsePerCommand :
    (∃ t, LioInv (start one [issue 0]) ∧ step (start one [issue 0]) = .next t ∧ (start one [issue 0]).input.rst = false ∧
      accepts (start one [issue 0]) = true ∧ (∀ dly, decode (start one [issue 0]).input.cmd ≠ .ok (.sendBb dly)) ∧
      (∀ ign, decode (start one [issue 0]).input.cmd ≠ .ok (.sendPer ign))) ∧
    (∃ t, LioInv (start one [issue 0x6000000000000000]) ∧ step (start one [issue 0x6000000000000000]) = .next t ∧
      accepts (start one [issue 0x6000000000000000]) = true ∧
      decode (start one [issue 0x6000000000000000]).input.cmd = .ok (.sendPer 0)) ∧
    (∃ t, LioInv (dataCycle [Input.quiet]) ∧ step (dataCycle [Input.quiet]) = .next t ∧
      (dataCycle [Input.quiet]).tx.state ≠ .idle ∧ t.rsp.valid = false) ∧
    (∃ t, LioInv (start one [Input.quiet]) ∧ step (start one [Input.quiet]) = .next t ∧
      accepts (start one [Input.quiet]) = false ∧ (start one [Input.quiet]).tx.state = .idle) := by
  have hd : decode (start one [issue 0]).input.cmd = .ok .nop := by decide
  exact ⟨⟨_, inv_start (by decide) _, rfl, rfl, by decide, fun _ => by rw [hd]; simp, fun _ => by rw [hd]; simp⟩,
    ⟨_, inv_start (by decide) _, rfl, by decide, by decide⟩, ⟨_, inv_dataCycle _, rfl, by decide, rfl⟩,
    ⟨_, inv_start (by decide) _, rfl, by decide, rfl⟩⟩

theorem witness_FatalStateIsEnteredWholeAndHeld :
    (∃ t, step (start one [issue 0x8000000000000000]) = .next t ∧
      (start one [issue 0x8000000000000000]).ftl.fatal = false ∧ t.ftl.fatal = true) ∧
    (∃ t, LioInv (fatalState one (List.replicate 3 Input.quiet)) ∧
      (fatalState one (List.replicate 3 Input.quiet)).ftl.fatal = true ∧
      (fatalState one (List.replicate 3 Input.quiet)).input.rst = false ∧
      step (fatalState one (List.replicate 3 Input.quiet)) = .next t) :=
  ⟨⟨_, rfl, rfl, rfl⟩, ⟨_, inv_fatalState, rfl, rfl, rfl⟩⟩

theorem witness_FatalStaysUntilReset :
    ∃ t, LioInv (fatalState one (List.replicate 3 Input.quiet)) ∧
      (fatalState one (List.replicate 3 Input.quiet)).ftl.fatal = true ∧
      NoReset 3 (fatalState one (List.replicate 3 Input.quiet)) ∧
      Sys2Proof.core.run 3 (fatalState one (List.replicate 3 Input.quiet)) = .next t :=
  ⟨_, inv_fatalState, rfl, noReset_of_inputs 3 _ (inputsAre_replicate rfl rfl), rfl⟩

/-- The three causes, each entered from a state that is not fatal. -/
theorem witness_FatalCauseIsShownAtThePorts :
    (∃ t, step (start one [issue 0x8000000000000000]) = .next t ∧ t.ftl = { fatal := true, cause := some .illegalCmd }) ∧
    (∃ t, step (start one [issue 0x2000000020000000]) = .next t ∧
      t.ftl = { fatal := true, cause := some .brightnessRange }) ∧
    (∃ t, step (start one [issue 0x1100000000000000]) = .next t ∧ t.ftl = { fatal := true, cause := some .indexRange }) :=
  ⟨⟨_, rfl, rfl⟩, ⟨_, rfl, rfl⟩, ⟨_, rfl, rfl⟩⟩

theorem witness_ResetInstallsEveryValue :
    (fatalState one [reset]).input.rst = true ∧ one.channels[0]? = some { settle := 10, initLevel := false } ∧ 1 ≤ one.n ∧
    (∃ t, step (fatalState one [reset]) = .next t ∧ (fatalState one [reset]).ftl.fatal = true ∧ t.ftl.fatal = false) :=
  ⟨rfl, rfl, by decide, ⟨_, rfl, rfl, rfl⟩⟩

theorem witness_ResetStateSatisfiesInv : one.valid = true ∧ Config.standard.valid = true := by decide

theorem witness_StepKeepsInv :
    ∃ t, LioInv (dataCycle [Input.quiet]) ∧ step (dataCycle [Input.quiet]) = .next t :=
  ⟨_, inv_dataCycle _, rfl⟩

theorem witness_StepAlwaysAnswersNext : LioInv (dataCycle []) := inv_dataCycle _

theorem witness_ParametersNeverChange :
    (∃ t, step (start one [reset]) = .next t) ∧ (∃ t, exec .nop (start one [Input.quiet]) = .next t) :=
  ⟨⟨_, rfl⟩, ⟨_, rfl⟩⟩

end Sys2Proof.Tests
end

section
/-! PROOFS. The pixel record read back (30_encoding.md R71), and the checks at acceptance in their order (R81,
60_exceptions.md R183). The checks are stated on the command word; they are carried over to the instruction the word
decodes to, and there each one is a case of that instruction's meaning. -/

namespace Sys2Proof.Machine

open Sys2Proof.Claims

/-! ### Legal words (30_encoding.md R78) -/

/-- No word that decodes has a reserved opcode or a must-be-0 bit set. -/
theorem not_illegalWord_of_decode {c : CmdWord} {i : Instr} (h : decode c = .ok i) : ¬ IllegalWord c := by
  rcases decode_eq_ok.1 h with h | h | h | h | h | h | h | h <;>
    simp_all [IllegalWord, Word.half]

/-- A word of a known opcode with every must-be-0 bit clear decodes: one row of the decoder per opcode. -/
theorem decode_of_not_illegalWord {c : CmdWord} (h : ¬ IllegalWord c) : ∃ i, decode c = .ok i := by
  simp only [IllegalWord, not_or, not_and, not_not, Nat.not_le] at h
  obtain ⟨hop, hrsv, hsel, hidx, hdata, hhigh⟩ := h
  have hhalf : Word.half c.data 1 = c.data.extractLsb' 16 16 := rfl
  unfold decode
  generalize c.op.toNat = op at *
  interval_cases op <;> simp_all [requireField]

theorem illegalWord_iff {c : CmdWord} : IllegalWord c ↔ ∃ e, decode c = .error e := by
  constructor
  · intro h
    cases hd : decode c with
    | error e => exact ⟨e, rfl⟩
    | ok i => exact absurd h (not_illegalWord_of_decode hd)
  · rintro ⟨e, he⟩
    by_contra h
    obtain ⟨i, hi⟩ := decode_of_not_illegalWord h
    simp [he] at hi

/-- An accepted illegal word enters the fatal state with ILLEGAL_CMD, before any other check. -/
theorem step_of_illegalWord {s : State} (ha : accepts s = true) (h : IllegalWord s.input.cmd) :
    ∃ t, step s = .next t ∧ FatalTaken .illegalCmd s t := by
  obtain ⟨e, he⟩ := illegalWord_iff.1 h
  exact ⟨_, step_of_illegal ha he, fatalTaken s _⟩

/-! ### The range checks, on the word and on its instruction (30_encoding.md R79, R81) -/

/-- The instruction carries a brightness of 32 or more. -/
def BrightnessOver : Instr → Prop
  | .pixWrite _ _ _ _ br => 32 ≤ br
  | _ => False

/-- The instruction carries an index outside its space. -/
def IndexOver (c : Config) : Instr → Prop
  | .poll k => c.numInputs ≤ k
  | .pixWrite i _ _ _ _ => c.n ≤ i
  | .rdWord w => c.n + 2 ≤ w
  | .rdByte a => c.frameBytes ≤ a
  | _ => False

/-- The range checks on a legal word are those on the instruction it stands for. -/
theorem rangeChecks_of_decode {c : CmdWord} {i : Instr} (h : decode c = .ok i) (cfg : Config) :
    (BrightnessTooHigh c ↔ BrightnessOver i) ∧ (IndexTooHigh cfg c ↔ IndexOver cfg i) := by
  rcases decode_eq_ok.1 h with h | h | h | h | h | h | h | h <;>
    simp [h, BrightnessTooHigh, BrightnessOver, IndexTooHigh, IndexOver, Word.byte, Config.frameBytes]

/-! ### What a meaning does with its checks (60_exceptions.md R180, R183) -/

/-- The brightness is checked first: the index plays no part. -/
theorem exec_of_brightnessOver {i : Instr} (s : State) (h : BrightnessOver i) :
    exec i s = .next (raiseFatal .brightnessRange s) := by
  cases i with
  | pixWrite => exact execPixWrite_brightness h
  | _ => exact h.elim

theorem exec_of_indexOver {i : Instr} {s : State} (hb : ¬ BrightnessOver i) (h : IndexOver s.cfg i) :
    exec i s = .next (raiseFatal .indexRange s) := by
  cases i with
  | poll => exact execPoll_out h
  | pixWrite => exact execPixWrite_index (Nat.lt_of_not_le hb) h
  | rdWord => exact execRdWord_out h
  | rdByte => exact execRdByte_out h
  | _ => exact h.elim

/-- An instruction that passes its checks completes outside the fatal state. -/
theorem exec_of_inRange {i : Instr} {s : State} (hlen : s.deb.length = s.cfg.numInputs) (hb : ¬ BrightnessOver i)
    (hx : ¬ IndexOver s.cfg i) : ∃ t, exec i s = .next t ∧ t.ftl = s.ftl := by
  cases i with
  | poll k =>
    have hk : k < s.cfg.numInputs := Nat.lt_of_not_le hx
    exact ⟨_, execPoll_in hk (List.getElem?_eq_getElem (hlen ▸ hk)), rfl⟩
  | pixWrite => exact ⟨_, execPixWrite_in (Nat.lt_of_not_le hb) (Nat.lt_of_not_le hx), rfl⟩
  | rdWord w =>
    have hw : w < s.cfg.n + 2 := Nat.lt_of_not_le hx
    obtain ⟨v, hv⟩ := frameWord_isSome (c := s.cfg) s.frame hw
    exact ⟨_, execRdWord_in hw hv, rfl⟩
  | rdByte a =>
    have ha : a < s.cfg.frameBytes := Nat.lt_of_not_le hx
    obtain ⟨v, hv⟩ := Option.isSome_iff_exists.1 (frameByte_isSome s.frame ha)
    exact ⟨_, execRdByte_in ha hv, rfl⟩
  | _ => exact ⟨_, rfl, rfl⟩

/-- An accepted legal word performs an instruction that stands under the word's own range checks. -/
theorem step_of_legalWord {s : State} (ha : accepts s = true) (hl : ¬ IllegalWord s.input.cmd) :
    ∃ i, decode s.input.cmd = .ok i ∧ step s = exec i s ∧
      (BrightnessTooHigh s.input.cmd ↔ BrightnessOver i) ∧ (IndexTooHigh s.cfg s.input.cmd ↔ IndexOver s.cfg i) := by
  obtain ⟨i, hi⟩ := decode_of_not_illegalWord hl
  exact ⟨i, hi, step_of_command ha hi, rangeChecks_of_decode hi s.cfg⟩

/-- Settles O7: a word decodes exactly when it is legal, and the instruction it decodes to meets the range checks in the
order of its meaning. -/
theorem checksFollowTheirOrder : Obligations.ChecksFollowTheirOrder := by
  intro s ha
  refine ⟨step_of_illegalWord ha, ?brightness, ?index, ?passed⟩ <;> intro hl <;>
    obtain ⟨i, hi, hstep, hbr, hidx⟩ := step_of_legalWord ha hl <;> rw [hbr, hstep]
  case brightness => exact fun hb => ⟨_, exec_of_brightnessOver s hb, fatalTaken s _⟩
  case index => rw [hidx]; exact fun hb hx => ⟨_, exec_of_indexOver hb hx, fatalTaken s _⟩
  case passed => rw [hidx]; exact fun hb hx => ⟨i, hi, rfl, fun hlen => exec_of_inRange hlen hb hx⟩

/-! ### The pixel record (30_encoding.md R70, R71) -/

/-- A bit field of a word as a number. -/
theorem toNat_field (v : Word) (start len : Nat) : (v.extractLsb' start len).toNat = v.toNat / 2 ^ start % 2 ^ len := by
  rw [BitVec.extractLsb'_toNat, Nat.shiftRight_eq_div_pow]

/-- The colours are whole bytes of the entry; brightness and header share its lowest byte. -/
theorem decodePixel_eq_bytes (v : Word) :
    decodePixel v = {
      red := (Word.byte v 1).toNat, green := (Word.byte v 2).toNat, blue := (Word.byte v 3).toNat,
      brightness := ((Word.byte v 0).extractLsb' 0 5).toNat } := by
  rw [← (byte0_parts v).1]
  rfl

theorem pixelHeader_eq_byte (v : Word) : pixelHeader v = (Word.byte v 0).extractLsb' 5 3 := (byte0_parts v).2

theorem decodePixel_encodePixel {r g b br : Nat} (hr : r < 256) (hg : g < 256) (hb : b < 256) (hbr : br < 32) :
    decodePixel (encodePixel r g b br) = { red := r, green := g, blue := b, brightness := br } := by
  obtain ⟨h0, h1, h2, h3⟩ := encodePixel_byte r g b br
  rw [decodePixel_eq_bytes, h0, h1, h2, h3, (intensity_parts hbr).1]
  simp [Nat.mod_eq_of_lt, hr, hg, hb]

theorem pixelHeader_encodePixel (r g b : Nat) {br : Nat} (hbr : br < 32) :
    pixelHeader (encodePixel r g b br) = 0b111 := by
  rw [pixelHeader_eq_byte, (encodePixel_byte r g b br).1]
  exact (intensity_parts hbr).2

/-- Settles O5: the fields are quotients of the entry's value, and the four bytes `encodePixel` lays down are the ones
`decodePixel` reads. -/
theorem pixelReadsBack : Obligations.PixelReadsBack := by
  refine ⟨fun v => ⟨?_, toNat_field v 5 3⟩, fun r g b br hr hg hb hbr =>
    ⟨decodePixel_encodePixel hr hg hb hbr, pixelHeader_encodePixel r g b hbr⟩⟩
  simp only [decodePixel, toNat_field, pow_zero, Nat.div_one]

end Sys2Proof.Machine
end

section
/-! PROOFS. The update pass of POLL and the synchronizer (40_debounce.md R101, R104). The three cases of a POLL are said
once, on the channel alone; the rest of the edge is the background with one channel replaced. -/

namespace Sys2Proof.Machine

open Sys2Proof.Claims

/-! ### The three cases of an update pass (40_debounce.md R104) -/

/-- The shape of a pass that accepts no change. -/
theorem poll_of_not_changed {n : Nat} {ch : Channel} (h : ¬ (n < ch.elapsed ∧ ch.sync2 ≠ ch.stable)) :
    pollChanged n ch = false ∧ pollLevel n ch = ch.stable := by
  have hc : pollChanged n ch = false := Bool.eq_false_iff.2 (mt pollChanged_iff.1 h)
  exact ⟨hc, by simp [pollLevel, hc]⟩

theorem poll_of_lockout {n : Nat} {ch : Channel} (h : ch.elapsed ≤ n) :
    pollChanged n ch = false ∧ pollLevel n ch = ch.stable :=
  poll_of_not_changed fun hc => Nat.not_lt.2 h hc.1

theorem poll_of_level_differs {n : Nat} {ch : Channel} (h : n < ch.elapsed) (hl : ch.sync2 ≠ ch.stable) :
    pollChanged n ch = true ∧ pollLevel n ch = ch.sync2 := by
  have hc : pollChanged n ch = true := pollChanged_iff.2 ⟨h, hl⟩
  exact ⟨hc, by simp [pollLevel, hc]⟩

theorem poll_of_level_same {n : Nat} {ch : Channel} (hl : ch.sync2 = ch.stable) :
    pollChanged n ch = false ∧ pollLevel n ch = ch.stable :=
  poll_of_not_changed fun hc => hc.2 hl

/-- The four result bits, laid out as a number. -/
theorem pollWord_eq_pollData (changed level : Bool) : pollWord changed level = pollData changed level := by
  cases changed <;> cases level <;> rfl

/-! ### POLL (40_debounce.md R104) -/

theorem wordMeans_poll :
    WordMeans 1 (fun c => c.idx = 0 ∧ c.rsv = 0 ∧ c.data = 0) (fun c => .poll c.sel.toNat) := by
  rintro c hop ⟨hidx, hrsv, hdata⟩
  have hop' : c.op = 1 := BitVec.eq_of_toNat_eq hop
  exact decode_eq_ok.2 (.inr (.inl ⟨hop', hidx, hrsv, hdata, rfl⟩))

/-- With the opcode of POLL, SEL is an operand and every other field must be 0 (30_encoding.md R77, R78). -/
theorem illegalWord_of_poll_iff {c : CmdWord} (hop : c.op.toNat = 1) :
    IllegalWord c ↔ c.idx ≠ 0 ∨ c.rsv ≠ 0 ∨ c.data ≠ 0 := by
  simp [IllegalWord, hop, or_left_comm]

theorem illegalRaises_poll : IllegalRaises 1 (fun c => c.idx ≠ 0 ∨ c.rsv ≠ 0 ∨ c.data ≠ 0) :=
  fun _ ha hop hbad => step_of_illegalWord ha ((illegalWord_of_poll_iff hop).2 hbad)

/-- Replacing channel `k` after the background leaves every other channel with its background alone. -/
theorem channelRan_of_set {s t : State} {k q : Nat} {c : Channel} (hq : q ≠ k)
    (ht : t.deb = (channelsEdge s.cfg s.input s.deb).set k c) : ChannelRan s t q := by
  intro ch cc hch hcc
  rw [ht, List.getElem?_set_ne hq.symm]
  exact (channelsRan_background s).2 q ch cc hch hcc

/-- Settles O11: the edge is the background with channel `k` replaced by its update pass. -/
theorem pollUpdatesOneChannel : Obligations.PollUpdatesOneChannel := by
  refine ⟨wordMeans_poll, ?update, fun s k hk => ⟨_, execPoll_out hk, fatalTaken s _⟩, illegalRaises_poll⟩
  intro s k ch cc hch hcc
  have hk : k < s.cfg.numInputs := (List.getElem?_eq_some_iff.1 hcc).1
  have hlen : k < s.deb.length := (List.getElem?_eq_some_iff.1 hch).1
  have hexec := execPoll_in hk hch
  rw [settleOf_eq hcc, pollWord_eq_pollData] at hexec
  refine ⟨_, channelPolled cc.settle (s.input.rawIn.getLsbD k) s.input.tick ch, pollChanged cc.settle ch,
    pollLevel cc.settle ch, hexec, rfl, ?self, rfl, rfl, rfl, poll_of_lockout, poll_of_level_differs,
    fun _ => poll_of_level_same, rfl, ?length, fun q hq => channelRan_of_set hq rfl,
    rfl, fun _ => rfl, rfl, rfl, rfl, rfl⟩
  case self => simp [hlen]
  case length => simp

/-! ### The synchronizer (40_debounce.md R101) -/

/-- One shift: a channel that runs its background and one that is polled treat the two flip-flops alike. -/
theorem step_shifts_synchronizer {s t : State} {k : Nat} {ch : Channel} (hr : s.input.rst = false)
    (h : step s = .next t) (hch : s.deb[k]? = some ch) :
    ∃ ch', t.deb[k]? = some ch' ∧ ch'.sync1 = s.input.rawIn.getLsbD k ∧ ch'.sync2 = ch.sync1 := by
  rcases chan_step h hr hch with hran | ⟨-, -, -, hpolled⟩
  · exact ⟨_, hran, rfl, rfl⟩
  · exact ⟨_, hpolled, rfl, rfl⟩

/-- Settles O12: the second of two shifts moves on what the first one took from the raw line. -/
theorem synchronizerDelaysTwoCycles : Obligations.SynchronizerDelaysTwoCycles := by
  refine ⟨fun s t k ch => step_shifts_synchronizer, fun s t u k ch hrs hrt hst htu hch => ?_⟩
  obtain ⟨ch', hch', hraw, -⟩ := step_shifts_synchronizer hrs hst hch
  obtain ⟨ch'', hch'', -, hshift⟩ := step_shifts_synchronizer hrt htu hch'
  exact ⟨ch'', hch'', hshift.trans hraw⟩

end Sys2Proof.Machine
end

section
/-! PROOFS. The frame commands PIX_WRITE, RD_WORD and RD_BYTE (41_frame.md R121, R123, R124). What an entry holds is
said once per kind of entry: a marker, an entry untouched since reset, a stored pixel. The edge of each command then
only has to name the entry or byte it answers. -/

namespace Sys2Proof.Machine

open Sys2Proof.Claims

/-! ### The command words (30_encoding.md R77, R78) -/

theorem wordMeans_pixWrite :
    WordMeans 2 (fun c => c.sel = 0 ∧ c.rsv = 0) (fun c =>
      .pixWrite c.idx.toNat (c.data.extractLsb' 16 8).toNat (c.data.extractLsb' 8 8).toNat
        (c.data.extractLsb' 0 8).toNat (c.data.extractLsb' 24 8).toNat) := by
  rintro c hop ⟨hsel, hrsv⟩
  have hop' : c.op = 2 := BitVec.eq_of_toNat_eq hop
  exact decode_eq_ok.2 (.inr (.inr (.inl ⟨hop', hsel, hrsv, rfl⟩)))

theorem wordMeans_rdWord :
    WordMeans 3 (fun c => c.sel = 0 ∧ c.rsv = 0 ∧ c.data = 0) (fun c => .rdWord c.idx.toNat) := by
  rintro c hop ⟨hsel, hrsv, hdata⟩
  have hop' : c.op = 3 := BitVec.eq_of_toNat_eq hop
  exact decode_eq_ok.2 (.inr (.inr (.inr (.inl ⟨hop', hsel, hrsv, hdata, rfl⟩))))

theorem wordMeans_rdByte :
    WordMeans 4 (fun c => c.sel = 0 ∧ c.rsv = 0 ∧ c.data = 0) (fun c => .rdByte c.idx.toNat) := by
  rintro c hop ⟨hsel, hrsv, hdata⟩
  have hop' : c.op = 4 := BitVec.eq_of_toNat_eq hop
  exact decode_eq_ok.2 (.inr (.inr (.inr (.inr (.inl ⟨hop', hsel, hrsv, hdata, rfl⟩)))))

/-- With the opcode of PIX_WRITE, IDX and DATA are operands. -/
theorem illegalWord_of_pixWrite_iff {c : CmdWord} (hop : c.op.toNat = 2) :
    IllegalWord c ↔ c.sel ≠ 0 ∨ c.rsv ≠ 0 := by
  simp [IllegalWord, hop, or_comm]

/-- With the opcode of a frame read, IDX is the only operand. -/
theorem illegalWord_of_read_iff {c : CmdWord} (hop : c.op.toNat = 3 ∨ c.op.toNat = 4) :
    IllegalWord c ↔ c.sel ≠ 0 ∨ c.rsv ≠ 0 ∨ c.data ≠ 0 := by
  rcases hop with hop | hop <;> simp [IllegalWord, hop, or_left_comm]

/-! ### The entries of the word view (20_memory.md R50, R53) -/

/-- Byte `q` of an entry is byte `q` of its value. -/
theorem frameByte_of_frameWord {c : Config} {m : Memory} {w : Nat} {v : Word} (h : frameWord c m w = some v) {q : Nat}
    (hq : q < 4) : frameByte c m (4 * w + q) = some (Word.byte v q) := by
  obtain ⟨h0, h1, h2, h3⟩ := frameWord_eq_some.1 h
  interval_cases q <;> assumption

/-- An entry whose four bytes are alike. -/
theorem frameWord_of_equal_bytes {c : Config} {m : Memory} {w : Nat} {x : Byte}
    (h : ∀ q < 4, frameByte c m (4 * w + q) = some x) : frameWord c m w = some (Word.ofBytes x x x x) := by
  obtain ⟨e0, e1, e2, e3⟩ := Word.byte_ofBytes x x x x
  rw [frameWord_eq_some, e0, e1, e2, e3]
  exact ⟨h 0 (by omega), h 1 (by omega), h 2 (by omega), h 3 (by omega)⟩

/-- The start marker. -/
theorem frameWord_start (c : Config) (m : Memory) : frameWord c m 0 = some 0x00000000 :=
  frameWord_of_equal_bytes fun _ hq => frameByte_start c m (by omega)

/-- The end marker. -/
theorem frameWord_end (c : Config) (m : Memory) : frameWord c m (c.n + 1) = some 0xFFFFFFFF :=
  frameWord_of_equal_bytes fun _ hq => frameByte_end m (by omega) (by unfold Config.frameBytes; omega)

/-- An entry of the active window at reset (10_state.md R29). -/
theorem frameWord_unwritten {c : Config} {w : Nat} (h1 : 1 ≤ w) (hn : w ≤ c.n) :
    frameWord c [] w = some 0xFFFFFFFF := by
  refine frameWord_of_equal_bytes (x := 0xFF) fun q hq => ?_
  have hactive : ¬ 4 * w + q < 4 := by omega
  rw [frameByte_active _ (by omega) (by omega), Memory.get, unlistedByte, if_neg hactive]

/-! ### The stored pixel (30_encoding.md R70) -/

/-- The pixel record byte by byte, as numbers. -/
theorem toNat_byte_encodePixel {r g b br q : Nat} (hr : r < 256) (hg : g < 256) (hb : b < 256) (hbr : br < 32)
    (hq : q < 4) :
    (Word.byte (encodePixel r g b br) q).toNat =
      if q = 0 then 0xE0 + br else if q = 1 then r else if q = 2 then g else b := by
  obtain ⟨e0, e1, e2, e3⟩ := encodePixel_byte r g b br
  have hi := intensity_low hbr
  interval_cases q <;> simp [e0, e1, e2, e3, hi, Nat.mod_eq_of_lt, hr, hg, hb]

theorem toNat_encodePixel {r g b br : Nat} (hr : r < 256) (hg : g < 256) (hb : b < 256) (hbr : br < 32) :
    (encodePixel r g b br).toNat = 0xE0 + br + r * 2 ^ 8 + g * 2 ^ 16 + b * 2 ^ 24 := by
  rw [encodePixel, toNat_ofBytes, intensity_low hbr]
  simp only [BitVec.toNat_ofNat]
  omega

/-! ### PIX_WRITE (41_frame.md R121) -/

/-- Settles O19: in range, the edge is the background with one entry stored and the response OK, 0. -/
theorem pixWriteStoresThePixel : Obligations.PixWriteStoresThePixel := by
  refine ⟨wordMeans_pixWrite, ?store, fun s _ _ _ _ _ hbr => ⟨_, execPixWrite_brightness hbr, fatalTaken s _⟩,
    fun s _ _ _ _ _ hbr hi => ⟨_, execPixWrite_index hbr hi, fatalTaken s _⟩,
    fun _ ha hop hbad => step_of_illegalWord ha ((illegalWord_of_pixWrite_iff hop).2 hbad)⟩
  intro s i r g b br hwf hr hg hb hbr hi
  exact ⟨_, encodePixel r g b br, execPixWrite_in hbr hi, rfl, frameWord_store_same hwf hi _,
    toNat_encodePixel hr hg hb hbr, fun w hw => frameWord_store_other s.cfg s.frame _ hw,
    rfl, rfl, rfl, rfl, rfl, channelsRan_background s⟩

/-! ### RD_WORD (41_frame.md R123) -/

/-- Any RD_WORD of an entry that reads `v` answers `v`. -/
theorem rdWord_data {s t : State} {w : Nat} {v : Word} (hw : w < s.cfg.n + 2) (hv : frameWord s.cfg s.frame w = some v)
    (h : exec (.rdWord w) s = .next t) : t.rsp.data = v := by
  cases (execRdWord_in hw hv).symm.trans h
  rfl

/-- Settles O21: the edge only responds, with the entry, whose value is known for both markers and after a reset. -/
theorem rdWordReadsAnEntry : Obligations.RdWordReadsAnEntry := by
  refine ⟨wordMeans_rdWord, ?read, ?afterReset, fun s _ hw => ⟨_, execRdWord_out hw, fatalTaken s _⟩,
    fun _ ha hop hbad => step_of_illegalWord ha ((illegalWord_of_read_iff (.inl hop)).2 hbad)⟩
  case read =>
    intro s w hw
    obtain ⟨v, hv⟩ := frameWord_isSome (c := s.cfg) s.frame hw
    refine ⟨_, v, execRdWord_in hw hv, rfl, fun q hq => frameByte_of_frameWord hv hq, ?start, ?last, onlyResponds s _ _⟩
    case start => rintro rfl; exact Option.some.inj (hv.symm.trans (frameWord_start _ _))
    case last => rintro rfl; exact Option.some.inj (hv.symm.trans (frameWord_end _ _))
  case afterReset =>
    intro s r t w hrst hstep h1 hn hexec
    cases (step_of_reset hrst).symm.trans hstep
    have hw : w < s.cfg.n + 2 := by omega
    exact rdWord_data (s := resetEdge s) hw (frameWord_unwritten h1 hn) hexec

/-! ### RD_BYTE (41_frame.md R124) -/

/-- The byte an RD_BYTE answers, zero-extended. -/
theorem rdByte_data {s t : State} {a : Nat} {v : Byte} (ha : a < s.cfg.frameBytes)
    (hv : frameByte s.cfg s.frame a = some v) (h : exec (.rdByte a) s = .next t) : t.rsp.data = v.zeroExtend 32 := by
  cases (execRdByte_in ha hv).symm.trans h
  rfl

/-- A byte of the entry a PIX_WRITE has just stored. -/
theorem frameByte_after_pixWrite {s t : State} {i r g b br q : Nat} (hwf : Memory.wf s.frame = true) (hbr : br < 32)
    (hi : i < s.cfg.n) (hq : q < 4) (h : exec (.pixWrite i r g b br) s = .next t) :
    frameByte t.cfg t.frame (4 * (i + 1) + q) = some (Word.byte (encodePixel r g b br) q) := by
  cases (execPixWrite_in hbr hi).symm.trans h
  exact frameByte_of_frameWord (frameWord_store_same hwf hi _) hq

/-- Settles O22: the edge only responds, with the byte; of a stored pixel that byte is the record's. -/
theorem rdByteReadsAByte : Obligations.RdByteReadsAByte := by
  refine ⟨wordMeans_rdByte, ?read, ?afterWrite, fun s _ ha => ⟨_, execRdByte_out ha, fatalTaken s _⟩,
    fun _ ha hop hbad => step_of_illegalWord ha ((illegalWord_of_read_iff (.inr hop)).2 hbad)⟩
  case read =>
    intro s a ha
    obtain ⟨v, hv⟩ := Option.isSome_iff_exists.1 (frameByte_isSome (c := s.cfg) s.frame ha)
    refine ⟨_, v, execRdByte_in ha hv, hv, rfl, rfl, BitVec.toNat_setWidth_of_le (by decide), ?start, ?last,
      onlyResponds s _ _⟩
    case start => exact fun h => Option.some.inj (hv.symm.trans (frameByte_start _ _ h))
    case last => exact fun h => Option.some.inj (hv.symm.trans (frameByte_end _ h ha))
  case afterWrite =>
    intro s t u i q r g b br hwf hr hg hb hbr hi hq hwrite hread
    have hin : 4 * (i + 1) + q < t.cfg.frameBytes := by
      rw [exec_cfg hwrite, Config.frameBytes]
      omega
    rw [rdByte_data hin (frameByte_after_pixWrite hwf hbr hi hq hwrite) hread, BitVec.toNat_setWidth_of_le (by decide),
      toNat_byte_encodePixel hr hg hb hbr hq]

end Sys2Proof.Machine
end

section
/-! PROOFS. The edges of a send (42_transmit.md R143, R144, R148, R153). What the platform and the peripheral report in
a cycle (`pin_fault` with its draw, `per_err`) is read by the transmitter's edge only, so a report which that edge does
not read changes nothing of the step. -/

namespace Sys2Proof.Machine

open Sys2Proof.Claims

/-! ### The reports of a cycle (42_transmit.md R143, R151) -/

/-- `s` with this cycle's inputs `inp`, but with these values of `pin_fault`, the draw and `per_err`. -/
def withReports (s : State) (inp : Input) (rest : List Input) (fault drawn err : Bool) : State :=
  { s with inputs := { inp with pinFault := fault, draw := drawn, perErr := err } :: rest }

section
variable {s : State} {inp : Input} {rest : List Input} (h : s.inputs = inp :: rest) (fault drawn err : Bool)
include h

theorem background_withReports : background (withReports s inp rest fault drawn err) = background s := by
  cases s; subst h; rfl

theorem resetEdge_withReports : resetEdge (withReports s inp rest fault drawn err) = resetEdge s := by
  cases s; subst h; rfl

theorem accepts_withReports : accepts (withReports s inp rest fault drawn err) = accepts s := by
  cases s; subst h; rfl

/-- No command reads a report. -/
theorem exec_withReports (i : Instr) : exec i (withReports s inp rest fault drawn err) = exec i s := by
  cases s; subst h; cases i <;> rfl

theorem commandEdge_withReports : commandEdge (withReports s inp rest fault drawn err) = commandEdge s := by
  have hword : commandWord (withReports s inp rest fault drawn err) = commandWord s := by cases s; subst h; rfl
  have hfatal : raiseFatal .illegalCmd (withReports s inp rest fault drawn err) = raiseFatal .illegalCmd s := by
    simp only [raiseFatal, background_withReports h]
  simp only [commandEdge, hword, hfatal, exec_withReports h]

/-- Reports change a step only through the transmitter's edge. -/
theorem step_withReports (htx : txEdge (withReports s inp rest fault drawn err) = txEdge s) :
    step (withReports s inp rest fault drawn err) = step s := by
  have hrst : (withReports s inp rest fault drawn err).input.rst = s.input.rst := by rw [input_eq_of_inputs h]; rfl
  simp only [step, clockEdge, hrst, resetEdge_withReports h, accepts_withReports h, commandEdge_withReports h, htx]

end

/-! ### The pin-write step (42_transmit.md R143) -/

theorem setPin_pin (p : Pin) (v : Bool) (t : State) : (setPin p v t).pin = pinsWith t.pin p v := by
  cases p <;> rfl

/-- The pins after a pin write, when what follows a successful one leaves them alone. -/
theorem pinWrite_pin {f : State → State} (hf : ∀ t, (f t).pin = t.pin) (inp : Input) (p : Pin) (v : Bool) (t : State) :
    (pinWrite inp p v f t).pin = pinsWith t.pin p (if inp.pinFault then inp.draw else v) := by
  cases hp : inp.pinFault
  · simp [pinWrite_ok hp, hf, setPin_pin]
  · simp [pinWrite_fail hp, setPin_pin]

/-- Without a pin to write, the transmitter's edge does not read `pin_fault` or the draw. In BB_DAT there is none to
write when the cursor is outside the frame (log 7). -/
theorem txEdge_withPinReports {s : State} {inp : Input} {rest : List Input} (h : s.inputs = inp :: rest)
    (hpin : ∀ p v, ¬ PinStep s p v) (fault drawn : Bool) :
    txEdge (withReports s inp rest fault drawn inp.perErr) = txEdge s := by
  obtain ⟨cfg, deb, frame, ⟨state, j, b, d, w, t⟩, pin, stat, ftl, rsp, inputs, cycle⟩ := s
  subst h
  cases state with
  | idle | bbWait1 | bbWait2 | perXfer => rfl
  | bbClkLo => exact (hpin .clk false ⟨rfl, rfl⟩).elim
  | bbClkHi => exact (hpin .clk true ⟨rfl, rfl⟩).elim
  | bbEndClk => exact (hpin .clk true ⟨rfl, rfl⟩).elim
  | bbEndDat => exact (hpin .dat true ⟨rfl, rfl⟩).elim
  | bbDat =>
    cases hv : frameByte cfg frame j with
    | none => simp [txEdge, edgeDat, txByte, withReports, hv]
    | some v => exact (hpin .dat (v.getLsbD b.val) ⟨rfl, congrArg (Option.map _) hv⟩).elim

/-- Settles O29: the edge of a pin-write state is a `pinWrite`; no other edge reads the fault or the draw. -/
theorem pinWriteStepDrivesOnePin : Obligations.PinWriteStepDrivesOnePin := by
  refine ⟨fun s p v hr hpin => ?_, fun s inp rest fault drawn h hpin =>
    step_withReports h fault drawn inp.perErr (txEdge_withPinReports h hpin fault drawn)⟩
  obtain ⟨f, hedge, hf⟩ := pinStep_edge hpin
  exact ⟨_, (step_busy hr (pinStep_busy hpin)).trans hedge, pinWrite_pin hf _ _ _ _⟩

/-! ### The cursor (42_transmit.md R144) -/

/-- The two ways into `advance`, with the cursor as it was before the edge. -/
theorem step_advances {s : State} (hr : s.input.rst = false)
    (h : (s.tx.state = .bbClkHi ∧ s.tx.d = 0 ∧ s.input.pinFault = false) ∨ (s.tx.state = .bbWait2 ∧ s.tx.w = 1)) :
    ∃ u, step s = .next (advance u) ∧ u.tx.j = s.tx.j ∧ u.tx.b = s.tx.b ∧ u.cfg = s.cfg := by
  rcases h with ⟨hst, hd, hp⟩ | ⟨hst, hw⟩
  · refine ⟨setPin .clk true (background s), ?_, rfl, rfl, rfl⟩
    rw [step_busy hr (by simp [hst]), txEdge_clkHi hst, pinWrite_ok hp,
      waitOr_none (t := setPin .clk true (background s)) hd]
  · refine ⟨{ background s with tx := { s.tx with w := 0 } }, ?_, rfl, rfl, rfl⟩
    rw [step_busy hr (by simp [hst]), txEdge_wait2 hst, waitCycle_last (t := background s) hw]
    rfl

/-- Settles O30: both ways end in `advance`, whose three cases these are. -/
theorem cursorWalksTheFrame : Obligations.CursorWalksTheFrame := by
  intro s hr h
  obtain ⟨u, hstep, hj, hb, hcfg⟩ := step_advances hr h
  have hspec := advance_spec u
  rw [hj, hb, hcfg] at hspec
  exact ⟨_, hstep, hspec⟩

/-! ### Completion (42_transmit.md R148) -/

/-- When the block is not fatal, the port is ready after `finish` unless in reset (30_encoding.md R80). -/
theorem cmdReady_finish {r : SendResult} {v : Variant} {t : State} (h : t.ftl.fatal = false) :
    cmdReady (finish r v t) = !(finish r v t).input.rst := by
  simp [cmdReady, h, Transmitter.reset]

/-- Settles O33: an edge that leaves the busy states is a `finish`, and a busy state of the invariant is not fatal. -/
theorem sendsCompleteOnlyThroughFinish : Obligations.SendsCompleteOnlyThroughFinish := by
  intro s t hinv hstep hr hbusy hidle
  have hedge : txEdge s = .next t := (step_busy hr hbusy).symm.trans hstep
  have hlive : s.ftl.fatal = false := Bool.eq_false_iff.2 fun hf => hbusy (hinv.fatalIdle hf)
  cases txEdge_shape hbusy hedge with
  | busy hstill => exact absurd hidle hstill
  | fin r v u ht hv hbb hper =>
    have hftl : t.ftl = s.ftl := (txEdge_keeps hedge).ftl
    subst ht hv
    exact ⟨r, finished_finish _ _ _, hbb, hper, cmdReady_finish (by rw [← hlive, ← hftl]; rfl)⟩

/-! ### The peripheral transfer (42_transmit.md R151, R153) -/

/-- Without a handshake the transmitter's edge does not read `per_err`: outside PER_XFER no edge does, and in PER_XFER
it counts only with `per_ready`. -/
theorem txEdge_withPerErr {s : State} {inp : Input} {rest : List Input} (h : s.inputs = inp :: rest)
    (hno : inp.perReady = false ∨ perValid s = false) (err : Bool) :
    txEdge (withReports s inp rest inp.pinFault inp.draw err) = txEdge s := by
  obtain ⟨cfg, deb, frame, ⟨state, j, b, d, w, t⟩, pin, stat, ftl, rsp, inputs, cycle⟩ := s
  subst h
  cases state with
  | idle | bbClkLo | bbDat | bbWait1 | bbClkHi | bbWait2 | bbEndClk | bbEndDat => rfl
  | perXfer =>
    have hready : inp.perReady = false := hno.resolve_right (by simp [perValid])
    cases inp
    subst hready
    rfl

theorem SendKeeps.sameBytes {s t : State} (h : SendKeeps s t) : SameBytes s t :=
  fun _ => by rw [h.cfg, h.frame]

/-- Settles O34: the four outcomes are the branches of the PER_XFER edge, tested in this order. -/
theorem peripheralTransferFollowsItsRule : Obligations.PeripheralTransferFollowsItsRule := by
  refine ⟨fun s hr hst hj => ?_, fun s inp rest err h hno =>
    step_withReports h inp.pinFault inp.draw err (txEdge_withPerErr h hno err)⟩
  obtain ⟨v, hv⟩ := txByte_isSome (s := s) hj
  have hedge := txEdge_perXfer hst hv
  have hlast : s.cfg.frameBytes - 1 = 4 * (s.cfg.n + 2) - 1 := rfl
  have hneither (h : ¬ (s.input.perReady = true ∧ (s.input.perErr = true ∨ s.tx.j = 4 * (s.cfg.n + 2) - 1))) :
      ¬ (s.input.perReady && s.input.perErr) = true ∧
        ¬ (s.input.perReady && decide (s.tx.j = s.cfg.frameBytes - 1)) = true := by
    simp only [Bool.and_eq_true, decide_eq_true_eq, hlast]
    exact ⟨fun hf => h ⟨hf.1, .inl hf.2⟩, fun hc => h ⟨hc.1, .inr hc.2⟩⟩
  refine ⟨_, (step_busy hr (by simp [hst])).trans hedge, ?failed, ?complete, ?timeout, ?goesOn, ?pin,
    (txEdge_keeps hedge).sameBytes⟩
  case failed =>
    intro hready herr
    rw [if_pos (by simp [hready, herr])]
    exact finished_finish _ _ _
  case complete =>
    intro hready herr hend
    rw [if_neg (by simp [herr]), if_pos (by simp [hready, hend, hlast])]
    exact finished_finish _ _ _
  case timeout =>
    intro hrest hbudget
    obtain ⟨hfailed, hcomplete⟩ := hneither hrest
    rw [if_neg hfailed, if_neg hcomplete, if_pos hbudget]
    exact finished_finish _ _ _
  case goesOn =>
    intro hrest hbudget
    obtain ⟨hfailed, hcomplete⟩ := hneither hrest
    rw [if_neg hfailed, if_neg hcomplete, if_neg (Nat.not_le.2 hbudget)]
    cases s.input.perReady <;> exact ⟨rfl, rfl, rfl⟩
  case pin => split_ifs <;> rfl

end Sys2Proof.Machine
end

section
/-! PROOFS. The system commands NOP and RD_STATUS (43_system.md R170, R171). Both carry no operand, so one lemma says
which of their words are illegal; both edges are a response over the background, and RD_STATUS answers the STATUS word,
whose fields are said once. -/

namespace Sys2Proof.Machine

open Sys2Proof.Claims

/-! ### The command words (30_encoding.md R76, R78) -/

theorem wordMeans_nop :
    WordMeans 0 (fun c => c.sel = 0 ∧ c.idx = 0 ∧ c.rsv = 0 ∧ c.data = 0) (fun _ => .nop) := by
  rintro c hop ⟨hsel, hidx, hrsv, hdata⟩
  have hop' : c.op = 0 := BitVec.eq_of_toNat_eq hop
  exact decode_eq_ok.2 (.inl ⟨hop', hsel, hidx, hrsv, hdata, rfl⟩)

theorem wordMeans_rdStatus :
    WordMeans 7 (fun c => c.sel = 0 ∧ c.idx = 0 ∧ c.rsv = 0 ∧ c.data = 0) (fun _ => .rdStatus) := by
  rintro c hop ⟨hsel, hidx, hrsv, hdata⟩
  have hop' : c.op = 7 := BitVec.eq_of_toNat_eq hop
  exact decode_eq_ok.2 (.inr (.inr (.inr (.inr (.inr (.inr (.inr ⟨hop', hsel, hidx, hrsv, hdata, rfl⟩)))))))

/-- With the opcode of NOP or RD_STATUS no field is an operand. -/
theorem illegalWord_of_noOperand_iff {c : CmdWord} (hop : c.op.toNat = 0 ∨ c.op.toNat = 7) :
    IllegalWord c ↔ c.sel ≠ 0 ∨ c.idx ≠ 0 ∨ c.rsv ≠ 0 ∨ c.data ≠ 0 := by
  rcases hop with hop | hop <;> simp [IllegalWord, hop, or_left_comm]

/-! ### NOP (43_system.md R170) -/

/-- Settles O9: the edge is the background with the response OK, 0. -/
theorem nopOnlyResponds : Obligations.NopOnlyResponds :=
  ⟨wordMeans_nop, fun s => ⟨_, rfl, rfl, onlyResponds s _ _⟩,
    fun _ ha hop hbad => step_of_illegalWord ha ((illegalWord_of_noOperand_iff (.inl hop)).2 hbad)⟩

/-! ### RD_STATUS (43_system.md R171) -/

/-- The model's bit for the variant is set for the clocked peripheral (10_state.md R34). -/
theorem variant_bit_eq (v : Variant) : v.bit = decide (v = .clockedPeripheral) := by
  cases v <;> rfl

/-- An RD_STATUS answers the STATUS word of the state before the edge. -/
theorem rdStatus_data {s t : State} (h : exec .rdStatus s = .next t) : t.rsp.data = statusWord s.stat := by
  cases h
  rfl

/-- A reset leaves no result, the strip undefined, and the bit-banged variant (70_reset_and_hazards.md R200). -/
theorem statusWord_after_reset {s r : State} (hrst : s.input.rst = true) (h : step s = .next r) :
    statusWord r.stat = 0x0000000F := by
  cases (step_of_reset hrst).symm.trans h
  change statusWord { lastResult := none, stripUndef := true, lastVariant := .bitBanged } = 0x0000000F
  decide

/-- Settles O10: the edge only responds, with the STATUS word; after a reset that word is known, and a busy transmitter
accepts no command. -/
theorem rdStatusReadsStatus : Obligations.RdStatusReadsStatus := by
  refine ⟨wordMeans_rdStatus, ?read, fun s r t hrst hstep hexec =>
      (rdStatus_data hexec).trans (statusWord_after_reset hrst hstep),
    fun s hbusy => accepts_eq_false_of_busy hbusy,
    fun _ ha hop hbad => step_of_illegalWord ha ((illegalWord_of_noOperand_iff (.inr hop)).2 hbad)⟩
  intro s
  obtain ⟨hresult, hundef, hvariant, hrest⟩ := status_fields s.stat
  refine ⟨_, rfl, rfl, rfl, ?result, hundef, hvariant.trans (variant_bit_eq _), hrest, onlyResponds s _ _⟩
  refine (congrArg BitVec.toNat hresult).trans ?_
  rcases s.stat.lastResult with _ | (_ | _ | _ | _) <;> rfl

end Sys2Proof.Machine
end

section
/-! PROOFS. The fatal state (60_exceptions.md R181, R182). An edge into it is `raiseFatal` at an accepted command; from
it, an edge that is no reset is the background of an idle transmitter. Both equations are said once, and what the ports
show is read off them. -/

namespace Sys2Proof.Machine

open Sys2Proof.Claims

/-! ### The edges into and within the fatal state (60_exceptions.md R182) -/

/-- A command raises Fatal, or it leaves the fatal state as it was. -/
theorem exec_raisesFatal_or_keeps_ftl {i : Instr} {s t : State} (h : exec i s = .next t) :
    (∃ cause, t = raiseFatal cause s) ∨ t.ftl = s.ftl := by
  rcases exec_cases h with hraise | ⟨-, rfl⟩ | ⟨-, -, -, -, -, rfl⟩ | ⟨-, -, -, -, -, -, -, -, rfl⟩ | ⟨-, -, rfl⟩ |
    ⟨-, -, rfl⟩
  case inl => exact .inl hraise
  all_goals exact .inr rfl

/-- The only edge into the fatal state is `raiseFatal` at an accepted command. -/
theorem step_enters_fatal {s t : State} (h : step s = .next t) (hlive : s.ftl.fatal = false)
    (hfatal : t.ftl.fatal = true) : accepts s = true ∧ ∃ cause, t = raiseFatal cause s := by
  have not_kept : t.ftl ≠ s.ftl := fun hkeep => by simp [hkeep, hlive] at hfatal
  rcases step_cases h with ⟨-, rfl⟩ | ⟨-, ha, -, rfl⟩ | ⟨-, ha, i, -, he⟩ | ⟨-, -, ht⟩
  case inl => simp at hfatal
  case inr.inl => exact ⟨ha, _, rfl⟩
  case inr.inr.inl => exact ⟨ha, (exec_raisesFatal_or_keeps_ftl he).resolve_right not_kept⟩
  case inr.inr.inr => exact absurd (txEdge_keeps ht).ftl not_kept

/-- In the fatal state an edge that is no reset is the background alone: nothing is accepted and the transmitter is
idle. -/
theorem step_of_fatal {s : State} (hidle : s.tx.state = .idle) (hfatal : s.ftl.fatal = true)
    (hr : s.input.rst = false) : step s = .next (background s) :=
  (step_of_noCommand hr (accepts_eq_false_of_fatal hfatal)).trans (txEdge_idle hidle)

theorem cmdReady_eq_false_of_fatal {s : State} (h : s.ftl.fatal = true) : cmdReady s = false := by
  simp [cmdReady, h]

/-! ### The cause codes (60_exceptions.md R181) -/

theorem toNat_causeCode (cause : FatalCause) : (causeCode (some cause)).toNat = causeNumber cause := by
  cases cause <;> rfl

theorem causeCode_eq_zero_iff (cause : Option FatalCause) : causeCode cause = 0 ↔ cause = none := by
  rcases cause with _ | (_ | _ | _) <;> decide

/-! ### The obligations -/

/-- Settles O49: an edge into the fatal state is `raiseFatal`, and an edge that keeps it is `background`. -/
theorem fatalStateIsEnteredWholeAndHeld : Obligations.FatalStateIsEnteredWholeAndHeld := by
  refine ⟨fun s t hstep hlive hfatal => ?enters, fun s t hinv hfatal hr hstep => ?holds⟩
  case enters =>
    obtain ⟨ha, cause, rfl⟩ := step_enters_fatal hstep hlive hfatal
    exact ⟨ha, rfl, cause, fatalTaken s cause, cmdReady_eq_false_of_fatal rfl, rfl, toNat_causeCode cause⟩
  case holds =>
    have hidle := hinv.fatalIdle hfatal
    cases (step_of_fatal hidle hfatal hr).symm.trans hstep
    exact ⟨accepts_eq_false_of_fatal hfatal, cmdReady_eq_false_of_fatal hfatal, rfl, fun _ => rfl, rfl, rfl, rfl, hidle,
      rfl, channelsRan_background s⟩

/-- Settles O51: the invariant has a cause exactly in the fatal state, and the entry is `raiseFatal` with one of the three
causes. -/
theorem fatalCauseIsShownAtThePorts : Obligations.FatalCauseIsShownAtThePorts := by
  refine ⟨fun s hinv => ?agree, fun s t hstep hlive hfatal => ?enters⟩
  case agree =>
    change s.ftl.fatal = false ↔ causeCode s.ftl.cause = 0
    rw [hinv.fatalCause, Option.isSome_eq_false_iff, Option.isNone_iff_eq_none, causeCode_eq_zero_iff]
  case enters =>
    obtain ⟨-, cause, rfl⟩ := step_enters_fatal hstep hlive hfatal
    refine ⟨rfl, rfl, rfl, rfl, ?_⟩
    cases cause with
    | illegalCmd => exact .inl ⟨rfl, rfl⟩
    | brightnessRange => exact .inr (.inl ⟨rfl, rfl⟩)
    | indexRange => exact .inr (.inr ⟨rfl, rfl⟩)

end Sys2Proof.Machine
end

section
/-! PROOFS. Reset (70_reset_and_hazards.md R200): the edge of a reset cycle is `resetEdge`, whose elements are read off
it, and every other edge of the fatal state keeps `ftl`. -/

namespace Sys2Proof.Machine

open Sys2Proof.Claims

theorem cmdReady_eq_false_of_reset {s : State} (h : s.input.rst = true) : cmdReady s = false := by
  simp [cmdReady, h]

theorem resetEdge_deb_length (s : State) : (resetEdge s).deb.length = s.cfg.numInputs :=
  List.length_map _

/-- Each configured channel takes its own reset value. -/
theorem resetEdge_deb_getElem? {s : State} {k : Nat} {cc : ChannelConfig} (h : s.cfg.channels[k]? = some cc) :
    (resetEdge s).deb[k]? = some (Channel.reset cc) := by
  rw [resetEdge_deb, List.getElem?_map, h, Option.map_some]

/-- From the fatal state, idle transmitter or not, an edge that is no reset keeps the fatal state and its cause
(60_exceptions.md R185). -/
theorem step_keeps_ftl_of_fatal {s t : State} (h : step s = .next t) (hfatal : s.ftl.fatal = true)
    (hr : s.input.rst = false) : t.ftl = s.ftl :=
  (txEdge_keeps ((step_of_noCommand hr (accepts_eq_false_of_fatal hfatal)).symm.trans h)).ftl

/-- Settles O52: a reset edge is `resetEdge`, and an edge of the fatal state that is none keeps `ftl`. -/
theorem resetInstallsEveryValue : Obligations.ResetInstallsEveryValue := by
  refine ⟨fun s hrst => ?installs, fun s t hstep hfatal hleft => ?onlyExit⟩
  case installs =>
    exact ⟨cmdReady_eq_false_of_reset hrst, resetEdge s, step_of_reset hrst, resetEdge_cfg s, resetEdge_deb_length s,
      fun _ _ => resetEdge_deb_getElem?, frameWord_start _ _, fun _ => frameWord_unwritten, frameWord_end _ _,
      resetEdge_tx s, resetEdge_pin s, resetEdge_stat s, resetEdge_ftl s, resetEdge_rsp s⟩
  case onlyExit =>
    by_contra hno
    have hkeep := step_keeps_ftl_of_fatal hstep hfatal (Bool.eq_false_iff.2 hno)
    simp [hkeep, hfatal] at hleft

end Sys2Proof.Machine
end

section
/-! PROOFS. The command word (30_encoding.md R75 to R79). Decoding and encoding are read off the five fields of a word;
the rows of the opcode table are matched with the decoder row by row, and no two rows share a mnemonic, so no two cover
one word. -/

namespace Sys2Proof

/-! ### Decoding and encoding undo each other -/

theorem toNat_ofNat_of_lt {w n : Nat} (h : n < 2 ^ w) : (BitVec.ofNat w n).toNat = n :=
  (BitVec.toNat_ofNat n w).trans (Nat.mod_eq_of_lt h)

/-- Settles O1: the fields of a packed word are its parts, and an operand that fits its field is not cut. -/
theorem decodeOfEncode : Obligations.DecodeOfEncode := by
  intro i hwf
  rw [decode_eq_ok]
  cases i with
  | nop =>
    obtain ⟨hop, hsel, hidx, hrsv, hdata⟩ := pack_fields 0 0 0 0
    exact .inl ⟨hop, hsel, hidx, hrsv, hdata, rfl⟩
  | poll k =>
    obtain ⟨hop, hsel, hidx, hrsv, hdata⟩ := pack_fields 1 k 0 0
    have hk : k < 2 ^ 4 := of_decide_eq_true hwf
    exact .inr (.inl ⟨hop, hidx, hrsv, hdata, by rw [encode, hsel, toNat_ofNat_of_lt hk]⟩)
  | pixWrite n r g b br =>
    obtain ⟨hop, hsel, hidx, hrsv, hdata⟩ := pack_fields 2 0 n
      (Word.ofBytes (BitVec.ofNat 8 br) (BitVec.ofNat 8 r) (BitVec.ofNat 8 g) (BitVec.ofNat 8 b))
    obtain ⟨h0, h1, h2, h3⟩ := Machine.Word.byte_ofBytes (BitVec.ofNat 8 br) (BitVec.ofNat 8 r) (BitVec.ofNat 8 g)
      (BitVec.ofNat 8 b)
    simp only [Instr.wf, Bool.and_eq_true, decide_eq_true_eq] at hwf
    obtain ⟨⟨⟨⟨hn, hr⟩, hg⟩, hb⟩, hbr⟩ := hwf
    refine .inr (.inr (.inl ⟨hop, hsel, hrsv, ?_⟩))
    rw [encode, hidx, hdata, h0, h1, h2, h3, toNat_ofNat_of_lt hn, toNat_ofNat_of_lt hr,
      toNat_ofNat_of_lt hg, toNat_ofNat_of_lt hb, toNat_ofNat_of_lt hbr]
  | rdWord w =>
    obtain ⟨hop, hsel, hidx, hrsv, hdata⟩ := pack_fields 3 0 w 0
    have hw : w < 2 ^ 20 := of_decide_eq_true hwf
    exact .inr (.inr (.inr (.inl ⟨hop, hsel, hrsv, hdata, by rw [encode, hidx, toNat_ofNat_of_lt hw]⟩)))
  | rdByte a =>
    obtain ⟨hop, hsel, hidx, hrsv, hdata⟩ := pack_fields 4 0 a 0
    have ha : a < 2 ^ 20 := of_decide_eq_true hwf
    exact .inr (.inr (.inr (.inr (.inl ⟨hop, hsel, hrsv, hdata, by rw [encode, hidx, toNat_ofNat_of_lt ha]⟩))))
  | sendBb dly =>
    obtain ⟨hop, hsel, hidx, hrsv, hdata⟩ := pack_fields 5 0 0 ((0 : BitVec 16) ++ BitVec.ofNat 16 dly)
    obtain ⟨hlow, hhigh⟩ := half_zero_append (BitVec.ofNat 16 dly)
    have hd : dly < 2 ^ 16 := of_decide_eq_true hwf
    exact .inr (.inr (.inr (.inr (.inr (.inl ⟨hop, hsel, hidx, hrsv, by rw [encode, hdata, hhigh],
      by rw [encode, hdata, hlow, toNat_ofNat_of_lt hd]⟩)))))
  | sendPer ign =>
    obtain ⟨hop, hsel, hidx, hrsv, hdata⟩ := pack_fields 6 0 0 ((0 : BitVec 16) ++ BitVec.ofNat 16 ign)
    obtain ⟨hlow, hhigh⟩ := half_zero_append (BitVec.ofNat 16 ign)
    have hd : ign < 2 ^ 16 := of_decide_eq_true hwf
    exact .inr (.inr (.inr (.inr (.inr (.inr (.inl ⟨hop, hsel, hidx, hrsv, by rw [encode, hdata, hhigh],
      by rw [encode, hdata, hlow, toNat_ofNat_of_lt hd]⟩))))))
  | rdStatus =>
    obtain ⟨hop, hsel, hidx, hrsv, hdata⟩ := pack_fields 7 0 0 0
    exact .inr (.inr (.inr (.inr (.inr (.inr (.inr ⟨hop, hsel, hidx, hrsv, hdata, rfl⟩))))))

/-- Packing the fields that a decoded instruction was read from gives the word back. -/
theorem encode_of_decode {c : CmdWord} {i : Instr} (h : decode c = .ok i) : encode i = c := by
  rcases decode_eq_ok.1 h with ⟨hop, hsel, hidx, hrsv, hdata, rfl⟩ | ⟨hop, hidx, hrsv, hdata, rfl⟩ |
    ⟨hop, hsel, hrsv, rfl⟩ | ⟨hop, hsel, hrsv, hdata, rfl⟩ | ⟨hop, hsel, hrsv, hdata, rfl⟩ |
    ⟨hop, hsel, hidx, hrsv, hhigh, rfl⟩ | ⟨hop, hsel, hidx, hrsv, hhigh, rfl⟩ | ⟨hop, hsel, hidx, hrsv, hdata, rfl⟩ <;>
    have hpack := pack_self c hrsv
  case inl | inr.inr.inr.inr.inr.inr.inr => rwa [hop, hsel, hidx, hdata] at hpack
  case inr.inl => rwa [hop, hidx, hdata] at hpack
  case inr.inr.inl => rw [hop, hsel] at hpack; simpa [encode, Machine.Word.ofBytes_byte] using hpack
  case inr.inr.inr.inl | inr.inr.inr.inr.inl => rwa [hop, hsel, hdata] at hpack
  case inr.inr.inr.inr.inr.inl | inr.inr.inr.inr.inr.inr.inl =>
    rw [hop, hsel, hidx, ← half_self c.data hhigh] at hpack
    simpa [encode] using hpack

/-- Settles O2: the fields that carry no operand are 0, so the word is the packing of what was read. -/
theorem encodeOfDecode : Obligations.EncodeOfDecode :=
  fun _ _ h => ⟨decode_wf h, encode_of_decode h⟩

/-! ### The opcode table -/

/-- Every instruction's encoding is of the row with its mnemonic. -/
theorem encode_row (i : Instr) : Laws.EncodeRow.Statement i := by
  cases i with
  | nop => exact Laws.EncodeRow.nop
  | poll => exact Laws.EncodeRow.poll _
  | pixWrite => exact Laws.EncodeRow.pixWrite _ _ _ _ _
  | rdWord => exact Laws.EncodeRow.rdWord _
  | rdByte => exact Laws.EncodeRow.rdByte _
  | sendBb => exact Laws.EncodeRow.sendBb _
  | sendPer => exact Laws.EncodeRow.sendPer _
  | rdStatus => exact Laws.EncodeRow.rdStatus

/-- The rows are told apart by their mnemonics. -/
theorem row_eq_of_mnemonic :
    ∀ row ∈ opcodeTable, ∀ other ∈ opcodeTable, other.mnemonic = row.mnemonic → other = row := by
  decide

/-- A word of a row decodes to an instruction with the row's mnemonic. -/
theorem decode_of_covers {c : CmdWord} {row : OpcodeRow} (hrow : row ∈ opcodeTable) (h : row.covers c = true) :
    ∃ i, decode c = .ok i ∧ i.mnemonic = row.mnemonic := by
  have all4 (x : BitVec 4) : x &&& 0xF = x := BitVec.and_allOnes
  have all20 (x : BitVec 20) : x &&& 0xFFFFF = x := BitVec.and_allOnes
  have all32 (x : BitVec 32) : x &&& 0xFFFFFFFF = x := BitVec.and_allOnes
  simp only [opcodeTable, List.mem_cons, List.not_mem_nil, or_false] at hrow
  rcases hrow with rfl | rfl | rfl | rfl | rfl | rfl | rfl | rfl
  · have hf := (covers_iff _ 0 0 0 0 0 0xF 0xF 0xFFFFF 0xF 0xFFFFFFFF c).1 h
    simp only [all4, all20, all32] at hf
    obtain ⟨hop, hsel, hidx, hrsv, hdata⟩ := hf
    exact ⟨_, decode_eq_ok.2 (.inl ⟨hop, hsel, hidx, hrsv, hdata, rfl⟩), rfl⟩
  · have hf := (covers_iff _ 1 0 0 0 0 0xF 0 0xFFFFF 0xF 0xFFFFFFFF c).1 h
    simp only [all4, all20, all32] at hf
    obtain ⟨hop, -, hidx, hrsv, hdata⟩ := hf
    exact ⟨_, decode_eq_ok.2 (.inr (.inl ⟨hop, hidx, hrsv, hdata, rfl⟩)), rfl⟩
  · have hf := (covers_iff _ 2 0 0 0 0 0xF 0xF 0 0xF 0 c).1 h
    simp only [all4] at hf
    obtain ⟨hop, hsel, -, hrsv, -⟩ := hf
    exact ⟨_, decode_eq_ok.2 (.inr (.inr (.inl ⟨hop, hsel, hrsv, rfl⟩))), rfl⟩
  · have hf := (covers_iff _ 3 0 0 0 0 0xF 0xF 0 0xF 0xFFFFFFFF c).1 h
    simp only [all4, all32] at hf
    obtain ⟨hop, hsel, -, hrsv, hdata⟩ := hf
    exact ⟨_, decode_eq_ok.2 (.inr (.inr (.inr (.inl ⟨hop, hsel, hrsv, hdata, rfl⟩)))), rfl⟩
  · have hf := (covers_iff _ 4 0 0 0 0 0xF 0xF 0 0xF 0xFFFFFFFF c).1 h
    simp only [all4, all32] at hf
    obtain ⟨hop, hsel, -, hrsv, hdata⟩ := hf
    exact ⟨_, decode_eq_ok.2 (.inr (.inr (.inr (.inr (.inl ⟨hop, hsel, hrsv, hdata, rfl⟩))))), rfl⟩
  · have hf := (covers_iff _ 5 0 0 0 0 0xF 0xF 0xFFFFF 0xF 0xFFFF0000 c).1 h
    simp only [all4, all20] at hf
    obtain ⟨hop, hsel, hidx, hrsv, hhigh⟩ := hf
    have hhalf := (low_mask _).1 hhigh
    exact ⟨_, decode_eq_ok.2 (.inr (.inr (.inr (.inr (.inr (.inl ⟨hop, hsel, hidx, hrsv, hhalf, rfl⟩)))))), rfl⟩
  · have hf := (covers_iff _ 6 0 0 0 0 0xF 0xF 0xFFFFF 0xF 0xFFFF0000 c).1 h
    simp only [all4, all20] at hf
    obtain ⟨hop, hsel, hidx, hrsv, hhigh⟩ := hf
    have hhalf := (low_mask _).1 hhigh
    exact ⟨_, decode_eq_ok.2 (.inr (.inr (.inr (.inr (.inr (.inr (.inl ⟨hop, hsel, hidx, hrsv, hhalf, rfl⟩))))))), rfl⟩
  · have hf := (covers_iff _ 7 0 0 0 0 0xF 0xF 0xFFFFF 0xF 0xFFFFFFFF c).1 h
    simp only [all4, all20, all32] at hf
    obtain ⟨hop, hsel, hidx, hrsv, hdata⟩ := hf
    exact ⟨_, decode_eq_ok.2 (.inr (.inr (.inr (.inr (.inr (.inr (.inr ⟨hop, hsel, hidx, hrsv, hdata, rfl⟩))))))), rfl⟩

/-- Settles O3: a word that decodes is its instruction's encoding, which is of the instruction's row; a word of any row
decodes to an instruction with that row's mnemonic. -/
theorem decoderAgreesWithOpcodeTable : Obligations.DecoderAgreesWithOpcodeTable := by
  refine fun c => ⟨fun i hd => ?covered, fun e hd row hrow => ?refused⟩
  case covered =>
    obtain ⟨row, hrow, hmn, hcov⟩ := encode_row i
    rw [encode_of_decode hd] at hcov
    refine ⟨row, hrow, hcov, hmn, fun other hother hcov' => row_eq_of_mnemonic row hrow other hother ?_⟩
    obtain ⟨i', hd', hmn'⟩ := decode_of_covers hother hcov'
    cases hd.symm.trans hd'
    exact hmn'.symm.trans hmn.symm
  case refused =>
    refine Bool.eq_false_iff.2 fun hcov => ?_
    obtain ⟨i, hi, -⟩ := decode_of_covers hrow hcov
    cases hd.symm.trans hi

/-- Settles O4: the decoder evaluates each of the eight words. -/
theorem sampleWordsDecode : Obligations.SampleWordsDecode := by
  unfold Obligations.SampleWordsDecode
  decide

end Sys2Proof
end

section
/-! PROOFS. The command port (30_encoding.md R78, R80): an accepted word that decodes is performed, one that does not is
illegal; and while the port is not ready, no edge reads what the host presents. -/

namespace Sys2Proof.Machine

open Sys2Proof.Claims

/-- Settles O6: an illegal word does not decode, and its edge is `raiseFatal`. -/
theorem illegalWordsRaiseIllegalCmd : Obligations.IllegalWordsRaiseIllegalCmd :=
  fun _ => step_of_illegalWord

/-- Settles O45: the four conditions are those of an acceptance. -/
theorem stepRunsTheAcceptedCommand : Obligations.StepRunsTheAcceptedCommand := by
  refine ⟨fun s i hr hf hidle hv hd => ?_, fun s e hr hf hidle hv hd => ?_⟩ <;>
    have ha : accepts s = true := accepts_iff.2 ⟨hv, hr, hf, hidle⟩
  · exact step_of_command ha hd
  · exact ⟨_, step_of_illegal ha hd, fatalTaken s _⟩

/-! ### Presenting a command (log 6) -/

/-- A presented word is accepted, whatever the state was. -/
theorem accepts_withFetchWord (s : State) (nbits w : Nat) : accepts (s.withFetchWord nbits w) = true := by
  refine accepts_iff.2 ⟨rfl, rfl, rfl, ?_⟩
  by_cases h : s.tx.state = .idle <;> simp [State.withFetchWord, h, Transmitter.reset]

/-- A 64-bit word on the port is the word itself. -/
theorem cmd_withFetchWord (s : State) (c : CmdWord) : (s.withFetchWord 64 c.toNat).input.cmd = c := by
  change BitVec.ofNat 64 (c.toNat % 2 ^ 64) = c
  rw [Nat.mod_eq_of_lt c.isLt, BitVec.ofNat_toNat, BitVec.setWidth_eq]

/-- Settles O46: the encoding of a well-formed instruction decodes to it, and the presented word is accepted. -/
theorem presentedCommandRunsNext : Obligations.PresentedCommandRunsNext := by
  intro s i hwf
  have hd := decodeOfEncode i hwf
  refine ⟨step_of_command (accepts_withFetchWord s _ _) ?_, ?_⟩
  · rw [cmd_withFetchWord, hd]
  · have hlt := (encode i).isLt
    rw [decodeTableWord, Nat.mod_eq_of_lt hlt, if_pos hlt, BitVec.ofNat_toNat, BitVec.setWidth_eq, hd]
    rfl

/-! ### A port that is not ready (30_encoding.md R80) -/

/-- `s` with this cycle's inputs `inp`, but with these values of `cmd_valid` and `cmd`. -/
def withCommand (s : State) (inp : Input) (rest : List Input) (valid : Bool) (word : CmdWord) : State :=
  { s with inputs := { inp with cmdValid := valid, cmd := word } :: rest }

/-- No edge of the transmitter reads the command. -/
theorem txEdge_withCommand {s : State} {inp : Input} {rest : List Input} (h : s.inputs = inp :: rest) (valid : Bool)
    (word : CmdWord) : txEdge (withCommand s inp rest valid word) = txEdge s := by
  obtain ⟨cfg, deb, frame, ⟨state, j, b, d, w, t⟩, pin, stat, ftl, rsp, inputs, cycle⟩ := s
  subst h
  cases state <;> rfl

theorem cmdReady_withCommand {s : State} {inp : Input} {rest : List Input} (h : s.inputs = inp :: rest) (valid : Bool)
    (word : CmdWord) : cmdReady (withCommand s inp rest valid word) = cmdReady s := by
  cases s; subst h; rfl

/-- A port that is not ready accepts nothing, whatever is presented. -/
theorem accepts_eq_false_of_not_ready {s : State} (h : cmdReady s = false) : accepts s = false := by
  rw [accepts, h, Bool.and_false]

/-- Settles O47: the edge is the reset or the transmitter's, and neither reads the command. -/
theorem unacceptedCommandHasNoEffect : Obligations.UnacceptedCommandHasNoEffect := by
  intro s inp rest valid word h hnot
  change step (withCommand s inp rest valid word) = step s
  have hinp := input_eq_of_inputs h
  cases hr : s.input.rst with
  | true =>
    have hr' : (withCommand s inp rest valid word).input.rst = true := by rw [← hr, hinp]; rfl
    rw [step_of_reset hr, step_of_reset hr']
    cases s; subst h; rfl
  | false =>
    have hr' : (withCommand s inp rest valid word).input.rst = false := by rw [← hr, hinp]; rfl
    rw [step_of_noCommand hr (accepts_eq_false_of_not_ready hnot),
      step_of_noCommand hr' (accepts_eq_false_of_not_ready ((cmdReady_withCommand h valid word).trans hnot)),
      txEdge_withCommand h]

end Sys2Proof.Machine
end

section
/-! PROOFS. The assembler (30_encoding.md R85). A line is cut, from the outside in, at its comment, its outer blanks,
the end of its mnemonic and its commas; the two directions of the obligation put together and take apart the same pieces. -/

namespace Sys2Proof.Machine

open Sys2Proof.Claims

/-! ### Cutting a line -/

/-- A text is one that does not end with a blank, and blanks after it. -/
theorem split_trailing_blanks (x : List Char) :
    ∃ body blanks, x = body ++ blanks ∧ Blanks blanks ∧ ∀ c, body.getLast? = some c → isBlank c = false := by
  obtain ⟨b, hb, hx⟩ := split_dropWhile x.reverse
  refine ⟨(x.reverse.dropWhile isBlank).reverse, b.reverse, ?_, fun c hc => hb c (List.mem_reverse.1 hc),
    fun c hc => ?_⟩
  · rw [← List.reverse_append, ← hx, List.reverse_reverse]
  · have hnot := List.head?_dropWhile_not (p := isBlank) x.reverse
    rw [List.getLast?_reverse] at hc
    simpa [hc] using hnot

/-- Blanks after the operands do not matter. -/
theorem readOperands_append_blanks {b : List Char} (hb : Blanks b) (x : List Char) (ops : List Nat) :
    readOperands (x ++ b) = some ops ↔ readOperands x = some ops := by
  have hblank : Blanks (x ++ b) ↔ Blanks x :=
    ⟨fun h c hc => h c (List.mem_append_left b hc), fun h => blanks_append h hb⟩
  rw [readOperands_iff, readOperands_iff, hblank, operandTexts_congr (trim_splitCommas_right hb x)]

/-- The joined pieces have the characters of each. -/
theorem mem_intercalate_of_mem {ps : List (List Char)} {p : List Char} (hp : p ∈ ps) {c : Char} (hc : c ∈ p) :
    c ∈ List.intercalate [','] ps := by
  induction ps with
  | nil => cases hp
  | cons q ps ih =>
    cases ps with
    | nil => simpa [List.intercalate, List.mem_singleton.1 hp] using hc
    | cons r ps =>
      have hjoin : List.intercalate [','] (q :: r :: ps) = q ++ ',' :: List.intercalate [','] (r :: ps) := by
        simp [List.intercalate, List.intersperse]
      rw [hjoin, List.mem_append, List.mem_cons]
      rcases List.mem_cons.1 hp with rfl | hp
      · exact .inl hc
      · exact .inr (.inr (ih hp))

/-- Each piece writes an operand. -/
theorem operandText_of_mem {pieces : List (List Char)} {ops : List Nat} (h : List.Forall₂ OperandText pieces ops)
    {p : List Char} (hp : p ∈ pieces) : ∃ n, OperandText p n := by
  induction h with
  | nil => cases hp
  | cons hq _ ih =>
    rcases List.mem_cons.1 hp with rfl | hp
    · exact ⟨_, hq⟩
    · exact ih hp

/-- The operands are read from their pieces, with blanks before the first one or none. -/
theorem readOperands_of_pieces {gap : List Char} {pieces : List (List Char)} {ops : List Nat} (hgap : Blanks gap)
    (h : List.Forall₂ OperandText pieces ops) :
    readOperands (gap ++ List.intercalate [','] pieces) = some ops := by
  rw [readOperands_iff]
  have hpieces : ∀ p ∈ pieces, (∃ c ∈ p, isBlank c = false) ∧ ∀ c ∈ p, c ≠ ',' ∧ c ≠ ';' := fun p hp =>
    let ⟨_, hn⟩ := operandText_of_mem h hp
    operandText_chars hn
  by_cases hnil : pieces = []
  · subst hnil
    cases h
    exact .inl ⟨by simpa [List.intercalate] using hgap, rfl⟩
  · have hsplit : splitCommas (List.intercalate [','] pieces) = pieces :=
      splitCommas_intercalate hnil fun p hp c hc => ((hpieces p hp).2 c hc).1
    refine .inr ⟨fun hblank => ?_, ?_⟩
    · obtain ⟨p, hp⟩ := List.exists_mem_of_ne_nil _ hnil
      obtain ⟨⟨c, hc, hnot⟩, -⟩ := hpieces p hp
      simp [blanks_iff.1 hblank c (List.mem_append_right _ (mem_intercalate_of_mem hp hc))] at hnot
    · rwa [operandTexts_congr (trim_splitCommas_left hgap _), hsplit]

/-! ### A written line assembles (R85) -/

/-- A line that writes an instruction has its mnemonic and operands where `assembleLine` looks for them. -/
theorem assembleLine_of_commandLine {line mn : List Char} {ops : List Nat} {i : Instr} (h : CommandLine line mn ops)
    (hw : WrittenAs mn ops i) :
    assembleLine line = if i.wf then .ok (some (encode i)) else .error .operandTooLarge := by
  obtain ⟨lead, gap, comment, pieces, rfl, hlead, hgap, hgapne, hops, hcomment⟩ := h
  obtain ⟨hne, hmn⟩ := writtenAs_chars hw
  obtain ⟨body, b, hbody, hb, hlast⟩ := split_trailing_blanks (gap ++ List.intercalate [','] pieces)
  have hread : readOperands body = some ops := by
    rw [← readOperands_append_blanks hb, ← hbody]
    exact readOperands_of_pieces hgap hops
  have hnosemi : ∀ c ∈ lead ++ mn ++ gap ++ List.intercalate [','] pieces, c ≠ ';' := by
    have hblank : ∀ {x : List Char}, Blanks x → ∀ c ∈ x, c ≠ ';' := fun hx c hc => by
      rcases hx c hc with rfl | rfl <;> decide
    intro c hc
    simp only [List.mem_append] at hc
    rcases hc with ((hc | hc) | hc) | hc
    · exact hblank hlead c hc
    · exact (hmn c hc).2
    · exact hblank hgap c hc
    · rcases mem_intercalate hc with rfl | ⟨p, hp, hc⟩
      · decide
      · obtain ⟨n, hn⟩ := operandText_of_mem hops hp
        exact ((operandText_chars hn).2 c hc).2
  have hhead : ∀ c, body.head? = some c → isBlank c = true := by
    intro c hc
    by_cases hnil : ops = []
    · subst hnil
      cases hops
      have hmem : c ∈ gap := by
        have hx : c ∈ body ++ b := List.mem_append_left b (List.mem_of_mem_head? hc)
        rw [← hbody] at hx
        simpa [List.intercalate] using hx
      exact blanks_iff.1 hgap c hmem
    · obtain ⟨g, gap', rfl⟩ := List.exists_cons_of_ne_nil (hgapne hnil)
      obtain ⟨body', rfl⟩ : ∃ body', body = c :: body' := List.head?_eq_some_iff.1 hc
      obtain ⟨rfl, -⟩ := List.cons.inj hbody
      exact blanks_iff.1 hgap _ (by simp)
  have htrim : Trimmed (mn ++ body) := by
    refine ⟨fun c hc => ?_, fun c hc => ?_⟩
    · rw [List.head?_append_of_ne_nil _ hne] at hc
      exact (hmn c (List.mem_of_mem_head? hc)).1
    · rw [List.getLast?_append] at hc
      cases hl : body.getLast? with
      | none => exact (hmn c (List.mem_of_mem_getLast? (by simpa [hl] using hc))).1
      | some d => exact hlast c (by simpa [hl] using hc)
  refine assembleLine_of_text ?_ hhead hread hw
  rw [stripComment_append hnosemi hcomment, List.append_assoc, List.append_assoc, hbody, ← List.append_assoc mn,
    trimBlanks_left hlead, trimBlanks_right hb, trimBlanks_of_trimmed htrim]

/-! ### A line that assembles is written (R85) -/

/-- The mnemonic of a text: its characters up to the first blank. -/
def textMnemonic (text : List Char) : List Char := text.takeWhile fun c => !isBlank c

/-- What stands after the mnemonic of a text. -/
def textOperands (text : List Char) : List Char := text.dropWhile fun c => !isBlank c

/-- What it takes for a line to assemble to a word. -/
theorem assembleLine_eq_ok {line : List Char} {c : CmdWord} (h : assembleLine line = .ok (some c)) :
    ∃ ops i, readOperands (textOperands (trimBlanks (stripComment line))) = some ops ∧
      commandOf (textMnemonic (trimBlanks (stripComment line))) ops = .ok i ∧ i.wf = true ∧ c = encode i := by
  unfold assembleLine at h
  simp only at h
  split at h
  · cases h
  split at h
  · cases h
  split at h
  · cases h
  rename_i ops hops _ i hi
  refine ⟨ops, i, hops, hi, ?_⟩
  unfold assemble at h
  by_cases hwf : i.wf = true
  · simp only [hwf, if_true] at h
    cases h
    exact ⟨hwf, rfl⟩
  · simp [hwf] at h

/-- The text after a mnemonic is blanks, then the operands' pieces. -/
theorem pieces_of_readOperands {text b : List Char} {ops : List Nat} (hb : Blanks b)
    (h : readOperands (textOperands text) = some ops) :
    ∃ gap pieces, textOperands text ++ b = gap ++ List.intercalate [','] pieces ∧ Blanks gap ∧ (ops ≠ [] → gap ≠ []) ∧
      List.Forall₂ OperandText pieces ops := by
  rcases readOperands_iff.1 h with ⟨hblank, rfl⟩ | ⟨hnot, hops⟩
  · exact ⟨_, [], by simp [List.intercalate], blanks_append hblank hb, fun hne => absurd rfl hne, .nil⟩
  · cases hrest : textOperands text with
    | nil => exact absurd (fun c hc => by simp [hrest] at hc) hnot
    | cons g rest =>
      have hg : isBlank g = true := by
        have hhead := List.head?_dropWhile_not (p := fun c => !isBlank c) text
        rw [show text.dropWhile (fun c => !isBlank c) = g :: rest from hrest] at hhead
        simpa using hhead
      have hgap : Blanks [g] := blanks_iff.2 (by simpa using hg)
      refine ⟨[g], splitCommas (rest ++ b), by rw [intercalate_splitCommas]; rfl, hgap, fun _ => by simp, ?_⟩
      rw [operandTexts_congr (trim_splitCommas_right hb rest), ← operandTexts_congr (trim_splitCommas_left hgap rest)]
      rw [hrest] at hops
      exact hops

/-- Settles O8: the pieces put together are read back, and the pieces that were read make up the line. -/
theorem assembledLinesAreCommands : Obligations.AssembledLinesAreCommands := by
  refine ⟨fun line mn ops i hline hw => ?written, fun line c h => ?assembled⟩
  case written =>
    rw [assembleLine_of_commandLine hline hw, fits_iff]
    exact ⟨fun hwf => if_pos hwf, fun hwf => if_neg hwf⟩
  case assembled =>
    obtain ⟨ops, i, hread, hcmd, hwf, rfl⟩ := assembleLine_eq_ok h
    obtain ⟨comment, hline, hcomment⟩ := split_stripComment line
    obtain ⟨lead, b, hlead, hb, htext⟩ := split_trimBlanks (stripComment line)
    obtain ⟨gap, pieces, hrest, hgap, hgapne, hops⟩ := pieces_of_readOperands hb hread
    have hcut := List.takeWhile_append_dropWhile (p := fun c => !isBlank c) (l := trimBlanks (stripComment line))
    refine ⟨_, ops, i, ⟨lead, gap, comment, pieces, ?_, hlead, hgap, hgapne, hops, hcomment⟩, commandOf_iff.1 hcmd,
      fits_iff.2 hwf, hwf, rfl, decodeOfEncode i hwf⟩
    calc line = stripComment line ++ comment := hline
      _ = lead ++ (textMnemonic (trimBlanks (stripComment line)) ++ textOperands (trimBlanks (stripComment line))) ++
          b ++ comment := by rw [textMnemonic, textOperands, hcut, ← htext]
      _ = lead ++ textMnemonic (trimBlanks (stripComment line)) ++
          (textOperands (trimBlanks (stripComment line)) ++ b) ++ comment := by simp only [List.append_assoc]
      _ = _ := by rw [hrest]; simp only [List.append_assoc]

end Sys2Proof.Machine
end

section
/-! PROOFS. The invariant (Safety.lean). It is cut into four parts, one for each group of registers that one kind of
edge writes: the channels, the frame, the transmitter with its lines, and the records (fatal, status and response registers).
Each part is kept by each kind of edge, and a step keeps the whole. -/

namespace Sys2Proof.Machine

open Sys2Proof.Claims

/-! ### The parts of the invariant -/

/-- One channel per input, each with a saturated counter (10_state.md R22, R25). -/
structure ChannelsOk (c : Config) (deb : List Channel) : Prop where
  length  : deb.length = c.numInputs
  elapsed : ∀ k ch, deb[k]? = some ch → ch.elapsed ≤ settleOf c k + 1

/-- The canonical frame, stored bytes in the active window only, header bits in every active entry (10_state.md R27). -/
structure FrameOk (c : Config) (m : Memory) : Prop where
  form   : Memory.wf m = true
  window : ∀ cell ∈ m, 4 ≤ cell.1 ∧ cell.1 < 4 * (c.n + 1)
  header : ∀ i v, i < c.n → frameWord c m (i + 1) = some v → pixelHeader v = 7

/-- The transmitter's registers are in range and the lines are where its state says (42_transmit.md). -/
structure TxOk (s : State) : Prop where
  ranges : TxRanges s.cfg s.tx
  wire   : WireLevels s

/-- The fatal, status and response registers agree (60_exceptions.md R181, R182, 10_state.md R32 to R37). -/
structure RecordsOk (s : State) : Prop where
  fatalCause : s.ftl.fatal = s.ftl.cause.isSome
  fatalIdle  : s.ftl.fatal = true → s.tx.state = .idle
  fatalRsp   : s.ftl.fatal = true → s.rsp.data = (causeCode s.ftl.cause).zeroExtend 32
  fatalCode  : s.rsp.code = .fatal ↔ s.ftl.fatal = true
  stripUndef : s.stat.stripUndef = decide (s.stat.lastResult ≠ some .ok)
  variant    : variantFits s.stat = true
  quietSend  : s.tx.state ≠ .idle → s.rsp.valid = false

theorem lioInv_iff {s : State} :
    LioInv s ↔
      s.cfg.valid = true ∧ ChannelsOk s.cfg s.deb ∧ FrameOk s.cfg s.frame ∧ TxOk s ∧ RecordsOk s := by
  constructor
  · rintro ⟨hc, hl, he, hf, hw, hh, ht, hwire, h1, h2, h3, h4, h5, h6, h7⟩
    exact ⟨hc, ⟨hl, he⟩, ⟨hf, hw, hh⟩, ⟨ht, hwire⟩, ⟨h1, h2, h3, h4, h5, h6, h7⟩⟩
  · rintro ⟨hc, ⟨hl, he⟩, ⟨hf, hw, hh⟩, ⟨ht, hwire⟩, ⟨h1, h2, h3, h4, h5, h6, h7⟩⟩
    exact ⟨hc, hl, he, hf, hw, hh, ht, hwire, h1, h2, h3, h4, h5, h6, h7⟩

/-! ### The channels -/

theorem channelsOk_reset (c : Config) : ChannelsOk c (c.channels.map Channel.reset) := by
  refine ⟨List.length_map _, fun k ch h => ?_⟩
  obtain ⟨cc, -, rfl⟩ := Option.map_eq_some_iff.1 (List.getElem?_map.symm.trans h)
  exact Nat.zero_le _

theorem ChannelsOk.channelsEdge {c : Config} {deb : List Channel} (h : ChannelsOk c deb) (inp : Input) :
    ChannelsOk c (channelsEdge c inp deb) := by
  refine ⟨(channelsEdge_length c inp deb).trans h.length, fun k ch hk => ?_⟩
  obtain ⟨old, -, rfl⟩ := Option.map_eq_some_iff.1 ((channelsEdge_getElem? c inp deb k).symm.trans hk)
  exact elapsedNext_le _ _ _

/-- The update pass of a POLL keeps its counter saturated. -/
theorem ChannelsOk.set {c : Config} {deb : List Channel} (h : ChannelsOk c deb) {k : Nat} {ch : Channel}
    (hch : ch.elapsed ≤ settleOf c k + 1) : ChannelsOk c (deb.set k ch) := by
  refine ⟨List.length_set.trans h.length, fun q x hq => ?_⟩
  by_cases hqk : k = q
  · subst hqk
    rw [List.getElem?_set_self (by simpa using (List.getElem?_eq_some_iff.1 hq).1)] at hq
    exact Option.some.inj hq ▸ hch
  · exact h.elapsed q x ((List.getElem?_set_ne hqk).symm.trans hq)

theorem step_channelsOk {s t : State} (h : ChannelsOk s.cfg s.deb) (hs : step s = .next t) :
    ChannelsOk t.cfg t.deb := by
  rw [step_cfg hs]
  cases hr : s.input.rst with
  | true =>
    cases (step_of_reset hr).symm.trans hs
    exact channelsOk_reset s.cfg
  | false =>
    rcases step_deb hs hr with hrun | ⟨k, ch, -, -, -, -, hpoll⟩
    · exact hrun ▸ h.channelsEdge _
    · exact hpoll ▸ (h.channelsEdge _).set (channelPolled_elapsed_le _ _ _ _)

/-! ### The frame -/

/-- The one write of the frame (20_memory.md R60): a step leaves it, resets it, or is an accepted PIX_WRITE in range. -/
theorem step_frame {s t : State} (h : step s = .next t) :
    t.frame = s.frame ∨ (s.input.rst = true ∧ t.frame = []) ∨
    ∃ i r g b br, accepts s = true ∧ decode s.input.cmd = .ok (.pixWrite i r g b br) ∧ br < 32 ∧ i < s.cfg.n ∧
      t.frame = Memory.store s.frame (activeAddress i) (encodePixel r g b br) := by
  rcases step_cases h with ⟨hr, rfl⟩ | ⟨-, -, -, rfl⟩ | ⟨-, ha, i, hd, he⟩ | ⟨-, -, ht⟩
  · exact .inr (.inl ⟨hr, rfl⟩)
  · exact .inl rfl
  · rcases exec_cases he with ⟨c, rfl⟩ | ⟨d, rfl⟩ | ⟨k, ch, -, -, -, rfl⟩ | ⟨n, r, g, b, br, rfl, hbr, hn, rfl⟩ |
      ⟨dly, -, rfl⟩ | ⟨ign, -, rfl⟩
    case inr.inr.inr.inl => exact .inr (.inr ⟨n, r, g, b, br, ha, hd, hbr, hn, rfl⟩)
    all_goals exact .inl rfl
  · exact .inl (txEdge_keeps ht).frame

/-- At reset every active entry is 0xFFFFFFFF (10_state.md R29). -/
theorem frameOk_nil (c : Config) : FrameOk c [] := by
  refine ⟨rfl, by simp, fun i v hi hv => ?_⟩
  cases (frameWord_unwritten (c := c) (w := i + 1) (by omega) (by omega)).symm.trans hv
  decide

theorem FrameOk.store {c : Config} {m : Memory} (h : FrameOk c m) {i br : Nat} (hi : i < c.n) (hbr : br < 32)
    (r g b : Nat) : FrameOk c (Memory.store m (activeAddress i) (encodePixel r g b br)) := by
  refine ⟨Memory.wf_store h.form _ _, fun cell hcell => ?_, fun q v hq hv => ?_⟩
  · rcases Memory.mem_store hcell with hin | hold
    · unfold activeAddress at hin; omega
    · exact h.window cell hold
  · by_cases hqi : q = i
    · subst hqi
      cases (frameWord_store_same h.form hi _).symm.trans hv
      exact pixelHeader_encodePixel r g b hbr
    · rw [frameWord_store_other c m _ (by omega)] at hv
      exact h.header q v hq hv

theorem step_frameOk {s t : State} (h : FrameOk s.cfg s.frame) (hs : step s = .next t) : FrameOk t.cfg t.frame := by
  rw [step_cfg hs]
  rcases step_frame hs with hf | ⟨-, hf⟩ | ⟨i, r, g, b, br, -, -, hbr, hi, hf⟩ <;> rw [hf]
  · exact h
  · exact frameOk_nil _
  · exact h.store hi hbr r g b

/-! ### The transmitter and its lines -/

theorem txOk_finish (r : SendResult) (v : Variant) (t : State) : TxOk (finish r v t) := ⟨rfl, trivial⟩

theorem txOk_of_idle {s : State} (h : s.tx = Transmitter.reset) : TxOk s := by
  refine ⟨?_, ?_⟩
  · rw [h]; rfl
  · simp [WireLevels, h, Transmitter.reset]

/-- An idle transmitter holds its reset values (42_transmit.md R148). -/
theorem TxOk.eq_reset {s : State} (h : TxOk s) (hidle : s.tx.state = .idle) : s.tx = Transmitter.reset := by
  have hr := h.ranges
  rwa [TxRanges, hidle] at hr

/-- A failing pin write finishes the send, so only the successful one has something to show. -/
theorem txOk_pinWrite {inp : Input} {p : Pin} {v : Bool} {f : State → State} {t : State}
    (h : TxOk (f (setPin p v t))) : TxOk (pinWrite inp p v f t) := by
  unfold pinWrite
  split
  · exact txOk_finish _ _ _
  · exact h

/-- After a bit whose level is on the line (42_transmit.md R144, R147): the clock is high, and the last bit of the frame
is 1. -/
theorem txOk_advance {t : State} (hj : t.tx.j < t.cfg.frameBytes) (hd : t.tx.d ≤ 65535 * t.cfg.cyclesPerUs)
    (ht : t.tx.t = 0) (hw : t.tx.w = 0) (hclk : t.pin.clk = true) (hbit : txBit t = some t.pin.dat) :
    TxOk (advance t) := by
  rcases fin_zero_or t.tx.b with hb | hb
  · by_cases hlast : t.tx.j < t.cfg.frameBytes - 1
    · rw [advance_byte hb hlast]
      exact ⟨⟨⟨Nat.add_lt_of_lt_sub hlast, hd, ht⟩, hw⟩, .inr hclk⟩
    · rw [advance_end hb hlast]
      have hend : t.tx.j = t.cfg.frameBytes - 1 := by omega
      exact ⟨⟨⟨hj, hd, ht⟩, hw, hend, hb⟩, hclk, last_bit hb hend hbit⟩
  · rw [advance_bit hb]
    exact ⟨⟨⟨hj, hd, ht⟩, hw⟩, .inr hclk⟩

/-- The byte cursor after a transfer cycle that takes neither the last byte nor the budget (42_transmit.md R153). -/
theorem perCursor_next {ready : Bool} {j n size : Nat} (hj : j < size) (hjn : j ≤ n)
    (hlast : ¬ (ready && decide (j = size - 1)) = true) :
    (if ready then j + 1 else j) < size ∧ (if ready then j + 1 else j) ≤ n + 1 := by
  cases ready <;> simp at hlast ⊢ <;> omega

/-- Every edge of the transmitter keeps its ranges and the levels of the lines. -/
theorem TxOk.txEdge {s t : State} (h : TxOk s) (he : txEdge s = .next t) : TxOk t := by
  obtain ⟨cfg, deb, frame, ⟨state, j, b, d, w, n⟩, pin, stat, ftl, rsp, inputs, cycle⟩ := s
  obtain ⟨hx, hwire⟩ := h
  cases state with
  | idle => cases he; exact ⟨hx, trivial⟩
  | bbClkLo =>
    cases he
    exact txOk_pinWrite ⟨hx, rfl⟩
  | bbDat =>
    obtain ⟨⟨hj, hd, hn⟩, hw⟩ := hx
    obtain ⟨v, hv⟩ := Option.isSome_iff_exists.1 (frameByte_isSome (c := cfg) frame hj)
    rw [txEdge_dat rfl hv] at he
    cases he
    apply txOk_pinWrite
    have hbit : (frameByte cfg frame j).map (fun x => x.getLsbD b.val) = some (v.getLsbD b.val) := by rw [hv]; rfl
    rcases Nat.eq_zero_or_pos d with h0 | hpos
    · rw [waitOr_none (by exact h0)]
      exact ⟨⟨⟨hj, hd, hn⟩, hw⟩, hwire, hbit⟩
    · rw [waitOr_some (by exact hpos)]
      exact ⟨⟨⟨hj, hd, hn⟩, hpos, Nat.le_refl d⟩, hwire, hbit⟩
  | bbWait1 =>
    obtain ⟨hbb, hw, hwd⟩ := hx
    cases he
    by_cases h1 : w = 1
    · rw [waitCycle_last (by exact h1)]
      exact ⟨⟨hbb, rfl⟩, hwire⟩
    · rw [waitCycle_more (by exact h1)]
      exact ⟨⟨hbb, Nat.le_sub_one_of_lt (Nat.lt_of_le_of_ne hw (Ne.symm h1)), Nat.le_trans (Nat.sub_le _ _) hwd⟩, hwire⟩
  | bbClkHi =>
    obtain ⟨⟨hj, hd, hn⟩, hw⟩ := hx
    obtain ⟨-, hbit⟩ := hwire
    cases he
    apply txOk_pinWrite
    rcases Nat.eq_zero_or_pos d with h0 | hpos
    · rw [waitOr_none (by exact h0)]
      exact txOk_advance hj hd hn hw rfl hbit
    · rw [waitOr_some (by exact hpos)]
      exact ⟨⟨⟨hj, hd, hn⟩, hpos, Nat.le_refl d⟩, rfl, hbit⟩
  | bbWait2 =>
    obtain ⟨⟨hj, hd, hn⟩, hw, hwd⟩ := hx
    obtain ⟨hclk, hbit⟩ := hwire
    cases he
    by_cases h1 : w = 1
    · rw [waitCycle_last (by exact h1)]
      exact txOk_advance hj hd hn rfl hclk hbit
    · rw [waitCycle_more (by exact h1)]
      exact ⟨⟨⟨hj, hd, hn⟩, Nat.le_sub_one_of_lt (Nat.lt_of_le_of_ne hw (Ne.symm h1)),
        Nat.le_trans (Nat.sub_le _ _) hwd⟩, hclk, hbit⟩
  | bbEndClk =>
    cases he
    exact txOk_pinWrite ⟨hx, rfl, hwire.2⟩
  | bbEndDat =>
    cases he
    exact txOk_pinWrite (txOk_finish _ _ _)
  | perXfer =>
    obtain ⟨hj, hjn, hn, hb, hd, hw⟩ := hx
    obtain ⟨v, hv⟩ := Option.isSome_iff_exists.1 (frameByte_isSome (c := cfg) frame hj)
    rw [txEdge_perXfer rfl hv] at he
    cases he
    split
    · exact txOk_finish _ _ _
    split
    · exact txOk_finish _ _ _
    split
    · exact txOk_finish _ _ _
    · rename_i hlast hbudget
      obtain ⟨hj', hjn'⟩ := perCursor_next hj hjn hlast
      exact ⟨⟨hj', hjn', Nat.lt_of_not_le hbudget, hb, hd, hw⟩, trivial⟩

/-- The transmitter's edge stops only where the cursor is outside the frame (log 7). -/
theorem txEdge_next {s : State} (h : TxOk s) : ∃ t, txEdge s = .next t := by
  have hx := h.ranges
  cases hst : s.tx.state <;> simp only [TxRanges, hst] at hx
  case idle => exact ⟨_, txEdge_idle hst⟩
  case bbClkLo => exact ⟨_, txEdge_clkLo hst⟩
  case bbDat =>
    obtain ⟨v, hv⟩ := txByte_isSome hx.1.1
    exact ⟨_, txEdge_dat hst hv⟩
  case bbWait1 => exact ⟨_, txEdge_wait1 hst⟩
  case bbClkHi => exact ⟨_, txEdge_clkHi hst⟩
  case bbWait2 => exact ⟨_, txEdge_wait2 hst⟩
  case bbEndClk => exact ⟨_, txEdge_endClk hst⟩
  case bbEndDat => exact ⟨_, txEdge_endDat hst⟩
  case perXfer =>
    obtain ⟨v, hv⟩ := txByte_isSome hx.1
    exact ⟨_, txEdge_perXfer hst hv⟩

/-- A SEND starts at the first bit or byte, with a delay that SEND_BB's field can carry; any other command leaves the
transmitter idle. -/
theorem TxOk.exec {i : Instr} {s t : State} (h : TxOk s) (hcfg : s.cfg.valid = true) (hidle : s.tx.state = .idle)
    (hwf : i.wf = true) (he : exec i s = .next t) : TxOk t := by
  have htx := h.eq_reset hidle
  have hframe : 0 < s.cfg.frameBytes := by unfold Config.frameBytes; omega
  rcases exec_cases he with ⟨c, rfl⟩ | ⟨d, rfl⟩ | ⟨k, ch, -, -, -, rfl⟩ | ⟨n, r, g, b, br, -, -, -, rfl⟩ |
    ⟨dly, rfl, rfl⟩ | ⟨ign, -, rfl⟩
  case inr.inr.inr.inr.inl =>
    have hdly : dly < 65536 := of_decide_eq_true hwf
    rw [htx]
    exact ⟨⟨⟨hframe, Nat.mul_le_mul_right _ (by omega), rfl⟩, rfl⟩, .inl ⟨rfl, rfl⟩⟩
  case inr.inr.inr.inr.inr =>
    simp only [Config.valid, Bool.and_eq_true, decide_eq_true_eq] at hcfg
    obtain ⟨⟨-, htimeout⟩, -⟩ := hcfg
    rw [htx]
    exact ⟨⟨hframe, Nat.le_refl 0, htimeout, rfl, rfl, rfl⟩, trivial⟩
  all_goals exact txOk_of_idle htx

theorem step_txOk {s t : State} (h : TxOk s) (hcfg : s.cfg.valid = true) (hs : step s = .next t) : TxOk t := by
  rcases step_cases hs with ⟨-, rfl⟩ | ⟨-, ha, -, rfl⟩ | ⟨-, ha, i, hd, he⟩ | ⟨-, -, ht⟩
  · exact txOk_of_idle rfl
  · obtain ⟨-, -, -, hidle⟩ := accepts_iff.1 ha
    exact txOk_of_idle (h.eq_reset hidle)
  · obtain ⟨-, -, -, hidle⟩ := accepts_iff.1 ha
    exact h.exec hcfg hidle (decode_wf hd) he
  · exact h.txEdge ht

/-! ### The fatal, status and response registers -/

theorem recordsOk_reset (c : Config) (ins : List Input) (n : Nat) :
    RecordsOk { State.resetOf c with inputs := ins, cycle := n } :=
  ⟨rfl, fun h => (by cases h), fun h => (by cases h), by simp [State.resetOf], rfl, rfl, fun _ => rfl⟩

/-- Entering the fatal state writes its three registers together (60_exceptions.md R182). -/
theorem recordsOk_raiseFatal {s : State} (h : RecordsOk s) (hidle : s.tx.state = .idle) (cause : FatalCause) :
    RecordsOk (raiseFatal cause s) :=
  ⟨rfl, fun _ => hidle, fun _ => rfl, by simp, h.stripUndef, h.variant, fun hb => absurd hidle hb⟩

/-- Outside the fatal state the response code is not FATAL, and every edge but `raiseFatal` keeps it so. -/
theorem recordsOk_of_live {s t : State} (h : RecordsOk s) (hlive : s.ftl.fatal = false) (hftl : t.ftl = s.ftl)
    (hcode : t.rsp.code ≠ .fatal) (hstrip : t.stat.stripUndef = decide (t.stat.lastResult ≠ some .ok))
    (hvariant : variantFits t.stat = true) (hquiet : t.tx.state ≠ .idle → t.rsp.valid = false) : RecordsOk t := by
  have hlive' : t.ftl.fatal = false := by rw [hftl, hlive]
  refine ⟨hftl ▸ h.fatalCause, ?_, ?_, ?_, hstrip, hvariant, hquiet⟩ <;> simp [hlive', hcode]

theorem RecordsOk.code_ne_fatal {s : State} (h : RecordsOk s) (hlive : s.ftl.fatal = false) : s.rsp.code ≠ .fatal :=
  fun hc => by simp [h.fatalCode.1 hc] at hlive

/-- The result of a finished send fits the variant that ran (10_state.md R32 to R34). -/
theorem variantFits_finish {r : SendResult} {v : Variant} {st : TxState}
    (hv : v = if st = .perXfer then .clockedPeripheral else .bitBanged)
    (hbb : st = .perXfer ∨ r = .ok ∨ r = .pinIoErr) (hper : st ≠ .perXfer ∨ r ≠ .pinIoErr) (u : Bool) :
    variantFits { lastResult := some r, stripUndef := u, lastVariant := v } = true := by
  subst hv
  by_cases hst : st = .perXfer
  · cases r <;> simp_all [variantFits]
  · cases r <;> simp_all [variantFits]

theorem RecordsOk.exec {i : Instr} {s t : State} (h : RecordsOk s) (hlive : s.ftl.fatal = false)
    (hidle : s.tx.state = .idle) (he : exec i s = .next t) : RecordsOk t := by
  have hcode := h.code_ne_fatal hlive
  rcases exec_cases he with ⟨c, rfl⟩ | ⟨d, rfl⟩ | ⟨k, ch, -, -, -, rfl⟩ | ⟨n, r, g, b, br, -, -, -, rfl⟩ |
    ⟨dly, -, rfl⟩ | ⟨ign, -, rfl⟩
  case inl => exact recordsOk_raiseFatal h hidle c
  case inr.inr.inr.inr.inl | inr.inr.inr.inr.inr =>
    exact recordsOk_of_live h hlive rfl hcode h.stripUndef h.variant fun _ => rfl
  all_goals exact recordsOk_of_live h hlive rfl (by simp) h.stripUndef h.variant fun hb => absurd hidle hb

theorem RecordsOk.txEdge {s t : State} (h : RecordsOk s) (he : txEdge s = .next t) : RecordsOk t := by
  by_cases hidle : s.tx.state = .idle
  · cases (txEdge_idle hidle).symm.trans he
    exact ⟨h.fatalCause, h.fatalIdle, h.fatalRsp, h.fatalCode, h.stripUndef, h.variant, fun _ => rfl⟩
  · have hlive : s.ftl.fatal = false := Bool.eq_false_iff.2 fun hf => hidle (h.fatalIdle hf)
    have hftl := (txEdge_keeps he).ftl
    cases txEdge_shape hidle he with
    | busy hbusy hrsp hstat =>
      have hcode : t.rsp.code ≠ .fatal := hrsp ▸ h.code_ne_fatal hlive
      exact recordsOk_of_live h hlive hftl hcode (hstat ▸ h.stripUndef) (hstat ▸ h.variant) fun _ => by rw [hrsp]
    | fin r v u ht hv hbb hper =>
      subst ht
      have hcode : r.code ≠ .fatal := by cases r <;> decide
      exact recordsOk_of_live h hlive hftl hcode (by simp) (variantFits_finish hv hbb hper _) fun hb => absurd rfl hb

theorem step_recordsOk {s t : State} (h : RecordsOk s) (hs : step s = .next t) : RecordsOk t := by
  rcases step_cases hs with ⟨-, rfl⟩ | ⟨-, ha, -, rfl⟩ | ⟨-, ha, i, -, he⟩ | ⟨-, -, ht⟩
  · exact recordsOk_reset _ _ _
  · obtain ⟨-, -, -, hidle⟩ := accepts_iff.1 ha
    exact recordsOk_raiseFatal h hidle _
  · obtain ⟨-, -, hlive, hidle⟩ := accepts_iff.1 ha
    exact h.exec hlive hidle he
  · exact h.txEdge ht

/-! ### The whole -/

/-- Settles O54: each part is kept by itself. -/
theorem stepKeepsInv : Obligations.StepKeepsInv := by
  intro s t hinv hs
  obtain ⟨hcfg, hch, hframe, htx, hrec⟩ := lioInv_iff.1 hinv
  exact lioInv_iff.2 ⟨(step_cfg hs).symm ▸ hcfg, step_channelsOk hch hs, step_frameOk hframe hs, step_txOk htx hcfg hs,
    step_recordsOk hrec hs⟩

/-- Settles O53: every part holds of the reset values. -/
theorem resetStateSatisfiesInv : Obligations.ResetStateSatisfiesInv := by
  have hreset : ∀ c : Config, c.valid = true → LioInv (State.resetOf c) := fun c hc =>
    lioInv_iff.2 ⟨hc, channelsOk_reset c, frameOk_nil c, txOk_of_idle rfl, recordsOk_reset c [] 0⟩
  exact ⟨hreset, hreset _ (by decide)⟩

/-- Settles O55: an accepted command completes on a full set of channels, and the transmitter's cursor is in the
frame. -/
theorem stepAlwaysAnswersNext : Obligations.StepAlwaysAnswersNext := by
  intro s hinv
  cases hr : s.input.rst with
  | true => exact ⟨_, step_of_reset hr⟩
  | false =>
    cases ha : accepts s with
    | false =>
      rw [step_of_noCommand hr ha]
      exact txEdge_next ⟨hinv.txRanges, hinv.wire⟩
    | true =>
      cases hd : decode s.input.cmd with
      | error e => exact ⟨_, step_of_illegal ha hd⟩
      | ok i =>
        rw [step_of_command ha hd]
        exact exec_next hinv.channels

end Sys2Proof.Machine
end

section
/-! PROOFS. What an edge may change: the parameters and the model's own counters, the pins, the send status, the
response registers, the fatal state. -/

namespace Sys2Proof.Machine

open Sys2Proof.Claims

/-! ### The parameters and the model's own fields (10_state.md R38) -/

/-- What no command writes: the pins and the send status; and every command takes one cycle's inputs and counts one
edge. -/
theorem exec_keeps {i : Instr} {s t : State} (h : exec i s = .next t) :
    t.pin = s.pin ∧ t.stat = s.stat ∧ t.inputs = s.inputs.tail ∧ t.cycle = s.cycle + 1 := by
  rcases exec_cases h with ⟨c, rfl⟩ | ⟨d, rfl⟩ | ⟨k, ch, -, -, -, rfl⟩ | ⟨n, r, g, b, br, -, -, -, rfl⟩ |
    ⟨dly, -, rfl⟩ | ⟨ign, -, rfl⟩ <;> exact ⟨rfl, rfl, rfl, rfl⟩

theorem step_cycle {s t : State} (h : step s = .next t) : t.cycle = s.cycle + 1 := by
  rcases step_cases h with ⟨-, rfl⟩ | ⟨-, -, -, rfl⟩ | ⟨-, -, i, -, he⟩ | ⟨-, -, ht⟩
  · rfl
  · rfl
  · obtain ⟨-, -, -, hcycle⟩ := exec_keeps he
    exact hcycle
  · exact (txEdge_keeps ht).cycle

/-- Settles O56: no edge writes `cfg`, and every edge takes the inputs and counts as the background does. -/
theorem parametersNeverChange : Obligations.ParametersNeverChange := by
  refine ⟨fun _ _ h => ⟨step_cfg h, step_inputs h, step_cycle h⟩, fun _ _ _ h => ?_⟩
  obtain ⟨-, -, htaken⟩ := exec_keeps h
  exact ⟨exec_cfg h, htaken⟩

/-! ### The fatal state over a run (60_exceptions.md R185) -/

/-- Settles O50: a step of the fatal state that is no reset keeps `ftl`. -/
theorem fatalStaysUntilReset : Obligations.FatalStaysUntilReset := by
  intro m s t hinv hfatal hnoreset hrun
  have hkeep : t.ftl = s.ftl := run_induct (P := fun u => u.ftl = s.ftl) hrun rfl fun u v hu hstep hp =>
    (step_keeps_ftl_of_fatal hstep (by rw [hp, hfatal]) (hnoreset u hu)).trans hp
  exact ⟨hkeep, cmdReady_eq_false_of_fatal (by rw [hkeep, hfatal])⟩

/-! ### The pins (10_state.md R31, 42_transmit.md R141) -/

theorem waitCycle_pin {f : State → State} (hf : ∀ t, (f t).pin = t.pin) (t : State) : (waitCycle f t).pin = t.pin := by
  unfold waitCycle
  split
  · exact hf _
  · rfl

/-- The edge of a pin-write state moves the pin it names (42_transmit.md R143). -/
theorem txEdge_pin_of_pinStep {s t : State} {p : Pin} {v : Bool} (hpin : PinStep s p v) (h : txEdge s = .next t) :
    t.pin = pinsWith s.pin p (if s.input.pinFault then s.input.draw else v) := by
  obtain ⟨f, he, hf⟩ := pinStep_edge hpin
  cases he.symm.trans h
  exact pinWrite_pin hf _ _ _ _

/-- An edge of the transmitter leaves the pins, or is that of a pin-write state. -/
theorem txEdge_pin {s t : State} (h : txEdge s = .next t) : t.pin = s.pin ∨ ∃ p v, PinStep s p v := by
  cases hst : s.tx.state with
  | idle =>
    cases (txEdge_idle hst).symm.trans h
    exact .inl rfl
  | bbClkLo => exact .inr ⟨.clk, false, by simp [PinStep, hst]⟩
  | bbDat =>
    cases hbit : txBit s with
    | none => simp [txEdge, hst, edgeDat, Option.map_eq_none_iff.1 hbit] at h
    | some v => exact .inr ⟨.dat, v, by simp [PinStep, hst, hbit]⟩
  | bbWait1 =>
    cases (txEdge_wait1 hst).symm.trans h
    exact .inl (waitCycle_pin (goTo_pin _) _)
  | bbClkHi => exact .inr ⟨.clk, true, by simp [PinStep, hst]⟩
  | bbWait2 =>
    cases (txEdge_wait2 hst).symm.trans h
    exact .inl (waitCycle_pin advance_pin _)
  | bbEndClk => exact .inr ⟨.clk, true, by simp [PinStep, hst]⟩
  | bbEndDat => exact .inr ⟨.dat, true, by simp [PinStep, hst]⟩
  | perXfer =>
    cases hv : txByte s with
    | none => simp [txEdge, hst, edgePerXfer, hv] at h
    | some v =>
      cases (txEdge_perXfer hst hv).symm.trans h
      left
      split_ifs <;> rfl

/-- Settles O43: a command leaves the pins, and the transmitter moves one only in a pin-write state. -/
theorem pinsMoveOnlyInPinWriteSteps : Obligations.PinsMoveOnlyInPinWriteSteps := by
  intro s t h hmove
  rcases step_cases h with ⟨hr, -⟩ | ⟨-, -, -, rfl⟩ | ⟨-, -, i, -, he⟩ | ⟨-, -, ht⟩
  · exact .inl hr
  · exact absurd rfl hmove
  · obtain ⟨hpin, -⟩ := exec_keeps he
    exact absurd hpin hmove
  · exact .inr ((txEdge_pin ht).resolve_left hmove)

/-- Settles O42: the data line is written in BB_DAT, where the clock is low, and in BB_END_DAT, where it already has the
level it is to take. -/
theorem dataChangesOnlyWhileClockLow : Obligations.DataChangesOnlyWhileClockLow := by
  intro s t hinv h hr hok hmove
  have hpin : t.pin ≠ s.pin := fun he => hmove (congrArg Pins.dat he)
  obtain ⟨p, v, hstep⟩ := (pinsMoveOnlyInPinWriteSteps s t h hpin).resolve_left (by simp [hr])
  have hwrite := txEdge_pin_of_pinStep hstep ((step_busy hr (pinStep_busy hstep)).symm.trans h)
  rw [hok] at hwrite
  have hwire := hinv.wire
  cases hst : s.tx.state <;> simp only [PinStep, hst, WireLevels] at hstep hwire <;> obtain ⟨rfl, hv⟩ := hstep
  case bbDat => exact ⟨hwire, hwrite ▸ hwire⟩
  case bbEndDat => exact absurd (by rw [hwrite, hv, hwire.2]; rfl) hmove
  all_goals exact absurd (by rw [hwrite]; rfl) hmove

/-! ### The send status (10_state.md R32) -/

/-- Settles O44: a command leaves the status, and the transmitter writes it only by `finish`. -/
theorem statusMovesOnlyAtCompletion : Obligations.StatusMovesOnlyAtCompletion := by
  intro s t h hmove
  rcases step_cases h with ⟨hr, -⟩ | ⟨-, -, -, rfl⟩ | ⟨-, -, i, -, he⟩ | ⟨-, -, ht⟩
  · exact .inl hr
  · exact absurd rfl hmove
  · obtain ⟨-, hstat, -⟩ := exec_keeps he
    exact absurd hstat hmove
  · by_cases hidle : s.tx.state = .idle
    · cases (txEdge_idle hidle).symm.trans ht
      exact absurd rfl hmove
    · cases txEdge_shape hidle ht with
      | busy _ _ hstat => exact absurd hstat hmove
      | fin r v u hu => subst hu; exact .inr ⟨hidle, rfl, rfl⟩

/-! ### A send in progress (42_transmit.md R162) -/

theorem channelsRan_of_deb {s t : State} (h : t.deb = channelsEdge s.cfg s.input s.deb) : ChannelsRan s t := by
  have hran := channelsRan_background s
  simp only [ChannelsRan, ChannelRan, background_deb, ← h] at hran
  exact hran

/-- Settles O40: a busy transmitter accepts nothing, and its edge keeps what `SendKeeps` lists. -/
theorem sendLeavesTheRestAlone : Obligations.SendLeavesTheRestAlone := by
  intro s t h hr hbusy
  have hkeep := txEdge_keeps ((step_busy hr hbusy).symm.trans h)
  exact ⟨accepts_eq_false_of_busy hbusy, Bool.eq_false_iff.2 fun hready => hbusy (cmdReady_iff.1 hready).2.2,
    hkeep.sameBytes, hkeep.frame, hkeep.cfg, hkeep.ftl, channelsRan_of_deb hkeep.deb⟩

/-! ### Responses (30_encoding.md R82, 10_state.md R37) -/

/-- The instruction is a SEND, which responds only at its completion. -/
def IsSend (i : Instr) : Prop := (∃ dly, i = .sendBb dly) ∨ ∃ ign, i = .sendPer ign

/-- A command that is no SEND responds at its acceptance edge. -/
theorem exec_responds {i : Instr} {s t : State} (h : exec i s = .next t) (hi : ¬ IsSend i) :
    t.rsp.valid = true ∧ t.tx = s.tx := by
  rcases exec_cases h with ⟨c, rfl⟩ | ⟨d, rfl⟩ | ⟨k, ch, -, -, -, rfl⟩ | ⟨n, r, g, b, br, -, -, -, rfl⟩ |
    ⟨dly, rfl, rfl⟩ | ⟨ign, rfl, rfl⟩
  case inr.inr.inr.inr.inl => exact absurd (.inl ⟨_, rfl⟩) hi
  case inr.inr.inr.inr.inr => exact absurd (.inr ⟨_, rfl⟩) hi
  all_goals exact ⟨rfl, rfl⟩

/-- A SEND makes the transmitter busy, and its acceptance edge leaves the response's code and data. -/
theorem exec_send {i : Instr} {s t : State} (h : exec i s = .next t) (hi : IsSend i) :
    t.rsp = { s.rsp with valid := false } ∧ t.tx.state ≠ .idle := by
  rcases hi with ⟨dly, rfl⟩ | ⟨ign, rfl⟩ <;> cases h <;> exact ⟨rfl, by simp⟩

/-- A step of a busy transmitter responds exactly when it goes idle, and holds code and data when it does not. -/
theorem txEdge_responds {s t : State} (hbusy : s.tx.state ≠ .idle) (h : txEdge s = .next t) :
    (t.rsp.valid = true ∧ t.tx.state = .idle) ∨ (t.rsp = { s.rsp with valid := false } ∧ t.tx.state ≠ .idle) := by
  cases txEdge_shape hbusy h with
  | busy hstill hrsp => exact .inr ⟨hrsp, hstill⟩
  | fin r v u hu => subst hu; exact .inl ⟨rfl, rfl⟩

/-- Settles O48: one kind of edge at a time. -/
theorem oneResponsePerCommand : Obligations.OneResponsePerCommand := by
  intro s t hinv h hr
  rcases step_cases h with ⟨hr', -⟩ | ⟨-, ha, ⟨e, hd⟩, rfl⟩ | ⟨-, ha, i, hd, he⟩ | ⟨-, ha, ht⟩
  case inl => simp [hr] at hr'
  case inr.inl =>
    obtain ⟨-, -, -, hidle⟩ := accepts_iff.1 ha
    simp [ha, hd, hidle]
  case inr.inr.inl =>
    obtain ⟨-, -, -, hidle⟩ := accepts_iff.1 ha
    by_cases hsend : IsSend i
    · obtain ⟨hrsp, hbusy⟩ := exec_send he hsend
      rcases hsend with ⟨dly, rfl⟩ | ⟨ign, rfl⟩ <;> simp [ha, hd, hidle, hrsp, hbusy]
    · obtain ⟨hvalid, htx⟩ := exec_responds he hsend
      simp only [IsSend, not_or, not_exists] at hsend
      simp [ha, hd, hidle, hvalid, htx, hsend]
  case inr.inr.inr =>
    by_cases hidle : s.tx.state = .idle
    · cases (txEdge_idle hidle).symm.trans ht
      simp [ha, hidle]
    · rcases txEdge_responds hidle ht with ⟨hvalid, hdone⟩ | ⟨hrsp, hbusy⟩
      · simp [ha, hidle, hvalid, hdone]
      · simp [ha, hidle, hrsp, hbusy]

end Sys2Proof.Machine
end

section
/-! PROOFS. The acceptance edges of the two SENDs (42_transmit.md R145, R152) and the table of the bit-banged machine
(R146): every state's edge is the equation of that state, with the pin write succeeding or failing. -/

namespace Sys2Proof.Machine

open Sys2Proof.Claims

/-! ### The command words (30_encoding.md R77, R78) -/

theorem wordMeans_sendBb :
    WordMeans 5 (fun c => c.sel = 0 ∧ c.idx = 0 ∧ c.rsv = 0 ∧ c.data.extractLsb' 16 16 = 0)
      (fun c => .sendBb (c.data.extractLsb' 0 16).toNat) := by
  rintro c hop ⟨hsel, hidx, hrsv, hhigh⟩
  have hop' : c.op = 5 := BitVec.eq_of_toNat_eq hop
  exact decode_eq_ok.2 (.inr (.inr (.inr (.inr (.inr (.inl ⟨hop', hsel, hidx, hrsv, hhigh, rfl⟩))))))

theorem wordMeans_sendPer :
    WordMeans 6 (fun c => c.sel = 0 ∧ c.idx = 0 ∧ c.rsv = 0 ∧ c.data.extractLsb' 16 16 = 0)
      (fun c => .sendPer (c.data.extractLsb' 0 16).toNat) := by
  rintro c hop ⟨hsel, hidx, hrsv, hhigh⟩
  have hop' : c.op = 6 := BitVec.eq_of_toNat_eq hop
  exact decode_eq_ok.2 (.inr (.inr (.inr (.inr (.inr (.inr (.inl ⟨hop', hsel, hidx, hrsv, hhigh, rfl⟩)))))))

/-- With the opcode of a SEND, the low half of DATA is the only operand. -/
theorem illegalWord_of_send_iff {c : CmdWord} (hop : c.op.toNat = 5 ∨ c.op.toNat = 6) :
    IllegalWord c ↔ c.sel ≠ 0 ∨ c.idx ≠ 0 ∨ c.rsv ≠ 0 ∨ c.data.extractLsb' 16 16 ≠ 0 := by
  rcases hop with hop | hop <;> simp [IllegalWord, hop, or_left_comm]

/-! ### The acceptance edges (42_transmit.md R145, R152) -/

/-- Settles O27: the edge is the background with the delay latched and the cursor at the first bit. -/
theorem sendBbStartsAtTheFirstBit : Obligations.SendBbStartsAtTheFirstBit :=
  ⟨wordMeans_sendBb,
    fun _ _ => ⟨_, rfl, rfl, rfl, rfl, fun _ => rfl, rfl, rfl, rfl, channelsRan_of_deb rfl⟩,
    fun _ ha hop hbad => step_of_illegalWord ha ((illegalWord_of_send_iff (.inl hop)).2 hbad)⟩

/-- Settles O28: the edge is the background with the cursor at the first byte and the count at 0. -/
theorem sendPerStartsAtTheFirstByte : Obligations.SendPerStartsAtTheFirstByte :=
  ⟨wordMeans_sendPer,
    fun _ _ => ⟨_, rfl, rfl, rfl, rfl, fun _ => rfl, rfl, rfl, rfl, channelsRan_of_deb rfl⟩,
    fun _ ha hop hbad => step_of_illegalWord ha ((illegalWord_of_send_iff (.inr hop)).2 hbad)⟩

/-! ### The wait steps (42_transmit.md R146) -/

/-- The machine is in one of its two wait states. -/
def Waiting (s : State) : Prop := s.tx.state = .bbWait1 ∨ s.tx.state = .bbWait2

theorem Waiting.busy {s : State} (h : Waiting s) : s.tx.state ≠ .idle := by
  rcases h with h | h <;> simp [h]

/-- A wait cycle that is not the last one. -/
theorem step_wait_more {s : State} (hr : s.input.rst = false) (h : Waiting s) (hw : s.tx.w ≠ 1) :
    step s = .next { background s with tx := { s.tx with w := s.tx.w - 1 } } := by
  rw [step_busy hr h.busy]
  rcases h with h | h
  · rw [txEdge_wait1 h, waitCycle_more (t := background s) hw]; rfl
  · rw [txEdge_wait2 h, waitCycle_more (t := background s) hw]; rfl

/-- The last wait cycle before the clock rises. -/
theorem step_wait1_last {s : State} (hr : s.input.rst = false) (h : s.tx.state = .bbWait1) (hw : s.tx.w = 1) :
    step s = .next (goTo .bbClkHi { background s with tx := { s.tx with w := 0 } }) := by
  rw [step_busy hr (Waiting.busy (.inl h)), txEdge_wait1 h, waitCycle_last (t := background s) hw]
  rfl

/-- The last wait cycle of a bit. -/
theorem step_wait2_last {s : State} (hr : s.input.rst = false) (h : s.tx.state = .bbWait2) (hw : s.tx.w = 1) :
    step s = .next (advance { background s with tx := { s.tx with w := 0 } }) := by
  rw [step_busy hr (Waiting.busy (.inr h)), txEdge_wait2 h, waitCycle_last (t := background s) hw]
  rfl

theorem advance_w (t : State) : (advance t).tx.w = t.tx.w := by
  unfold advance
  split
  · rfl
  split <;> rfl

/-- `advance` goes on to a bit's first step or to the end steps (42_transmit.md R144). -/
theorem advance_not_waiting (t : State) : ¬ Waiting (advance t) := by
  unfold Waiting advance
  split
  · simp
  split <;> simp

/-! ### The table (42_transmit.md R146) -/

/-- Settles O31: row by row, the edge of the state with its pin write; a failed one is `finish`. -/
theorem bitBangedMachineFollowsItsTable : Obligations.BitBangedMachineFollowsItsTable := by
  refine ⟨?clkLo, ?dat, ?clkHi, ?waitMore, ?wait1Last, ?wait2Last, ?endClk, ?endDat, ?failed⟩
  case clkLo =>
    intro s hr hst hok
    refine ⟨_, (step_busy hr (by simp [hst])).trans (txEdge_clkLo hst), ?_⟩
    rw [pinWrite_ok hok]
    exact ⟨rfl, rfl⟩
  case dat =>
    intro s v hr hst hok hv
    refine ⟨_, (step_busy hr (by simp [hst])).trans (txEdge_dat hst hv), ?_⟩
    rw [pinWrite_ok hok]
    rcases Nat.eq_zero_or_pos s.tx.d with hd | hd
    · rw [waitOr_none (t := setPin .dat _ (background s)) hd]
      exact ⟨rfl, fun h => absurd hd h.ne', fun _ => rfl⟩
    · rw [waitOr_some (t := setPin .dat _ (background s)) hd]
      exact ⟨rfl, fun _ => rfl, fun h => absurd h hd.ne'⟩
  case clkHi =>
    intro s hr hst hok
    refine ⟨_, (step_busy hr (by simp [hst])).trans (txEdge_clkHi hst), ?_⟩
    rw [pinWrite_ok hok]
    rcases Nat.eq_zero_or_pos s.tx.d with hd | hd
    · rw [waitOr_none (t := setPin .clk _ (background s)) hd]
      exact ⟨advance_pin _, fun h => absurd hd h.ne'⟩
    · rw [waitOr_some (t := setPin .clk _ (background s)) hd]
      exact ⟨rfl, fun _ => rfl⟩
  case waitMore => exact fun s hr hst hw => ⟨_, step_wait_more hr hst hw.ne', rfl, rfl⟩
  case wait1Last => exact fun s hr hst hw => ⟨_, step_wait1_last hr hst hw, rfl, rfl⟩
  case wait2Last => exact fun s hr hst hw => ⟨_, step_wait2_last hr hst hw, advance_pin _, advance_w _⟩
  case endClk =>
    intro s hr hst hok
    refine ⟨_, (step_busy hr (by simp [hst])).trans (txEdge_endClk hst), ?_⟩
    rw [pinWrite_ok hok]
    exact ⟨rfl, rfl⟩
  case endDat =>
    intro s hr hst hok
    refine ⟨_, (step_busy hr (by simp [hst])).trans (txEdge_endDat hst), ?_⟩
    rw [pinWrite_ok hok]
    exact ⟨rfl, finished_finish _ _ _⟩
  case failed =>
    intro s p v hr hpin hfault
    obtain ⟨f, he, -⟩ := pinStep_edge hpin
    refine ⟨_, (step_busy hr (pinStep_busy hpin)).trans he, ?_⟩
    rw [pinWrite_fail hfault]
    exact ⟨setPin_pin _ _ _, finished_finish _ _ _⟩

/-! ### The length of a wait (42_transmit.md R146) -/

/-- The first cycle of a run without a reset, and the rest of it. -/
theorem noReset_succ {m : Nat} {s t : State} (h : NoReset (m + 1) s) (hs : step s = .next t) :
    s.input.rst = false ∧ NoReset m t := by
  rw [NoReset, cycles_succ hs] at h
  exact ⟨h s (by simp), fun v hv => h v (by simp [hv])⟩

theorem noReset_head {m : Nat} {s : State} (h : NoReset (m + 1) s) : s.input.rst = false :=
  h s (by simp [cycles])

/-- What is left of a run without a reset after its first `m` edges. -/
theorem noReset_drop {m n : Nat} {s t : State} (h : NoReset (m + n) s) (hrun : Sys2Proof.core.run m s = .next t) :
    NoReset n t := by
  rw [NoReset, cycles_add hrun] at h
  exact fun v hv => h v (by simp [hv])

/-- Before its last cycle a wait counts down and moves no pin. -/
theorem run_wait {m : Nat} {s : State} (h : Waiting s) (hm : m < s.tx.w) (hr : NoReset m s) :
    ∃ t : State, Sys2Proof.core.run m s = .next t ∧ t.tx = { s.tx with w := s.tx.w - m } ∧ t.pin = s.pin := by
  induction m generalizing s with
  | zero => exact ⟨s, rfl, rfl, rfl⟩
  | succ m ih =>
    have hstep := step_wait_more (noReset_head hr) h (by omega)
    obtain ⟨-, hrest⟩ := noReset_succ hr hstep
    obtain ⟨t, hrun, htx, hpin⟩ := ih (s := { background s with tx := { s.tx with w := s.tx.w - 1 } }) h
      (Nat.lt_sub_of_add_lt hm) hrest
    refine ⟨t, (run_succ hstep m).trans hrun, ?_, hpin⟩
    rw [htx]
    simp only [Nat.sub_sub, Nat.add_comm 1 m]

/-- The last cycle of a wait leaves it and moves no pin. -/
theorem step_wait_leaves {s : State} (hr : s.input.rst = false) (h : Waiting s) (hw : s.tx.w = 1) :
    ∃ t, step s = .next t ∧ t.tx.state ≠ s.tx.state ∧ t.pin = s.pin := by
  rcases h with h | h
  · exact ⟨_, step_wait1_last hr h hw, by simp [h], rfl⟩
  · exact ⟨_, step_wait2_last hr h hw, fun he => advance_not_waiting _ (.inr (he.trans h)), advance_pin _⟩

/-- Settles O32: `w - 1` cycles count down, and the next one leaves. -/
theorem waitLastsTheDelay : Obligations.WaitLastsTheDelay := by
  intro m s hwait hw hr hm
  refine ⟨run_wait hwait hm (noReset_le hr hm.le), ?_⟩
  have hsplit : s.tx.w = (s.tx.w - 1) + 1 := by omega
  obtain ⟨u, hrun, htx, hpin⟩ := run_wait (m := s.tx.w - 1) hwait (by omega) (noReset_le hr (by omega))
  have hu : u.tx.state = s.tx.state := by rw [htx]
  have hru : NoReset 1 u := noReset_drop (by rwa [← hsplit]) hrun
  obtain ⟨t, hstep, hleft, hpin'⟩ :=
    step_wait_leaves (noReset_head hru) (show Waiting u by rwa [Waiting, hu]) (by rw [htx]; simp only; omega)
  refine ⟨t, ?_, hu ▸ hleft, hpin'.trans hpin⟩
  rw [hsplit, run_add hrun]
  exact run_one.2 hstep

end Sys2Proof.Machine
end

section
/-! PROOFS. The debounce channels over steps and runs (40_debounce.md R103 to R105, R111), and how far the raw lines
reach (10_state.md R24). An edge that accepts no change on a channel only runs its background; an accepted change
restarts the counter. -/

namespace Sys2Proof.Machine

open Sys2Proof.Claims

/-! ### One step of one channel -/

/-- Settles O13: without its own POLL a channel only runs. -/
theorem channelMovesOnlyByItsOwnPoll : Obligations.ChannelMovesOnlyByItsOwnPoll := by
  intro s t k hr h hno ch cc hch hcc
  rcases chan_step h hr hch with hran | ⟨ha, hd, -⟩
  · rw [hran, settleOf_eq hcc]
    rfl
  · exact absurd ⟨ha, hd⟩ hno

/-- A channel on which the edge accepts no change only runs its background, polled or not (R104). -/
theorem step_channel_unchanged {s t : State} {k : Nat} {ch : Channel} {cc : ChannelConfig} (h : step s = .next t)
    (hr : s.input.rst = false) (hch : s.deb[k]? = some ch) (hcc : s.cfg.channels[k]? = some cc)
    (hno : ¬ AcceptsChange s k) :
    t.deb[k]? = some (channelEdge cc.settle (s.input.rawIn.getLsbD k) s.input.tick ch) := by
  rcases chan_step h hr hch with hran | ⟨ha, hd, -, hpolled⟩
  · rw [hran, settleOf_eq hcc]
  · have hkeep : pollChanged cc.settle ch = false := Bool.eq_false_iff.2 fun hchange =>
      hno ⟨ha, hd, ch, cc, hch, hcc, pollChanged_iff.1 hchange⟩
    rw [hpolled, settleOf_eq hcc, channelPolled_unchanged hkeep]

/-- In lockout no change is accepted (R105). -/
theorem not_acceptsChange_of_lockout {s : State} {k : Nat} {ch : Channel} {cc : ChannelConfig}
    (hch : s.deb[k]? = some ch) (hcc : s.cfg.channels[k]? = some cc) (h : ch.elapsed ≤ cc.settle) :
    ¬ AcceptsChange s k := by
  rintro ⟨-, -, ch', cc', hch', hcc', hpast, -⟩
  cases hch.symm.trans hch'
  cases hcc.symm.trans hcc'
  exact Nat.not_lt.2 h hpast

/-- An accepted change restarts the counter at this cycle's tick (R103, R104). -/
theorem step_channel_changed {s t : State} {k : Nat} (h : step s = .next t) (hchange : AcceptsChange s k) :
    ∃ ch, t.deb[k]? = some ch ∧ ch.elapsed = s.input.tick.toNat := by
  obtain ⟨ha, hd, ch, cc, hch, hcc, helapsed, hlevel⟩ := hchange
  have hk : k < s.cfg.numInputs := (List.getElem?_eq_some_iff.1 hcc).1
  cases ((step_of_command ha hd).trans (execPoll_in hk hch)).symm.trans h
  refine ⟨_, List.getElem?_set_self (by simpa using (List.getElem?_eq_some_iff.1 hch).1), ?_⟩
  rw [settleOf_eq hcc, channelPolled_changed (pollChanged_iff.2 ⟨helapsed, hlevel⟩)]

/-- No edge outside reset adds more than its tick to a counter. -/
theorem step_elapsed_le {s t : State} {k : Nat} {ch : Channel} (h : step s = .next t) (hr : s.input.rst = false)
    (hch : s.deb[k]? = some ch) :
    ∃ ch', t.deb[k]? = some ch' ∧ ch'.elapsed ≤ ch.elapsed + s.input.tick.toNat := by
  rcases chan_step h hr hch with hran | ⟨-, -, -, hpolled⟩
  · exact ⟨_, hran, Nat.min_le_left _ _⟩
  · refine ⟨_, hpolled, ?_⟩
    unfold channelPolled
    split_ifs
    · exact Nat.le_add_left _ _
    · exact Nat.min_le_left _ _

/-! ### Over a run -/

/-- Settles O14: every edge of the run adds its tick, up to SETTLE[k] + 1. -/
theorem elapsedCountsTicks : Obligations.ElapsedCountsTicks := by
  intro m
  induction m with
  | zero =>
    intro s t k ch cc hrun _ _ hch _ hle
    cases hrun
    exact ⟨ch, hch, rfl, by simp [ticks, hle]⟩
  | succ m ih =>
    intro s t k ch cc hrun hr hno hch hcc hle
    obtain ⟨u, hstep, hrun⟩ := run_succ_inv hrun
    obtain ⟨hrs, hru⟩ := noReset_succ hr hstep
    rw [cycles_succ hstep] at hno
    have hu := step_channel_unchanged hstep hrs hch hcc (hno s (by simp))
    obtain ⟨ch', hch', hstable, helapsed⟩ := ih u t k _ cc hrun hru (fun v hv => hno v (by simp [hv])) hu
      ((step_cfg hstep).symm ▸ hcc) (elapsedNext_le _ _ _)
    refine ⟨ch', hch', hstable, ?_⟩
    rw [helapsed, ticks_succ hstep, channelEdge_elapsed, elapsedNext]
    omega

/-- Settles O15: within the window every edge finds the channel in lockout, so none accepts a change. -/
theorem settleWindowHoldsStableLevel : Obligations.SettleWindowHoldsStableLevel := by
  intro m s t k ch cc hrun hr hch hcc hwindow
  induction m generalizing s ch with
  | zero =>
    have hno : ¬ AcceptsChange s k := not_acceptsChange_of_lockout hch hcc (by omega)
    exact ⟨_, step_channel_unchanged (run_one.1 hrun) (noReset_head hr) hch hcc hno, rfl⟩
  | succ m ih =>
    have hno : ¬ AcceptsChange s k := not_acceptsChange_of_lockout hch hcc (by omega)
    obtain ⟨u, hstep, hrun⟩ := run_succ_inv hrun
    obtain ⟨hrs, hru⟩ := noReset_succ hr hstep
    rw [ticks_succ hstep] at hwindow
    have helapsed : elapsedNext cc.settle s.input.tick ch.elapsed ≤ ch.elapsed + s.input.tick.toNat :=
      Nat.min_le_left _ _
    have hu := step_channel_unchanged hstep hrs hch hcc hno
    obtain ⟨ch', hch', hstable⟩ := ih u _ hrun hru hu ((step_cfg hstep).symm ▸ hcc)
      (by rw [channelEdge_elapsed]; omega)
    exact ⟨ch', hch', hstable⟩

/-- Over a run without a reset a counter grows by no more than the ticks. -/
theorem run_elapsed_le {m : Nat} {s t : State} {k : Nat} {ch : Channel} (hrun : Sys2Proof.core.run m s = .next t)
    (hr : NoReset m s) (hch : s.deb[k]? = some ch) :
    ∃ ch', t.deb[k]? = some ch' ∧ ch'.elapsed ≤ ch.elapsed + ticks m s := by
  induction m generalizing s ch with
  | zero =>
    cases hrun
    exact ⟨ch, hch, Nat.le_add_right _ _⟩
  | succ m ih =>
    obtain ⟨u, hstep, hrun⟩ := run_succ_inv hrun
    obtain ⟨hrs, hru⟩ := noReset_succ hr hstep
    obtain ⟨ch', hch', hle⟩ := step_elapsed_le hstep hrs hch
    obtain ⟨ch'', hch'', hle'⟩ := ih hrun hru hch'
    exact ⟨ch'', hch'', by rw [ticks_succ hstep]; omega⟩

/-- Settles O16: the first change restarts the counter, which must pass SETTLE[k] by ticks alone before the second. -/
theorem acceptedChangesAreSettleApart : Obligations.AcceptedChangesAreSettleApart := by
  intro m s t k cc hfirst hr hrun hsecond hcc
  obtain ⟨-, -, ch, cc', hch, hcc', hpast, -⟩ := hsecond
  rw [run_cfg hrun, hcc] at hcc'
  cases hcc'
  obtain ⟨u, hstep, hrun⟩ := run_succ_inv hrun
  obtain ⟨-, hru⟩ := noReset_succ hr hstep
  obtain ⟨cu, hcu, hrestart⟩ := step_channel_changed hstep hfirst
  obtain ⟨ch', hch', hle⟩ := run_elapsed_le hrun hru hcu
  cases hch.symm.trans hch'
  rw [ticks_succ hstep]
  omega

/-! ### The debounce queries (30_encoding.md R86) -/

/-- The four result bits of a POLL (40_debounce.md R104). -/
theorem pollWord_bits (changed level : Bool) :
    (pollWord changed level).getLsbD 0 = level ∧ (pollWord changed level).getLsbD 2 = (changed && level) ∧
      (pollWord changed level).getLsbD 3 = (changed && !level) := by
  cases changed <;> cases level <;> decide

/-- After an accepted change the level is the synchronized one (R104). -/
theorem pollLevel_of_changed {n : Nat} {ch : Channel} (h : pollChanged n ch = true) : pollLevel n ch = ch.sync2 := by
  simp [pollLevel, h]

/-- A POLL that accepts a change to high. -/
theorem poll_rises_iff {n : Nat} {ch : Channel} :
    (pollChanged n ch && pollLevel n ch) = true ↔ n < ch.elapsed ∧ ch.stable = false ∧ ch.sync2 = true := by
  rw [Bool.and_eq_true, and_congr_right fun h => by rw [pollLevel_of_changed h], pollChanged_iff]
  cases ch.stable <;> cases ch.sync2 <;> simp

/-- A POLL that accepts a change to low. -/
theorem poll_falls_iff {n : Nat} {ch : Channel} :
    (pollChanged n ch && !pollLevel n ch) = true ↔ n < ch.elapsed ∧ ch.stable = true ∧ ch.sync2 = false := by
  rw [Bool.and_eq_true, and_congr_right fun h => by rw [pollLevel_of_changed h], pollChanged_iff]
  cases ch.stable <;> cases ch.sync2 <;> simp

/-- Settles O17: the queries read the bits of the POLL's answer, whose level is the channel's afterwards. -/
theorem debounceQueriesReadThePoll : Obligations.DebounceQueriesReadThePoll := by
  intro s t k ch after cc hch hcc hexec hafter
  have hk : k < s.cfg.numInputs := (List.getElem?_eq_some_iff.1 hcc).1
  cases (execPoll_in hk hch).symm.trans hexec
  rw [respond_deb, List.getElem?_set_self (by simpa using (List.getElem?_eq_some_iff.1 hch).1)] at hafter
  cases hafter
  rw [settleOf_eq hcc]
  obtain ⟨hlevel, hrise, hfall⟩ := pollWord_bits (pollChanged cc.settle ch) (pollLevel cc.settle ch)
  refine ⟨congrArg some (hrise.trans ?rising), congrArg some (hfall.trans ?falling), congrArg some hlevel,
    congrArg (fun b => some !b) hlevel⟩
  case rising => rw [Bool.eq_iff_iff, poll_rises_iff, decide_eq_true_eq]
  case falling => rw [Bool.eq_iff_iff, poll_falls_iff, decide_eq_true_eq]

end Sys2Proof.Machine
end

section
/-! PROOFS. The raw lines reach nothing but the first flip-flops (10_state.md R24). No edge reads them but through
the channels, so with other raw lines the next state is the same one with other channels; and those differ in `sync1`
only. -/

namespace Sys2Proof.Machine

/-- `t` with these channels. -/
def withDeb (deb : List Channel) (t : State) : State := { t with deb := deb }

/-- `s` with this cycle's inputs `inp`, but with these raw lines. -/
def withRaw (s : State) (inp : Input) (rest : List Input) (raw : BitVec 16) : State :=
  { s with inputs := { inp with rawIn := raw } :: rest }

/-- Two lists of channels that differ in nothing but `sync1`. -/
structure SameButSync1 (deb deb' : List Channel) : Prop where
  length  : deb'.length = deb.length
  channel : ∀ (k : Nat) (ch ch' : Channel), deb[k]? = some ch → deb'[k]? = some ch' →
    { ch' with sync1 := ch.sync1 } = ch

theorem SameButSync1.refl (deb : List Channel) : SameButSync1 deb deb :=
  ⟨rfl, fun _ _ _ h h' => by cases h.symm.trans h'; rfl⟩

/-- The raw lines reach the background in `sync1` only (R101). -/
theorem sameButSync1_channelsEdge (c : Config) (inp : Input) (raw : BitVec 16) (deb : List Channel) :
    SameButSync1 (channelsEdge c inp deb) (channelsEdge c { inp with rawIn := raw } deb) := by
  refine ⟨by simp, fun k ch ch' h h' => ?_⟩
  rw [channelsEdge_getElem?, Option.map_eq_some_iff] at h h'
  obtain ⟨old, hold, rfl⟩ := h
  obtain ⟨old', hold', rfl⟩ := h'
  cases hold.symm.trans hold'
  rfl

/-- The raw line reaches the update pass of a POLL in `sync1` only (R101, R104). -/
theorem SameButSync1.set_polled {deb deb' : List Channel} (h : SameButSync1 deb deb') (k settle : Nat)
    (raw raw' tick : Bool) (ch : Channel) :
    SameButSync1 (deb.set k (channelPolled settle raw tick ch)) (deb'.set k (channelPolled settle raw' tick ch)) := by
  refine ⟨by simp [h.length], fun q x x' hx hx' => ?_⟩
  by_cases hq : k = q
  · subst hq
    rw [List.getElem?_set_self (by simpa using (List.getElem?_eq_some_iff.1 hx).1)] at hx
    rw [List.getElem?_set_self (by simpa using (List.getElem?_eq_some_iff.1 hx').1)] at hx'
    cases hx
    cases hx'
    rfl
  · rw [List.getElem?_set_ne hq] at hx hx'
    exact h.channel q x x' hx hx'

/-! ### The transmitter does not read the channels -/

section
variable (deb : List Channel) (t : State)

theorem setPin_withDeb (p : Pin) (v : Bool) : setPin p v (withDeb deb t) = withDeb deb (setPin p v t) := by
  cases p <;> rfl

theorem goTo_withDeb (n : TxState) : goTo n (withDeb deb t) = withDeb deb (goTo n t) := rfl

theorem finish_withDeb (r : SendResult) (v : Variant) : finish r v (withDeb deb t) = withDeb deb (finish r v t) := rfl

theorem advance_withDeb : advance (withDeb deb t) = withDeb deb (advance t) := by
  unfold advance
  rw [apply_ite (withDeb deb), apply_ite (withDeb deb)]
  rfl

variable {f : State → State} (hf : ∀ u, f (withDeb deb u) = withDeb deb (f u))
include hf

theorem waitOr_withDeb (w : TxState) : waitOr w f (withDeb deb t) = withDeb deb (waitOr w f t) := by
  unfold waitOr
  rw [apply_ite (withDeb deb), hf]
  rfl

theorem waitCycle_withDeb : waitCycle f (withDeb deb t) = withDeb deb (waitCycle f t) := by
  unfold waitCycle
  rw [apply_ite (withDeb deb), ← hf]
  rfl

theorem pinWrite_withDeb (inp : Input) (p : Pin) (v : Bool) :
    pinWrite inp p v f (withDeb deb t) = withDeb deb (pinWrite inp p v f t) := by
  unfold pinWrite
  rw [apply_ite (withDeb deb), ← hf, setPin_withDeb, setPin_withDeb]
  rfl

end

/-! ### The edges with other raw lines -/

section
variable {s : State} {inp : Input} {rest : List Input} (h : s.inputs = inp :: rest) (raw : BitVec 16)
include h

/-- The channels after the background with other raw lines. -/
theorem background_withRaw :
    background (withRaw s inp rest raw) =
      withDeb (channelsEdge s.cfg { s.input with rawIn := raw } s.deb) (background s) := by
  rw [input_eq_of_inputs h]
  cases s; subst h; rfl

/-- A pin write reads the platform's report only. -/
theorem pinWrite_withRaw : pinWrite (withRaw s inp rest raw).input = pinWrite s.input := by
  rw [input_eq_of_inputs h]
  rfl

/-- The transmitter's edge with other raw lines: the same next state, with the channels that those lines give. -/
theorem txEdge_withRaw {t : State} (he : txEdge s = .next t) :
    txEdge (withRaw s inp rest raw) = .next (withDeb (channelsEdge s.cfg { s.input with rawIn := raw } s.deb) t) := by
  have hb := background_withRaw h raw
  have hp := pinWrite_withRaw h raw
  generalize channelsEdge s.cfg { s.input with rawIn := raw } s.deb = deb at hb ⊢
  cases hst : s.tx.state with
  | idle =>
    cases (txEdge_idle hst).symm.trans he
    rw [txEdge_idle (by exact hst), hb]
  | bbClkLo =>
    cases (txEdge_clkLo hst).symm.trans he
    rw [txEdge_clkLo (by exact hst), hb, hp, pinWrite_withDeb deb _ (goTo_withDeb deb · _)]
  | bbDat =>
    cases hv : txByte s with
    | none => simp [txEdge, hst, edgeDat, hv] at he
    | some v =>
      cases (txEdge_dat hst hv).symm.trans he
      rw [txEdge_dat (by exact hst) (by exact hv), hb, hp,
        pinWrite_withDeb deb _ (waitOr_withDeb deb · (goTo_withDeb deb · _) _)]
      rfl
  | bbWait1 =>
    cases (txEdge_wait1 hst).symm.trans he
    rw [txEdge_wait1 (by exact hst), hb, waitCycle_withDeb deb _ (goTo_withDeb deb · _)]
  | bbClkHi =>
    cases (txEdge_clkHi hst).symm.trans he
    rw [txEdge_clkHi (by exact hst), hb, hp, pinWrite_withDeb deb _ (waitOr_withDeb deb · (advance_withDeb deb) _)]
  | bbWait2 =>
    cases (txEdge_wait2 hst).symm.trans he
    rw [txEdge_wait2 (by exact hst), hb, waitCycle_withDeb deb _ (advance_withDeb deb)]
  | bbEndClk =>
    cases (txEdge_endClk hst).symm.trans he
    rw [txEdge_endClk (by exact hst), hb, hp, pinWrite_withDeb deb _ (goTo_withDeb deb · _)]
  | bbEndDat =>
    cases (txEdge_endDat hst).symm.trans he
    rw [txEdge_endDat (by exact hst), hb, hp, pinWrite_withDeb deb _ (finish_withDeb deb · _ _)]
  | perXfer =>
    cases hv : txByte s with
    | none => simp [txEdge, hst, edgePerXfer, hv] at he
    | some v =>
      cases (txEdge_perXfer hst hv).symm.trans he
      rw [txEdge_perXfer (by exact hst) (by exact hv), hb, apply_ite (withDeb deb), apply_ite (withDeb deb),
        apply_ite (withDeb deb), input_eq_of_inputs h]
      rfl

theorem respond_withRaw (code : RspCode) (data : Word) :
    (background (withRaw s inp rest raw)).respond code data =
      withDeb (channelsEdge s.cfg { s.input with rawIn := raw } s.deb) ((background s).respond code data) := by
  rw [background_withRaw h]
  rfl

theorem raiseFatal_withRaw (cause : FatalCause) :
    raiseFatal cause (withRaw s inp rest raw) =
      withDeb (channelsEdge s.cfg { s.input with rawIn := raw } s.deb) (raiseFatal cause s) := by
  unfold raiseFatal
  rw [background_withRaw h]
  rfl

/-- A command's edge with other raw lines: the same next state, with channels that differ in `sync1`. -/
theorem exec_withRaw {i : Instr} {t : State} (he : exec i s = .next t) :
    ∃ deb, exec i (withRaw s inp rest raw) = .next (withDeb deb t) ∧ SameButSync1 t.deb deb := by
  have hrun := sameButSync1_channelsEdge s.cfg s.input raw s.deb
  have hb := background_withRaw h raw
  by_cases hbright : BrightnessOver i
  · cases (exec_of_brightnessOver s hbright).symm.trans he
    exact ⟨_, (exec_of_brightnessOver _ hbright).trans (congrArg _ (raiseFatal_withRaw h raw _)), hrun⟩
  by_cases hindex : IndexOver s.cfg i
  · cases (exec_of_indexOver hbright hindex).symm.trans he
    exact ⟨_, (exec_of_indexOver (s := withRaw s inp rest raw) hbright hindex).trans
      (congrArg _ (raiseFatal_withRaw h raw _)), hrun⟩
  cases i with
  | nop =>
    cases he
    exact ⟨_, congrArg _ (respond_withRaw h raw _ _), hrun⟩
  | rdStatus =>
    cases he
    exact ⟨_, congrArg _ (respond_withRaw h raw _ _), hrun⟩
  | sendBb dly =>
    cases he
    refine ⟨_, ?_, hrun⟩
    change Host.Outcome.next ({ background (withRaw s inp rest raw) with tx := _ } : State) = _
    rw [hb]
    rfl
  | sendPer ign =>
    cases he
    refine ⟨_, ?_, hrun⟩
    change Host.Outcome.next ({ background (withRaw s inp rest raw) with tx := _ } : State) = _
    rw [hb]
    rfl
  | poll k =>
    have hk : k < s.cfg.numInputs := Nat.lt_of_not_le hindex
    cases hch : s.deb[k]? with
    | none => simp [exec, execPoll, channelInRange, hk, hch] at he
    | some ch =>
      cases (execPoll_in hk hch).symm.trans he
      refine ⟨_, (execPoll_in (s := withRaw s inp rest raw) hk hch).trans ?_,
        hrun.set_polled k _ _ (raw.getLsbD k) _ ch⟩
      rw [hb, input_eq_of_inputs h]
      rfl
  | pixWrite n r g b br =>
    have hn : n < s.cfg.n := Nat.lt_of_not_le hindex
    have hbr : br < 32 := Nat.lt_of_not_le hbright
    cases (execPixWrite_in hbr hn).symm.trans he
    refine ⟨_, (execPixWrite_in (s := withRaw s inp rest raw) hbr hn).trans ?_, hrun⟩
    rw [hb]
    rfl
  | rdWord w =>
    have hw : w < s.cfg.n + 2 := Nat.lt_of_not_le hindex
    obtain ⟨v, hv⟩ := frameWord_isSome (c := s.cfg) s.frame hw
    cases (execRdWord_in hw hv).symm.trans he
    exact ⟨_, (execRdWord_in (s := withRaw s inp rest raw) hw hv).trans (congrArg _ (respond_withRaw h raw _ _)),
      hrun⟩
  | rdByte a =>
    have ha : a < s.cfg.frameBytes := Nat.lt_of_not_le hindex
    obtain ⟨v, hv⟩ := Option.isSome_iff_exists.1 (frameByte_isSome s.frame ha)
    cases (execRdByte_in ha hv).symm.trans he
    exact ⟨_, (execRdByte_in (s := withRaw s inp rest raw) ha hv).trans (congrArg _ (respond_withRaw h raw _ _)),
      hrun⟩

theorem accepts_withRaw : accepts (withRaw s inp rest raw) = accepts s := by
  cases s; subst h; rfl

/-- A step with other raw lines: the same next state, with channels that differ in `sync1`. -/
theorem step_withRaw {t : State} (hs : step s = .next t) :
    ∃ deb, step (withRaw s inp rest raw) = .next (withDeb deb t) ∧ SameButSync1 t.deb deb := by
  have hrst : (withRaw s inp rest raw).input.rst = s.input.rst := by rw [input_eq_of_inputs h]; rfl
  have hcmd : (withRaw s inp rest raw).input.cmd = s.input.cmd := by rw [input_eq_of_inputs h]; rfl
  have hacc := accepts_withRaw h raw
  have hrun := sameButSync1_channelsEdge s.cfg s.input raw s.deb
  rcases step_cases hs with ⟨hr, rfl⟩ | ⟨-, ha, ⟨e, hd⟩, rfl⟩ | ⟨-, ha, i, hd, he⟩ | ⟨hr, ha, ht⟩
  · refine ⟨_, (step_of_reset (hrst.trans hr)).trans ?_, SameButSync1.refl _⟩
    cases s; subst h; rfl
  · exact ⟨_, (step_of_illegal (hacc.trans ha) (hcmd.symm ▸ hd)).trans (congrArg _ (raiseFatal_withRaw h raw _)), hrun⟩
  · rw [step_of_command (hacc.trans ha) (hcmd.symm ▸ hd)]
    exact exec_withRaw h raw he
  · refine ⟨_, (step_of_noCommand (hrst.trans hr) (hacc.trans ha)).trans (txEdge_withRaw h raw ht), ?_⟩
    rwa [(txEdge_keeps ht).deb]

end

/-- Settles O18: the next state with other raw lines is the same one with channels that differ in `sync1`. -/
theorem rawLinesReachOnlyTheFirstFlop : Obligations.RawLinesReachOnlyTheFirstFlop := by
  intro s t inp rest raw h hs
  obtain ⟨deb, hstep, hsame⟩ := step_withRaw h raw hs
  exact ⟨_, hstep, rfl, hsame.length, hsame.channel⟩

end Sys2Proof.Machine
end

section
/-! PROOFS. The frame between writes and over runs (20_memory.md R60 to R65, 41_frame.md R121, R125 to R127). A step
writes the frame only as `step_frame` says, so an entry keeps its value until its own next write. -/

namespace Sys2Proof.Machine

open Sys2Proof.Claims

/-! ### Who writes the frame -/

/-- Settles O25: without a reset and an accepted PIX_WRITE in range, the stored frame is as it was. -/
theorem onlyPixWriteWritesTheFrame : Obligations.OnlyPixWriteWritesTheFrame := by
  intro s t h hr hno
  have hframe : t.frame = s.frame := by
    rcases step_frame h with hsame | ⟨hrst, -⟩ | ⟨i, r, g, b, br, ha, hd, hbr, hi, -⟩
    · exact hsame
    · simp [hr] at hrst
    · exact absurd ⟨hbr, hi⟩ (hno i r g b br ha hd)
  exact ⟨hframe, fun a => by rw [step_cfg h, hframe]⟩

/-- Settles O20: in range the edge stores one entry over the background, and out of range it is `raiseFatal`. -/
theorem pixWriteTouchesOneEntry : Obligations.PixWriteTouchesOneEntry := by
  intro s t i r g b br h
  by_cases hbr : br < 32
  · by_cases hi : i < s.cfg.n
    · cases (execPixWrite_in hbr hi).symm.trans h
      exact ⟨fun a a' ha hout => frameByte_store_outside _ _ _ (ha ▸ hout), rfl, rfl, rfl, rfl, channelsRan_of_deb rfl,
        fun _ _ => rfl⟩
    · cases (execPixWrite_index hbr (Nat.le_of_not_lt hi)).symm.trans h
      exact ⟨fun _ _ _ _ => rfl, rfl, rfl, rfl, rfl, channelsRan_of_deb rfl, fun _ hin => absurd hin hi⟩
  · cases (execPixWrite_brightness (Nat.le_of_not_lt hbr)).symm.trans h
    exact ⟨fun _ _ _ _ => rfl, rfl, rfl, rfl, rfl, channelsRan_of_deb rfl, fun hin => absurd hin hbr⟩

/-! ### The views agree (41_frame.md R125) -/

/-- A zero-extended byte has the byte's value and bits. -/
theorem zeroExtend_byte (v : Byte) :
    (v.zeroExtend 32).toNat = v.toNat ∧ ∀ b : Fin 8, (v.zeroExtend 32).getLsbD b.val = v.getLsbD b.val := by
  refine ⟨BitVec.toNat_setWidth_of_le (by decide), fun b => ?_⟩
  have hb : b.val < 32 := by omega
  simp [hb]

/-- Settles O23: an entry's value is the assembly of its four bytes, and the transmitter reads the same byte view. -/
theorem wordViewAgreesWithByteView : Obligations.WordViewAgreesWithByteView := by
  refine ⟨fun s w hw => ?words, fun s t hj hexec => ?transmitter⟩
  case words =>
    obtain ⟨v, hv⟩ := frameWord_isSome (c := s.cfg) s.frame hw
    obtain ⟨h0, h1, h2, h3⟩ := frameWord_eq_some.1 hv
    have hin : 4 * w + 3 < s.cfg.frameBytes := by unfold Config.frameBytes; omega
    refine ⟨_, _, _, _, _, execRdWord_in hw hv, execRdByte_in (by omega) h0, execRdByte_in (by omega) h1,
      execRdByte_in (by omega) h2, execRdByte_in hin h3, ?_⟩
    simp only [respond_rsp, (zeroExtend_byte _).1]
    rw [← toNat_ofBytes, Word.ofBytes_byte]
  case transmitter =>
    obtain ⟨v, hv⟩ := txByte_isSome (s := s) hj
    obtain ⟨hnat, hbits⟩ := zeroExtend_byte v
    rw [rdByte_data hj hv hexec]
    refine ⟨fun hst => ?_, fun hst hr hok => ?_⟩
    · rw [hnat]
      simp [outputs, perData, perValid, hst, hv]
    · refine ⟨_, (step_busy hr (by simp [hst])).trans (txEdge_dat hst hv), ?_⟩
      rw [pinWrite_ok hok, hbits]
      unfold waitOr
      split <;> rfl

/-! ### Reading back over a run (20_memory.md R60, R65) -/

/-- An entry keeps its value over a step that neither resets nor writes it. -/
theorem step_keeps_entry {s t : State} {i : Nat} {v : Word} (h : step s = .next t) (hr : s.input.rst = false)
    (hno : ∀ r g b br, ¬ (accepts s = true ∧ decode s.input.cmd = .ok (.pixWrite i r g b br)))
    (hv : frameWord s.cfg s.frame (i + 1) = some v) : frameWord t.cfg t.frame (i + 1) = some v := by
  rw [step_cfg h]
  rcases step_frame h with hsame | ⟨hrst, -⟩ | ⟨q, r, g, b, br, ha, hd, -, -, hstore⟩
  · rwa [hsame]
  · simp [hr] at hrst
  · have hq : i + 1 ≠ q + 1 := by
      rintro heq
      cases Nat.succ.inj heq
      exact hno r g b br ⟨ha, hd⟩
    rwa [hstore, frameWord_store_other _ _ _ hq]

/-- Settles O24: the write puts the pixel into the entry, the run keeps it there, and the read answers it. -/
theorem readReturnsMostRecentWrite : Obligations.ReadReturnsMostRecentWrite := by
  intro s t u m i r g b br hwf hbr hi hwrite hrun hno
  have hstored : frameWord t.cfg t.frame (i + 1) = some (encodePixel r g b br) := by
    cases (execPixWrite_in hbr hi).symm.trans hwrite
    exact frameWord_store_same hwf hi _
  have hkept : frameWord u.cfg u.frame (i + 1) = some (encodePixel r g b br) :=
    run_induct (P := fun v => frameWord v.cfg v.frame (i + 1) = some (encodePixel r g b br)) hrun hstored
      fun v w hv hstep hp => step_keeps_entry hstep (hno v hv).1 (hno v hv).2 hp
  have hin : i + 1 < u.cfg.n + 2 := by
    rw [run_cfg hrun, exec_cfg hwrite]
    omega
  exact ⟨_, execRdWord_in hin hkept, rfl, rfl⟩

/-! ### FILL (41_frame.md R127) -/

/-- The pixel record of the generator's pixel `i`. -/
def generated (gen : Generator) (fc br i : Nat) : Word :=
  encodePixel (gen i fc br).red (gen i fc br).green (gen i fc br).blue (gen i fc br).brightness

/-- `t` is `s` after the first `m` writes of a FILL. -/
structure Filled (gen : Generator) (fc br m : Nat) (s t : State) : Prop where
  run     : Sys2Proof.core.run m s = .next t
  live    : t.ftl.fatal = false
  tx      : t.tx = s.tx
  cfg     : t.cfg = s.cfg
  inputs  : t.inputs = s.inputs.drop m
  form    : Memory.wf t.frame = true
  entries : ∀ i, i < m → frameWord t.cfg t.frame (i + 1) = some (generated gen fc br i)

theorem fillCommands_getElem? {n m : Nat} (gen : Generator) (fc br : Nat) (h : m < n) :
    (fillCommands n gen fc br)[m]? =
      some (.pixWrite m (gen m fc br).red (gen m fc br).green (gen m fc br).blue (gen m fc br).brightness) := by
  simp [fillCommands, h]

/-- The edge that accepts write `m` of a FILL. -/
theorem Filled.next {gen : Generator} {fc br m : Nat} {s t : State} (h : Filled gen fc br m s t)
    (hidle : s.tx.state = .idle) (hm : m < s.cfg.n) (hn : s.cfg.n ≤ 262141)
    (hpix : (gen m fc br).red < 256 ∧ (gen m fc br).green < 256 ∧ (gen m fc br).blue < 256 ∧
      (gen m fc br).brightness < 32)
    (hpres : Presents (fillCommands s.cfg.n gen fc br) s) : ∃ u, Filled gen fc br (m + 1) s u := by
  obtain ⟨hred, hgreen, hblue, hbright⟩ := hpix
  obtain ⟨inp, hinp, hr, hv, hcmd⟩ := hpres m _ (fillCommands_getElem? gen fc br hm)
  obtain ⟨hlen, hget⟩ := List.getElem?_eq_some_iff.1 hinp
  have htin : t.input = inp := input_eq_of_inputs (rest := s.inputs.drop (m + 1)) (by
    rw [h.inputs, List.drop_eq_getElem_cons hlen, hget])
  have hm' : m < t.cfg.n := h.cfg ▸ hm
  have ha : accepts t = true := accepts_iff.2 ⟨htin ▸ hv, htin ▸ hr, h.live, by rw [h.tx, hidle]⟩
  have hd := decodeOfEncode
    (.pixWrite m (gen m fc br).red (gen m fc br).green (gen m fc br).blue (gen m fc br).brightness) (by
      simp only [Instr.wf, Bool.and_eq_true, decide_eq_true_eq]
      omega)
  rw [← hcmd, ← htin] at hd
  have hstep := (step_of_command ha hd).trans (execPixWrite_in hbright hm')
  refine ⟨_, (run_add h.run 1).trans (run_one.2 hstep), h.live, h.tx, h.cfg, ?_, Memory.wf_store h.form _ _, ?_⟩
  · rw [step_inputs hstep, h.inputs, List.tail_drop]
  · intro i hi
    by_cases him : i = m
    · subst him
      exact frameWord_store_same h.form hm' _
    · exact (frameWord_store_other _ _ _ (by omega)).trans (h.entries i (by omega))

/-- Settles O26: the writes one after another, each keeping the entries before it. -/
theorem fillWritesEveryActiveEntry : Obligations.FillWritesEveryActiveEntry := by
  intro s gen fc br hinv hready hpix hpres
  obtain ⟨-, hlive, hidle⟩ := cmdReady_iff.1 hready
  have hn : s.cfg.n ≤ 262141 := by
    have hcfg := hinv.config
    simp only [Config.valid, Bool.and_eq_true, decide_eq_true_eq] at hcfg
    omega
  have hfill : ∀ m, m ≤ s.cfg.n → ∃ t, Filled gen fc br m s t := by
    intro m
    induction m with
    | zero => exact fun _ => ⟨s, rfl, hlive, rfl, rfl, rfl, hinv.frameForm, fun i hi => absurd hi (Nat.not_lt_zero i)⟩
    | succ m ih =>
      intro hm
      obtain ⟨t, ht⟩ := ih (Nat.le_of_succ_le hm)
      exact ht.next hidle hm hn (hpix m hm) hpres
  obtain ⟨t, ht⟩ := hfill s.cfg.n (Nat.le_refl _)
  refine ⟨t, ht.run, ht.live, ht.tx, ht.cfg, fun i hi => ⟨_, ht.entries i hi, ?_⟩⟩
  obtain ⟨hred, hgreen, hblue, hbright⟩ := hpix i hi
  exact decodePixel_encodePixel hred hgreen hblue hbright

end Sys2Proof.Machine
end

section
/-! PROOFS. A whole bit-banged send (42_transmit.md R141, R144, R147, R150): bit after bit along the stream that is
left, then the two end steps; and what a receiver reads from its waveform. -/

namespace Sys2Proof.Machine

open Sys2Proof.Claims

/-! ### The bits that are left (42_transmit.md R144) -/

theorem remBits_ne_nil (c : Config) (m : Memory) (j b : Nat) : remBits c m j b ≠ [] := by
  cases b <;> simp [remBits, bitsDown]

/-- After a bit the machine is at the next one of the stream, or at the end steps when there is none. -/
theorem remBits_afterBit {c : Config} {m : Memory} {tx : Transmitter} (hj : tx.j < c.frameBytes) {x : Bool}
    {bits : List Bool} (h : remBits c m tx.j tx.b.val = x :: bits) :
    x = (byteAt c m tx.j).getLsbD tx.b.val ∧
      (((afterBit c tx).state = .bbClkLo ∧ (afterBit c tx).j < c.frameBytes ∧
          remBits c m (afterBit c tx).j (afterBit c tx).b.val = bits) ∨
        ((afterBit c tx).state = .bbEndClk ∧ bits = [])) := by
  unfold remBits at h
  rcases fin_zero_or tx.b with hb | hb
  · rw [hb] at h ⊢
    obtain ⟨rfl, hbits⟩ := List.cons.inj h
    refine ⟨rfl, ?_⟩
    by_cases hlast : tx.j < c.frameBytes - 1
    · have hafter : afterBit c tx = { tx with j := tx.j + 1, b := 7, state := .bbClkLo } := by
        simp [afterBit, hb, hlast]
      have hnext : tx.j + 1 < c.frameBytes := by omega
      rw [hafter]
      refine .inl ⟨rfl, hnext, ?_⟩
      rw [← hbits, bytesFrom_succ hnext]
      rfl
    · have hafter : afterBit c tx = { tx with state := .bbEndClk } := by simp [afterBit, hb, hlast]
      rw [hafter]
      refine .inr ⟨rfl, ?_⟩
      rw [← hbits, bytesFrom_end (by omega)]
      rfl
  · obtain ⟨b, hb'⟩ : ∃ b, tx.b.val = b + 1 := ⟨tx.b.val - 1, by omega⟩
    rw [hb', bitsDown, List.cons_append] at h
    obtain ⟨rfl, hbits⟩ := List.cons.inj h
    refine ⟨by rw [hb'], .inl ?_⟩
    simp only [afterBit, hb, if_true]
    refine ⟨trivial, hj, ?_⟩
    rw [← hbits, hb']
    rfl

/-- The registers that a bit does not touch. -/
theorem afterBit_keeps (c : Config) (tx : Transmitter) : (afterBit c tx).d = tx.d ∧ (afterBit c tx).w = tx.w := by
  unfold afterBit
  split_ifs <;> exact ⟨rfl, rfl⟩

/-! ### The whole send -/

/-- The two end steps (42_transmit.md R147). -/
theorem leg_end {s : State} (hst : s.tx.state = .bbEndClk) (hi : InputsAre 2 Good s) :
    ∃ t, Leg 2 s t [(s.pin.clk, s.pin.dat), (true, s.pin.dat)] ∧ Finished .ok .bitBanged t ∧
      t.pin = { clk := true, dat := true } := by
  obtain ⟨hr, hp⟩ := inputsAre_head hi
  have l1 := leg_one hr (by simp [hst]) (txEdge_endClk hst)
  rw [pinWrite_ok hp] at l1
  have hi1 := inputsAre_drop (m := 1) (n := 1) hi l1.inputs
  generalize hu : goTo .bbEndDat (setPin .clk true (background s)) = u at l1 hi1
  have hpin : u.pin = { clk := true, dat := s.pin.dat } := by subst hu; rfl
  have hstu : u.tx.state = .bbEndDat := by subst hu; rfl
  obtain ⟨hr1, hp1⟩ := inputsAre_head hi1
  have l2 := leg_one hr1 (by simp [hstu]) (txEdge_endDat hstu)
  rw [pinWrite_ok hp1, hpin] at l2
  exact ⟨_, l1.trans l2, finished_finish _ _ _, by simp [hpin]⟩

/-- A bit-banged send from any bit on (42_transmit.md R150). -/
theorem leg_send (bits : List Bool) : ∀ s : State, s.tx.state = .bbClkLo → s.tx.w = 0 → s.tx.j < s.cfg.frameBytes →
    remBits s.cfg s.frame s.tx.j s.tx.b.val = bits → InputsAre (bits.length * (3 + 2 * s.tx.d) + 2) Good s →
    ∃ t ls, Leg (bits.length * (3 + 2 * s.tx.d) + 2) s t ls ∧
      ls ++ [(true, true)] = sendWave s.tx.d (s.pin.clk, s.pin.dat) bits ∧ Finished .ok .bitBanged t ∧
      t.pin = { clk := true, dat := true } := by
  induction bits with
  | nil => exact fun s _ _ _ hbits => absurd hbits (remBits_ne_nil _ _ _ _)
  | cons x bits ih =>
    intro s hst hw hj hbits hi
    have hlen : (x :: bits).length * (3 + 2 * s.tx.d) + 2 =
        (3 + 2 * s.tx.d) + (bits.length * (3 + 2 * s.tx.d) + 2) := by
      rw [List.length_cons, Nat.succ_mul]; omega
    rw [hlen] at hi ⊢
    obtain ⟨v, hv⟩ := txByte_isSome hj
    obtain ⟨u, hbit, htx, hpin⟩ := leg_bit hst hw hv (inputsAre_le hi (Nat.le_add_right _ _))
    have hiu := inputsAre_drop hi hbit.inputs
    obtain ⟨hx, hnext⟩ := remBits_afterBit hj hbits
    have hvx : v.getLsbD s.tx.b.val = x := by
      rw [hx, byteAt, show frameByte s.cfg s.frame s.tx.j = some v from hv]
      rfl
    obtain ⟨hd, hw'⟩ := afterBit_keeps s.cfg s.tx
    rw [hvx] at hbit hpin
    rcases hnext with ⟨hlo, hjn, hrest⟩ | ⟨hend, rfl⟩
    · have hdu : u.tx.d = s.tx.d := by rw [htx, hd]
      obtain ⟨t, ls, hleg, hwave, hdone, hpins⟩ := ih u (by rw [htx, hlo]) (by rw [htx, hw', hw])
        (by rw [htx, hbit.cfg]; exact hjn) (by rw [htx, hbit.cfg, hbit.frame]; exact hrest) (by rwa [hdu])
      rw [hdu] at hleg hwave
      refine ⟨t, _, hbit.trans hleg, ?_, hdone, hpins⟩
      rw [List.append_assoc, hwave, hpin]
      simp [sendWave]
    · obtain ⟨t, hleg, hdone, hpins⟩ := leg_end (s := u) (by rw [htx, hend]) (by simpa using hiu)
      rw [hpin] at hleg
      refine ⟨t, _, by simpa using hbit.trans hleg, ?_, hdone, hpins⟩
      simp [sendWave]

/-- An accepted SEND_BB with good inputs, from any idle state. -/
theorem run_sendBb {s u : State} {dly : Nat} (hexec : exec (.sendBb dly) s = .next u)
    (hi : InputsAre (sendLength s.cfg (dly * s.cfg.cyclesPerUs)) Good u) :
    ∃ t ls, Leg (sendLength s.cfg (dly * s.cfg.cyclesPerUs)) u t ls ∧
      ls ++ [(true, true)] = sendWave (dly * s.cfg.cyclesPerUs) (s.pin.clk, s.pin.dat) (frameBits s.cfg s.frame) ∧
      Finished .ok .bitBanged t ∧ t.pin = { clk := true, dat := true } := by
  have hsend := leg_send (frameBits s.cfg s.frame) u
  have hlen : sendLength s.cfg (dly * s.cfg.cyclesPerUs) =
      (frameBits s.cfg s.frame).length * (3 + 2 * (dly * s.cfg.cyclesPerUs)) + 2 := by
    rw [frameBits_length, sendLength]
  rw [hlen] at hi ⊢
  have hframe : 0 < s.cfg.frameBytes := by unfold Config.frameBytes; omega
  cases hexec
  exact hsend rfl rfl hframe (frameBits_eq _ _).symm hi

/-- Settles O35: the send runs along the frame's bit stream, and the block is not fatal. -/
theorem sendBbDrivesTheWaveform : Obligations.SendBbDrivesTheWaveform := by
  intro s dly u _ hready _ hexec hi
  obtain ⟨-, hlive, -⟩ := cmdReady_iff.1 hready
  obtain ⟨t, ls, hleg, hwave, hdone, hpin⟩ := run_sendBb hexec hi
  have hcfg : t.cfg = s.cfg := hleg.cfg.trans (exec_cfg hexec)
  have hkept : t.frame = s.frame ∧ t.ftl = s.ftl := by
    cases hexec
    exact ⟨hleg.frame, hleg.ftl⟩
  obtain ⟨hframe, hftl⟩ := hkept
  refine ⟨t, hleg.run, ?_, hdone, hpin, fun a => by rw [hcfg, hframe], hftl, ?_⟩
  · rw [trace_eq hleg.run, ← hwave, ← hleg.lines, ledLines, List.map_append, List.map_cons, hpin]
    rfl
  · simp [cmdReady, hftl, hlive, hdone.tx]

/-! ### What a receiver reads (42_transmit.md R141) -/

theorem sendWave_head (d : Nat) (l : Lines) (bits : List Bool) : ∃ rest, sendWave d l bits = l :: rest := by
  cases bits <;> exact ⟨_, rfl⟩

/-- A clock line that stays high shows no edge. -/
theorem risingSamples_high (n : Nat) (x : Bool) (rest : List Lines) :
    risingSamples (List.replicate n (true, x) ++ (true, x) :: rest) = risingSamples ((true, x) :: rest) := by
  induction n with
  | zero => rfl
  | succ n ih =>
    rw [List.replicate_succ, List.cons_append, ← ih]
    cases n <;> rfl

/-- A clock line that rises after some low cycles shows one edge. -/
theorem risingSamples_low (n : Nat) (x y : Bool) (rest : List Lines) :
    risingSamples ((false, x) :: (List.replicate n (false, y) ++ (true, y) :: rest)) =
      y :: risingSamples ((true, y) :: rest) := by
  induction n generalizing x with
  | zero => rfl
  | succ n ih =>
    rw [List.replicate_succ, List.cons_append, ← ih y]
    rfl

/-- Each bit of the waveform is read at its one rising edge; there is none at the end when the clock is high. -/
theorem risingSamples_sendWave (d : Nat) (bits : List Bool) (l : Lines) (h : l.1 = true ∨ bits ≠ []) :
    risingSamples (sendWave d l bits) = bits := by
  induction bits generalizing l with
  | nil =>
    obtain ⟨clk, dat⟩ := l
    obtain rfl : clk = true := h.resolve_right (fun hne => hne rfl)
    rfl
  | cons x bits ih =>
    obtain ⟨clk, dat⟩ := l
    obtain ⟨rest, hrest⟩ := sendWave_head d (true, x) bits
    have hhigh : List.replicate d (true, x) ++ (true, x) :: rest =
        (true, x) :: (List.replicate d (true, x) ++ rest) := by
      rw [← List.cons_append, ← List.replicate_succ, List.replicate_succ', List.append_assoc]
      rfl
    calc risingSamples (sendWave d (clk, dat) (x :: bits))
        = risingSamples ((false, dat) :: (List.replicate (d + 1) (false, x) ++
            (true, x) :: (List.replicate d (true, x) ++ rest))) := by
          rw [sendWave, hrest, hhigh]; simp [risingSamples]
      _ = x :: risingSamples (List.replicate d (true, x) ++ (true, x) :: rest) := by rw [risingSamples_low, hhigh]
      _ = x :: bits := by rw [risingSamples_high, ← hrest, ih _ (.inl rfl)]

/-- Settles O36: the waveform of the frame's bit stream is read as that stream. -/
theorem sendBbCarriesTheFrameBits : Obligations.SendBbCarriesTheFrameBits := by
  intro s dly u hinv hready hdly hexec hi
  obtain ⟨-, -, hlines, -⟩ := sendBbDrivesTheWaveform s dly u hinv hready hdly hexec hi
  have hlen := frameBits_length s.cfg s.frame
  refine ⟨?_, hlen⟩
  rw [hlines]
  exact risingSamples_sendWave _ _ _ (.inr (List.ne_nil_of_length_pos (by omega)))

end Sys2Proof.Machine
end

section
/-! PROOFS. A whole peripheral transfer (42_transmit.md R153 to R157) and the payload of both variants (R161). All
cycles but the last are those of `per_run`; the last one completes the send, because the last byte is taken or because
the budget is used up. -/

namespace Sys2Proof.Machine

open Sys2Proof.Claims

/-- A SEND_PER at its first byte (42_transmit.md R152), the frame and the inputs of the transfer. -/
structure AtFirstByte (s u : State) : Prop where
  state : u.tx.state = .perXfer
  j     : u.tx.j = 0
  t     : u.tx.t = 0
  cfg   : u.cfg = s.cfg
  frame : u.frame = s.frame
  pin   : u.pin = s.pin

theorem atFirstByte_of_exec {s u : State} {ign : Nat} (h : exec (.sendPer ign) s = .next u) : AtFirstByte s u := by
  cases h
  exact ⟨rfl, rfl, rfl, rfl, rfl, rfl⟩

/-- The byte taken in a transfer cycle is the one under the cursor (42_transmit.md R151). -/
theorem byteTaken_perXfer {s : State} (hst : s.tx.state = .perXfer) (hj : s.tx.j < s.cfg.frameBytes) :
    byteTaken s = if s.input.perReady then some (byteAt s.cfg s.frame s.tx.j) else none := by
  obtain ⟨v, hv⟩ := txByte_isSome hj
  have hbyte : byteAt s.cfg s.frame s.tx.j = v := by
    rw [byteAt, show frameByte s.cfg s.frame s.tx.j = some v from hv]
    rfl
  simp [byteTaken, perData, perValid, hst, hv, hbyte]

/-- Outside a transfer nothing is taken. -/
theorem byteTaken_of_idle {s : State} (h : s.tx.state = .idle) : byteTaken s = none := by
  simp [byteTaken, perValid, h]

/-- `v` is the state in the last cycle of the transfer `u` of the frame of `s`, after `k` cycles before it: the cursor
counts the handshakes so far, and the bytes taken are the first ones of the byte view. -/
structure LastCycle (s u : State) (k : Nat) (v : State) : Prop where
  run   : Sys2Proof.core.run k u = .next v
  state : v.tx.state = .perXfer
  j     : v.tx.j = readyCount k u
  t     : v.tx.t = k
  pin   : v.pin = s.pin
  cfg   : v.cfg = s.cfg
  frame : v.frame = s.frame
  good  : PGood v.input
  inCur : v.tx.j < v.cfg.frameBytes
  count : readyCount (k + 1) u = readyCount k u + v.input.perReady.toNat
  taken : takenBytes (cycles k u) = (List.range' 0 (readyCount k u)).map (byteAt s.cfg s.frame)

/-- The last cycle is reached when no more than the last byte is missing then and the budget is not used up before. -/
theorem exists_lastCycle {s u : State} {k : Nat} (hu : AtFirstByte s u) (hi : InputsAre (k + 1) PGood u)
    (hready : readyCount k u ≤ s.cfg.frameBytes - 1) (hbudget : k < s.cfg.perTimeout) : ∃ v, LastCycle s u k v := by
  obtain ⟨hst, hj, ht, hcfg, hframe, hpin⟩ := hu
  obtain ⟨v, hrun, htx, hpinv, hcfgv, hframev, -, hin, htaken⟩ := per_run k u hst (inputsAre_le hi (Nat.le_succ k))
    (by rw [hj, hcfg]; omega) (by rw [ht, hcfg]; omega)
  rw [hj, hcfg, hframe] at htaken
  have hjv : v.tx.j = readyCount k u := by rw [htx]; simp [hj]
  have hsize : 0 < s.cfg.frameBytes := by unfold Config.frameBytes; omega
  exact ⟨v, hrun, by rw [htx]; exact hst, hjv, by rw [htx]; simp [ht], hpinv.trans hpin, hcfgv.trans hcfg,
    hframev.trans hframe, inputsAre_head (inputsAre_drop hi hin), by rw [hjv, hcfgv, hcfg]; omega,
    readyCount_last hi.1 hin, htaken⟩

/-- Over the whole transfer, as many bytes of the byte view are taken as there are handshakes. -/
theorem LastCycle.takenBytes_trace {s u v t : State} {k : Nat} (h : LastCycle s u k v) (hstep : step v = .next t)
    (hidle : t.tx.state = .idle) :
    takenBytes (trace (k + 1) u) = (List.range' 0 (readyCount (k + 1) u)).map (byteAt s.cfg s.frame) := by
  have htaken := h.taken
  have hlast : trace 1 v = [v, t] := by rw [trace_succ hstep]; rfl
  rw [trace_add h.run 1, hlast, h.count]
  unfold takenBytes at htaken ⊢
  rw [List.filterMap_append, htaken, List.filterMap_cons, List.filterMap_cons, byteTaken_of_idle hidle,
    byteTaken_perXfer h.state h.inCur, h.cfg, h.frame, h.j]
  cases v.input.perReady
  · simp
  · simp [List.range'_concat]

/-- The edge of a transfer cycle in which no handshake fails (42_transmit.md R153). -/
theorem LastCycle.step_eq {s u v : State} {k : Nat} (h : LastCycle s u k v) :
    step v = .next (
      if v.input.perReady && decide (v.tx.j = v.cfg.frameBytes - 1) then finish .ok .clockedPeripheral (background v)
      else if v.cfg.perTimeout ≤ v.tx.t + 1 then finish .perTimeout .clockedPeripheral (background v)
      else { background v with tx := { v.tx with
        j := if v.input.perReady then v.tx.j + 1 else v.tx.j, t := v.tx.t + 1 } }) := by
  obtain ⟨x, hx⟩ := txByte_isSome h.inCur
  have hnofail : ¬ (v.input.perReady && v.input.perErr) = true := fun hfail => by
    obtain ⟨hready, herr⟩ := Bool.and_eq_true_iff.1 hfail
    simp [h.good.2 hready] at herr
  rw [step_busy h.good.1 (by simp [h.state]), txEdge_perXfer h.state hx, if_neg hnofail]

/-- A transfer whose last byte is taken in its `m`-th cycle, from any state at the first byte. -/
theorem run_hands_over {s u : State} {m : Nat} (hu : AtFirstByte s u) (hi : InputsAre m PGood u) (hm : 1 ≤ m)
    (hbudget : m ≤ s.cfg.perTimeout) (hall : readyCount m u = 4 * (s.cfg.n + 2))
    (hbefore : readyCount (m - 1) u = 4 * (s.cfg.n + 2) - 1) :
    ∃ t : State, Sys2Proof.core.run m u = .next t ∧ takenBytes (trace m u) = frameByteList s.cfg s.frame ∧
      Finished .ok .clockedPeripheral t ∧ t.pin = s.pin ∧ SameBytes s t := by
  obtain ⟨k, rfl⟩ : ∃ k, m = k + 1 := ⟨m - 1, by omega⟩
  rw [Nat.add_sub_cancel] at hbefore
  obtain ⟨v, hv⟩ := exists_lastCycle hu hi hbefore.le (by omega)
  have hready : v.input.perReady = true := by
    have hcount := hv.count
    cases hr : v.input.perReady
    · rw [hr, Bool.toNat_false] at hcount; omega
    · rfl
  have hend : v.tx.j = v.cfg.frameBytes - 1 := by rw [hv.j, hbefore, hv.cfg]; rfl
  have hstep := hv.step_eq
  rw [if_pos (by simp [hready, hend])] at hstep
  refine ⟨_, (run_add hv.run 1).trans (run_one.2 hstep), ?_, finished_finish _ _ _, hv.pin, fun a => ?_⟩
  · rw [hv.takenBytes_trace hstep rfl, hall, frameByteList_eq]
    rfl
  · rw [finish_cfg, finish_frame, background_cfg, background_frame, hv.cfg, hv.frame]

/-- Settles O37: all cycles but the last are a run of the cursor, and the last one takes the last byte. -/
theorem sendPerHandsOverTheFrame : Obligations.SendPerHandsOverTheFrame :=
  fun _ _ _ _ _ _ hexec hi hm hbudget hall hbefore =>
    run_hands_over (atFirstByte_of_exec hexec) hi hm hbudget hall hbefore

/-- Settles O38: in the last cycle of the budget a byte is still missing afterwards. -/
theorem sendPerTimesOut : Obligations.SendPerTimesOut := by
  intro s ign u hinv _ hexec hi hfew
  have hbudget : 1 ≤ s.cfg.perTimeout := by
    have hcfg := hinv.config
    simp only [Config.valid, Bool.and_eq_true, decide_eq_true_eq] at hcfg
    omega
  obtain ⟨k, hk⟩ : ∃ k, s.cfg.perTimeout = k + 1 := ⟨s.cfg.perTimeout - 1, by omega⟩
  rw [hk] at hi hfew ⊢
  have hsize : s.cfg.frameBytes = 4 * (s.cfg.n + 2) := rfl
  have hmono : readyCount k u ≤ readyCount (k + 1) u :=
    ((List.take_sublist_take_left (Nat.le_succ k)).filter _).length_le
  obtain ⟨v, hv⟩ := exists_lastCycle (atFirstByte_of_exec hexec) hi (by omega) (by omega)
  have hnotlast : ¬ (v.input.perReady && decide (v.tx.j = v.cfg.frameBytes - 1)) = true := fun hlast => by
    obtain ⟨hready, hend⟩ := Bool.and_eq_true_iff.1 hlast
    have hcount := hv.count
    rw [decide_eq_true_eq, hv.j, hv.cfg] at hend
    rw [hready, Bool.toNat_true] at hcount
    omega
  have hstep := hv.step_eq
  rw [if_neg hnotlast, if_pos (by rw [hv.cfg, hv.t, hk])] at hstep
  refine ⟨_, (run_add hv.run 1).trans (run_one.2 hstep), finished_finish _ _ _, ?_⟩
  rw [hv.takenBytes_trace hstep rfl, frameByteList_eq, bytesFrom, ← List.map_take,
    List.take_range'_of_length_ge (by omega)]

/-! ### Both variants (42_transmit.md R161) -/

/-- Settles O41: both lines carry the bits of the frame's bytes, which a change of the inputs leaves alone. -/
theorem variantsCarryTheSamePayload : Obligations.VariantsCarryTheSamePayload := by
  intro s u v dly ign m other lines hinv hready hdly hbb hibb hper hiper hm hbudget hall hbefore hconf
  obtain ⟨hbits, -⟩ := sendBbCarriesTheFrameBits s dly u hinv hready hdly hbb hibb
  obtain ⟨-, -, htaken, -⟩ := run_hands_over (atFirstByte_of_exec hper) hiper hm hbudget hall hbefore
  rw [hbits, hconf.bits]
  exact congrArg (List.flatMap msbFirst) htaken

end Sys2Proof.Machine
end

section
/-! PROOFS. Every send ends (70_reset_and_hazards.md R223). A bound on the edges that are left falls with every edge
that does not end the send, whatever the pins and the peripheral do. -/

namespace Sys2Proof.Machine

open Sys2Proof.Claims

/-! ### The edges that are left -/

/-- How many bits of the stream come after the one under the cursor. -/
def bitsAfter (c : Config) (tx : Transmitter) : Nat := 8 * (c.frameBytes - 1 - tx.j) + tx.b.val

/-- At most how many edges a send still takes (42_transmit.md R150, R154): each bit takes 3 + 2d, the end steps 2. -/
def edgesLeft (c : Config) (tx : Transmitter) : Nat :=
  let later := bitsAfter c tx * (3 + 2 * tx.d) + 2
  match tx.state with
  | .idle => 0
  | .bbClkLo => later + (3 + 2 * tx.d)
  | .bbDat => later + (2 + 2 * tx.d)
  | .bbWait1 => later + tx.w + 1 + tx.d
  | .bbClkHi => later + 1 + tx.d
  | .bbWait2 => later + tx.w
  | .bbEndClk => 2
  | .bbEndDat => 1
  | .perXfer => c.perTimeout - tx.t

/-- After a bit, the bits that were to come after it are left. -/
theorem edgesLeft_advance {t : State} (hj : t.tx.j < t.cfg.frameBytes) :
    edgesLeft t.cfg (advance t).tx ≤ bitsAfter t.cfg t.tx * (3 + 2 * t.tx.d) + 2 := by
  rcases fin_zero_or t.tx.b with hb | hb
  · by_cases hlast : t.tx.j < t.cfg.frameBytes - 1
    · rw [advance_byte hb hlast]
      have hbits : bitsAfter t.cfg t.tx = 8 * (t.cfg.frameBytes - 1 - (t.tx.j + 1)) + 7 + 1 := by
        simp only [bitsAfter, hb, Fin.val_zero]; omega
      rw [hbits, Nat.succ_mul]
      simp [edgesLeft, bitsAfter]
      omega
    · rw [advance_end hb hlast]
      exact Nat.le_add_left _ _
  · rw [advance_bit hb]
    have hbits : bitsAfter t.cfg t.tx = 8 * (t.cfg.frameBytes - 1 - t.tx.j) + (t.tx.b.val - 1) + 1 := by
      simp only [bitsAfter]; omega
    rw [hbits, Nat.succ_mul]
    simp [edgesLeft, bitsAfter]
    omega

/-- A pin write after which the transmitter is busy has succeeded. -/
theorem pinWrite_of_busy {inp : Input} {p : Pin} {v : Bool} {f : State → State} {t : State}
    (h : (pinWrite inp p v f t).tx.state ≠ .idle) : pinWrite inp p v f t = f (setPin p v t) := by
  cases hp : inp.pinFault
  · exact pinWrite_ok hp _ _ _ _
  · rw [pinWrite_fail hp] at h
    exact absurd rfl h

/-- Every edge that does not end the send leaves fewer edges. -/
theorem edgesLeft_txEdge {s t : State} (h : TxOk s) (hbusy : t.tx.state ≠ .idle) (he : txEdge s = .next t) :
    edgesLeft s.cfg t.tx < edgesLeft s.cfg s.tx := by
  have hx := h.ranges
  cases hst : s.tx.state <;> simp only [TxRanges, hst] at hx
  case idle =>
    cases (txEdge_idle hst).symm.trans he
    exact absurd hst hbusy
  case bbClkLo =>
    cases (txEdge_clkLo hst).symm.trans he
    rw [pinWrite_of_busy hbusy]
    simp [edgesLeft, bitsAfter, hst]
  case bbDat =>
    obtain ⟨v, hv⟩ := txByte_isSome hx.1.1
    cases (txEdge_dat hst hv).symm.trans he
    rw [pinWrite_of_busy hbusy]
    rcases Nat.eq_zero_or_pos s.tx.d with hd | hd
    · rw [waitOr_none (t := setPin .dat _ (background s)) hd]
      simp [edgesLeft, bitsAfter, hst, hd]
    · rw [waitOr_some (t := setPin .dat _ (background s)) hd]
      simp [edgesLeft, bitsAfter, hst]
      omega
  case bbWait1 =>
    cases (txEdge_wait1 hst).symm.trans he
    by_cases hw : s.tx.w = 1
    · rw [waitCycle_last (t := background s) hw]
      simp [edgesLeft, bitsAfter, hst, hw]
    · rw [waitCycle_more (t := background s) hw]
      simp [edgesLeft, bitsAfter, hst]
      omega
  case bbClkHi =>
    cases (txEdge_clkHi hst).symm.trans he
    rw [pinWrite_of_busy hbusy]
    rcases Nat.eq_zero_or_pos s.tx.d with hd | hd
    · rw [waitOr_none (t := setPin .clk _ (background s)) hd]
      refine Nat.lt_of_le_of_lt (edgesLeft_advance (t := setPin .clk true (background s)) hx.1.1) ?_
      simp [edgesLeft, bitsAfter, hst, hd]
    · rw [waitOr_some (t := setPin .clk _ (background s)) hd]
      simp [edgesLeft, bitsAfter, hst]
  case bbWait2 =>
    cases (txEdge_wait2 hst).symm.trans he
    by_cases hw : s.tx.w = 1
    · rw [waitCycle_last (t := background s) hw]
      refine Nat.lt_of_le_of_lt
        (edgesLeft_advance (t := { background s with tx := { (background s).tx with w := 0 } }) hx.1.1) ?_
      simp [edgesLeft, bitsAfter, hst, hw]
    · rw [waitCycle_more (t := background s) hw]
      simp [edgesLeft, bitsAfter, hst]
      omega
  case bbEndClk =>
    cases (txEdge_endClk hst).symm.trans he
    rw [pinWrite_of_busy hbusy]
    simp [edgesLeft, hst]
  case bbEndDat =>
    cases (txEdge_endDat hst).symm.trans he
    rw [pinWrite_of_busy hbusy] at hbusy
    exact absurd rfl hbusy
  case perXfer =>
    obtain ⟨v, hv⟩ := txByte_isSome hx.1
    cases (txEdge_perXfer hst hv).symm.trans he
    split_ifs at hbusy ⊢ with hfail hlast hbudget
    case pos | pos | pos => exact absurd rfl hbusy
    all_goals
      simp [edgesLeft, hst]
      omega

/-- A busy transmitter has at least one edge left. -/
theorem edgesLeft_pos {s : State} (h : TxOk s) (hbusy : s.tx.state ≠ .idle) : 0 < edgesLeft s.cfg s.tx := by
  have hx := h.ranges
  cases hst : s.tx.state <;> simp [TxRanges, edgesLeft, hst] at hx hbusy ⊢
  case perXfer => omega

/-- No busy state has more edges left than a whole send of its variant takes (42_transmit.md R150, R154). -/
theorem edgesLeft_le {s : State} (h : TxOk s) :
    edgesLeft s.cfg s.tx ≤ if s.tx.state = .perXfer then s.cfg.perTimeout else sendLength s.cfg s.tx.d := by
  have hx := h.ranges
  have hsize : s.cfg.frameBytes = 4 * (s.cfg.n + 2) := rfl
  have hbits : bitsAfter s.cfg s.tx + 1 ≤ 32 * (s.cfg.n + 2) := by
    have hb := s.tx.b.isLt
    unfold bitsAfter
    omega
  have hlen : bitsAfter s.cfg s.tx * (3 + 2 * s.tx.d) + (3 + 2 * s.tx.d) + 2 ≤ sendLength s.cfg s.tx.d := by
    rw [← Nat.succ_mul]
    exact Nat.add_le_add_right (Nat.mul_le_mul_right _ hbits) 2
  cases hst : s.tx.state <;> simp [TxRanges, edgesLeft, hst] at hx ⊢ <;> omega

/-! ### The end of a send -/

/-- A busy state of the invariant, with no reset while edges are left, is idle with a response by then. -/
theorem send_ends (n : Nat) : ∀ s : State, LioInv s → s.tx.state ≠ .idle → edgesLeft s.cfg s.tx ≤ n → NoReset n s →
    ∃ (m : Nat) (t : State), 1 ≤ m ∧ m ≤ n ∧ Sys2Proof.core.run m s = .next t ∧ t.tx.state = .idle ∧
      t.rsp.valid = true := by
  induction n with
  | zero =>
    intro s hinv hbusy hleft
    have hpos := edgesLeft_pos ⟨hinv.txRanges, hinv.wire⟩ hbusy
    omega
  | succ n ih =>
    intro s hinv hbusy hleft hnr
    obtain ⟨t, hstep⟩ := stepAlwaysAnswersNext s hinv
    obtain ⟨hr, hrest⟩ := noReset_succ hnr hstep
    have hedge : txEdge s = .next t := (step_busy hr hbusy).symm.trans hstep
    rcases txEdge_responds hbusy hedge with ⟨hvalid, hidle⟩ | ⟨-, hbusy'⟩
    · exact ⟨1, t, Nat.le_refl 1, by omega, run_one.2 hstep, hidle, hvalid⟩
    · have hless := edgesLeft_txEdge ⟨hinv.txRanges, hinv.wire⟩ hbusy' hedge
      obtain ⟨m, u, hm, hmn, hrun, hidle, hvalid⟩ :=
        ih t (stepKeepsInv s t hinv hstep) hbusy' (by rw [step_cfg hstep]; omega) hrest
      exact ⟨m + 1, u, by omega, by omega, (run_succ hstep m).trans hrun, hidle, hvalid⟩

/-- Settles O39: the edges that are left fall with every edge, and at first they are no more than a whole send takes. -/
theorem everySendEnds : Obligations.EverySendEnds :=
  fun s hinv hbusy hr => send_ends _ s hinv hbusy (edgesLeft_le ⟨hinv.txRanges, hinv.wire⟩) hr

end Sys2Proof.Machine
end
